-- ==== Sys2Proof/Word.lean ====
section
/-! DEFINITION. The words of the block: the 8-bit component, the 32-bit operation word, and the complex
value of two 8-bit components that BUF and TW hold (00_scope.md R14, R19; 20_memory.md R71). -/

namespace Sys2Proof

/-- A component of a sample, or one byte of BUF: 8 bits (R14). -/
abbrev Byte := BitVec 8

/-- An operation word: 32 bits (30_encoding.md R100). -/
abbrev OpWord := BitVec 32

/-- A complex value, the source's Sample: two 8-bit two's-complement components (R19). -/
structure Cplx where
  re : Byte
  im : Byte
  deriving DecidableEq, Repr

/-- The complex value (0, 0). -/
def Cplx.zero : Cplx := ⟨0, 0⟩

/-- The 16-bit element `im` in bits [15:8], `re` in bits [7:0] (R71). -/
def Cplx.elem (z : Cplx) : BitVec 16 := z.im ++ z.re

end Sys2Proof
end

