-- ==== Sys2Proof/Config.lean ====
section
/-! DEFINITION. What an instance of the block fixes for its lifetime (00_scope.md R10 to R13, 10_state.md
R49), the constants derived from N (R15), and the one free value of the model: the proximity answer. -/

namespace Sys2Proof

/-- ACQ_MODE (R11): one mode per instance, fixed for its lifetime. -/
inductive AcqMode where
  | triggered
  | freeRunning
  deriving DecidableEq, Repr

/-- The parameters of an instance (R10 to R13). N is `2 ^ log2N`, with `1 ≤ log2N ≤ 10`; KEY has exactly N
entries. DESIGN CHOICE (log 1), safe: State carries the instance, and no step changes it. -/
structure Config where
  /-- L = log2 N (R10). -/
  log2N : Nat
  log2N_range : 1 ≤ log2N ∧ log2N ≤ 10
  /-- ACQ_MODE (R11). -/
  acqMode : AcqMode
  /-- THRESHOLD (R12): 32-bit unsigned. -/
  threshold : BitVec 32
  /-- KEY (R13): N unsigned 8-bit values. -/
  key : Vector Byte (2 ^ log2N)
  deriving DecidableEq, Repr

/-- N, the transform size (R10). -/
def Config.n (c : Config) : Nat := 2 ^ c.log2N

/-- H = N/2 (R15). -/
def Config.half (c : Config) : Nat := c.n / 2

/-- The stride of pass p: s(p) = N/2^(p+1) (R15). -/
def Config.stride (c : Config) (p : Nat) : Nat := c.n >>> (p + 1)

/-- The instance that `State.reset` names: the configuration of program P3 of 95_test_vectors.md. DESIGN
CHOICE (log 2), unsafe for a claim about `State.reset` alone: the spec leaves all four parameters open. -/
def Config.programP3 : Config := ⟨2, by decide, .triggered, 1, #v[1, 0, 0, 0]⟩

/-- The proximity sensor's answer to the n-th free poll: a draw under no law (44_external.md R261, 93 U15).
A free value: it has no body, so every claim holds for every answer (log 7), safe. -/
opaque Config.freeNearby : Nat → BitVec 1

end Sys2Proof
end

