-- ==== Sys2Proof/Syntax.lean ====
section
/-! DEFINITION. The operations of the block: one constructor of `Instr` per row of spec/opcode_table.json
(30_encoding.md R103), the names and formats of the opcode map (R101), and the lines of the assembler
(R107, R108). -/

namespace Sys2Proof

/-- One operation, with its operand fields at their exact widths (R102, R103). -/
inductive Instr where
  /-- ACQ.START (40_acquisition.md R130) -/
  | acqStart
  /-- ACQ.RESET (R131) -/
  | acqReset
  /-- ACQ.SAMPLE (R132) -/
  | acqSample (v8 : BitVec 8)
  /-- ACQ.TRIGGER (R133) -/
  | acqTrigger
  /-- ACQ.ISFULL (R134) -/
  | acqIsfull
  /-- ACQ.STATUS (R135) -/
  | acqStatus
  /-- ACQ.READ (R136) -/
  | acqRead (idx : BitVec 16)
  /-- FFT.TRANSFORM (41_transform.md R168) -/
  | fftTransform
  /-- FFT.PASS (R167) -/
  | fftPass (p4 : BitVec 4)
  /-- FFT.BFLY (R166) -/
  | fftBfly (p4 : BitVec 4) (k : BitVec 16)
  /-- TW.READ (R169) -/
  | twRead (idx : BitVec 16)
  /-- MATCH.ISMATCH (42_matcher.md R205) -/
  | matchIsmatch
  /-- MATCH.ERROR (R204) -/
  | matchError
  /-- KEY.READ (R203) -/
  | keyRead (idx : BitVec 16)
  /-- MATCH.LOGMAG (R202) -/
  | matchLogmag (idx : BitVec 16)
  /-- FSM.TICK (43_control.md R239) -/
  | fsmTick
  /-- SYS.RESET (70_reset_and_hazards.md R320) -/
  | sysReset
  /-- PROX.POLL, an output event (44_external.md R261) -/
  | proxPoll (v1 : BitVec 1)
  /-- ACT.OPEN, an output event (R262) -/
  | actOpen
  /-- ACT.CLOSE, an output event (R263) -/
  | actClose
  deriving DecidableEq, Repr

/-- The six word formats (R101). -/
inductive Format where
  | n | v | i | p | b | o
  deriving DecidableEq, Repr

/-- The rows of the opcode map (R103), by name. -/
inductive Opcode where
  | acqStart | acqReset | acqSample | acqTrigger | acqIsfull | acqStatus | acqRead
  | fftTransform | fftPass | fftBfly | twRead
  | matchIsmatch | matchError | keyRead | matchLogmag
  | fsmTick | sysReset
  | proxPoll | actOpen | actClose
  deriving DecidableEq, Repr

/-- The two decoding contexts (R106): a word issued to the block, or a word of the output trace. -/
inductive Context where
  | input
  | trace
  deriving DecidableEq, Repr

/-- The format of each row (R103). -/
def Opcode.format : Opcode → Format
  | .acqStart | .acqReset | .acqTrigger | .acqIsfull | .acqStatus | .fftTransform | .matchIsmatch
  | .matchError | .fsmTick | .sysReset | .actOpen | .actClose => .n
  | .acqSample => .v
  | .acqRead | .twRead | .keyRead | .matchLogmag => .i
  | .fftPass => .p
  | .fftBfly => .b
  | .proxPoll => .o

/-- The context a row's words are valid in: the three output events in TRACE, the rest in INPUT (R104,
R106). -/
def Opcode.context : Opcode → Context
  | .proxPoll | .actOpen | .actClose => .trace
  | _ => .input

/-- The row an operation belongs to. -/
def Instr.opcode : Instr → Opcode
  | .acqStart => .acqStart
  | .acqReset => .acqReset
  | .acqSample _ => .acqSample
  | .acqTrigger => .acqTrigger
  | .acqIsfull => .acqIsfull
  | .acqStatus => .acqStatus
  | .acqRead _ => .acqRead
  | .fftTransform => .fftTransform
  | .fftPass _ => .fftPass
  | .fftBfly _ _ => .fftBfly
  | .twRead _ => .twRead
  | .matchIsmatch => .matchIsmatch
  | .matchError => .matchError
  | .keyRead _ => .keyRead
  | .matchLogmag _ => .matchLogmag
  | .fsmTick => .fsmTick
  | .sysReset => .sysReset
  | .proxPoll _ => .proxPoll
  | .actOpen => .actOpen
  | .actClose => .actClose

/-- A line of the assembler (R107, R108): an operation with integer operands, or a pseudo-operation. -/
inductive AsmLine where
  | op (o : Opcode) (args : List Int)
  | acqFill (vs : List Int)
  | fsmTicks (n : Int)
  deriving DecidableEq, Repr

end Sys2Proof
end

