-- ==== Sys2Proof/Machine/State.lean ====
section
/-! DEFINITION. The state of the block (10_state.md R30 to R47) as plain data, the reasons a step can stop,
and the state after reset (70_reset_and_hazards.md R320, R321). -/

namespace Sys2Proof.Machine

/-- STATE, the FSM state register (R33). Its four 2-bit codes name all states, so the clause of
43_control.md R235 is vacuous. DEDUCED (log 16), safe. -/
inductive FsmState where
  | stateInit
  | stateAnalyze
  | stateOpen
  | stateReset
  deriving DecidableEq, Repr

/-- The model fault codes of 60_exceptions.md R282. -/
inductive FaultCode where
  /-- F_START_COLLECTING: ACQ.START while COLLECTING = 1 and FULL = 0 -/
  | startCollecting
  /-- F_RESET_ARMED: ACQ.RESET while ARMED = 1 -/
  | resetArmed
  /-- F_NOT_FULL: a read of BUF, or an FFT operation, while FULL = 0 -/
  | notFull
  /-- F_INDEX: an index, pass or butterfly operand out of range for N -/
  | index
  deriving DecidableEq, Repr

/-- An output event of the trace OUT (R47). -/
inductive OutEvent where
  | actOpen
  | actClose
  | proxPoll (v : BitVec 1)
  deriving DecidableEq, Repr

/-- A value that an operation hands to its issuer, by what it is (00_scope.md R22): FULL, ACQ_STATUS, a
16-bit element, a key entry, a log-magnitude, an error sum, a match result, a proximity answer. -/
inductive Result where
  | full (v : BitVec 1)
  | status (v : BitVec 2)
  | element (v : BitVec 16)
  | keyEntry (v : BitVec 8)
  | logMag (v : BitVec 8)
  | error (v : BitVec 32)
  | isMatch (v : BitVec 1)
  | nearby (v : BitVec 1)
  deriving DecidableEq, Repr

/-- The position of a transform in its loop (R43): pass, stride, cluster offset, cluster number, element. -/
structure Progress where
  p : Nat
  stride : Nat
  j : Nat
  c : Nat
  k : Nat
  deriving DecidableEq, Repr

/-- The matcher's working registers (R44): the 32-bit error accumulator and the index. -/
structure MatchRegs where
  err : BitVec 32
  i : Nat
  deriving DecidableEq, Repr

/-- Where a tick stands between two of its sub-steps (43_control.md R236). `idle`: no tick in flight. -/
inductive TickPhase where
  | idle
  /-- Analyze: the next sub-step is the butterfly at this position. -/
  | analyzeFft (g : Progress)
  /-- Analyze: the next sub-step is MATCH.ISMATCH. -/
  | analyzeMatch
  /-- Analyze: the next sub-step is the STATE write, from the match result. -/
  | analyzeWrite (r : MatchRegs) (m : BitVec 1)
  /-- Open: ACT.OPEN is emitted, the poll is next. -/
  | openPoll
  /-- Reset: ACT.CLOSE is emitted, ACQ.RESET is next. -/
  | resetAcq
  /-- Reset, FREE_RUNNING mode: ACQ.START is next. -/
  | resetStart
  /-- Reset: the STATE write is next. -/
  | resetWrite
  deriving DecidableEq, Repr

/-- The agents that may take the next step (60_exceptions.md R295). -/
inductive Source where
  | loop
  | sampler
  | trigger
  | harness
  deriving DecidableEq, Repr

/-- An event of the environment: an operation word that an agent issues, or the loop's next sub-step of a
tick (R295; 43_control.md R236). -/
inductive Event where
  | word (src : Source) (w : OpWord)
  | substep
  deriving DecidableEq, Repr

/-- BUF as bytes at addresses: element i has `re` at 2i and `im` at 2i+1 (20_memory.md R71). Canonical form:
addresses strictly rising. An unlisted address holds no value (R80). DESIGN CHOICE (log 9), safe. -/
abbrev Memory := List Host.Cell

/-- The state of the block: the record of R30, with the instance it belongs to, and below them the fields of
the model's own (log 3, 6, 7). -/
structure State where
  /-- The instance's parameters (R49): no step changes them. -/
  cfg : Config
  /-- STATE (R33) -/
  fsm : FsmState
  /-- FULL (R34) -/
  full : Bool
  /-- COLLECTING (R35) -/
  collecting : Bool
  /-- ARMED (R36) -/
  armed : Bool
  /-- CURSOR (R37) -/
  cursor : BitVec 11
  /-- BUF (R41) -/
  buf : Memory
  /-- The transform progress and the tick's position (R43; 43_control.md R236) -/
  phase : TickPhase
  /-- FAULT (R46) -/
  fault : Option FaultCode
  /-- OUT (R47), in the order of issue -/
  out : List OutEvent
  /-- The value the last operation returned (00_scope.md R22) -/
  result : Option Result
  /-- The environment's events not yet delivered, the next one first -/
  inbox : List Event
  /-- Proximity answers the environment has fixed, the next one first -/
  answers : List (BitVec 1)
  /-- How many free proximity answers have been drawn -/
  draws : Nat
  deriving DecidableEq, Repr

/-- Why the machine stops. Neither happens in a state that meets the invariant of Safety.lean. -/
inductive Fault where
  /-- A read of a BUF element that nothing has written (20_memory.md R80: "A model gives each element no
  value, and a read of it would fault"). Raised by the element read of ACQ.READ and of the FFT and MATCH
  operations. Safe. -/
  | bufUnwritten (i : Nat)
  /-- An access to a BUF element that does not exist, i ≥ N (R70): raised by ACQ.SAMPLE where FULL = 0 and
  CURSOR ≥ N, and by an element access of a tick position that no tick reaches. Safe (log 10). -/
  | bufOutside (i : Nat)
  deriving DecidableEq, Repr

/-- Why a step gives an event no meaning. -/
inductive Refusal where
  /-- An operation whose meaning is not written: raised by `exec`'s arm alone. Safe. -/
  | notModelled (mnemonic : String)
  /-- A word that spells no operation (30_encoding.md R104): raised by the delivery of a word. Safe. -/
  | invalidWord (w : OpWord)
  /-- An agent issues an operation that is not its own (60_exceptions.md R295): raised by the delivery of a
  word. Safe. -/
  | notItsOperation (src : Source) (w : OpWord)
  /-- The sampler delivers a sample while ARMED = 0 and FULL = 0 (R285; 44_external.md R269): raised by the
  delivery of a word. Safe. -/
  | sampleNotAdmitted
  /-- The trigger source delivers an edge in FREE_RUNNING mode, where the input is absent (R285): raised by
  the delivery of a word. Safe. -/
  | triggerNotAdmitted
  /-- The loop or the harness issues an operation while a tick is in flight (44_external.md R269: "no
  operation is interrupted except at the points of 43_control.md rule R236"): raised by the delivery of a
  word. Safe. -/
  | tickInFlight (src : Source)
  deriving DecidableEq, Repr

/-- Right after SYS.RESET at the start of a run, for an instance of the block (R320, R321). -/
def State.resetOf (c : Config) : State where
  cfg := c
  fsm := .stateInit
  full := false
  collecting := decide (c.acqMode = .freeRunning)
  armed := decide (c.acqMode = .freeRunning)
  cursor := 0
  buf := []
  phase := .idle
  fault := none
  out := []
  result := none
  inbox := []
  answers := []
  draws := 0

/-- The machine right after reset, for the instance `Config.programP3` (log 2). -/
def State.reset : State := State.resetOf Config.programP3

end Sys2Proof.Machine
end

