-- ==== Sys2Proof/Machine/Flags.lean ====
section
/-! DEFINITION. The flags as values: the derived acquisition status (10_state.md R38), the observation
registers S0 to S3 (R39, R40), the output smp_arm (44_external.md R264), the codes of STATE and of FAULT
(R33; 60_exceptions.md R282), and the two flag conditions operations fault on (R284). -/

namespace Sys2Proof.Machine

/-- A flag as one bit. -/
def flagBit (b : Bool) : BitVec 1 := BitVec.ofBool b

/-- ACQ_STATUS: Full 2, else Collecting 1, else Idle 0 (R38). -/
def State.acqStatus (s : State) : BitVec 2 :=
  if s.full then 2 else if s.collecting then 1 else 0

/-- The 2-bit code of STATE (R33). -/
def FsmState.code : FsmState → BitVec 2
  | .stateInit => 0
  | .stateAnalyze => 1
  | .stateOpen => 2
  | .stateReset => 3

/-- The value of a fault code (R282). -/
def FaultCode.code : FaultCode → Nat
  | .startCollecting => 1
  | .resetArmed => 2
  | .notFull => 3
  | .index => 4

/-- S0, STATE (R39). -/
def State.s0 (s : State) : BitVec 2 := s.fsm.code

/-- S1, ACQ_FLAGS: bit 0 FULL, bit 1 COLLECTING, bit 2 ARMED, bits 7 to 3 read 0 (R39, R40). -/
def State.s1 (s : State) : BitVec 8 :=
  (0 : BitVec 5) ++ flagBit s.armed ++ flagBit s.collecting ++ flagBit s.full

/-- S2, CURSOR (R39). -/
def State.s2 (s : State) : BitVec 11 := s.cursor

/-- S3, ACQ_STATUS, read-only and not stored (R39). -/
def State.s3 (s : State) : BitVec 2 := s.acqStatus

/-- The output level smp_arm (44_external.md R264). -/
def State.smpArm (s : State) : BitVec 1 := flagBit s.armed

/-- The fault condition of ACQ.START: status Collecting (40_acquisition.md R130). -/
def State.startHazard (s : State) : Bool := s.collecting && !s.full

/-- The fault condition of ACQ.RESET: a sample may still arrive (R131). -/
def State.resetHazard (s : State) : Bool := s.armed

end Sys2Proof.Machine
end

