-- ==== Sys2Proof/Machine/Operands.lean ====
section
/-! DEFINITION. The operand forms at execution: how each field is read (30_encoding.md R102) and its range
for the instance's N (R105). -/

namespace Sys2Proof.Machine

/-- V8 as the element ACQ.SAMPLE stores: real part s8(V8), the raw bits unchanged, imaginary part 0
(R102; 40_acquisition.md R132). -/
def sampleElem (v8 : BitVec 8) : Cplx := ⟨v8, 0⟩

/-- IDX or K as an element index: zero-extended (R102). -/
def elemIndex (idx : BitVec 16) : Nat := idx.toNat

/-- P4 as a pass number: zero-extended (R102). -/
def passNumber (p4 : BitVec 4) : Nat := p4.toNat

/-- An element index is in range: i < N (R105). -/
def indexOk (c : Config) (i : Nat) : Bool := decide (i < c.n)

/-- A pass number is in range: p < L (R105). -/
def passOk (c : Config) (p : Nat) : Bool := decide (p < c.log2N)

/-- A butterfly is in range: p < L, k < N, and k is the upper element of a butterfly of pass p (R105). -/
def bflyOk (c : Config) (p k : Nat) : Bool :=
  decide (p < c.log2N) && decide (k < c.n) && decide (k % (2 * c.stride p) < c.stride p)

/-- The cluster number of upper element k in pass p: K div (2·s) (41_transform.md R166). -/
def clusterOf (c : Config) (p k : Nat) : Nat := k / (2 * c.stride p)

end Sys2Proof.Machine
end

