-- ==== Sys2Proof/Machine/Ops.lean ====
section
/-! DEFINITION. The named operations over memory and state: bytes and elements of BUF (20_memory.md R70 to
R76), raising a model fault (60_exceptions.md R283), output events and proximity draws (44_external.md R261
to R263), and how an operation ends. -/

namespace Sys2Proof.Machine

/-- One byte of BUF, none where nothing has written (R80). -/
def Memory.read : Memory → Nat → Option Byte
  | [], _ => none
  | (b, v) :: m, a => if b = a then some v else Memory.read m a

/-- Store one byte, keeping the addresses rising. -/
def Memory.write : Memory → Nat → Byte → Memory
  | [], a, v => [(a, v)]
  | (b, w) :: m, a, v =>
    if a < b then (a, v) :: (b, w) :: m
    else if a = b then (a, v) :: m
    else (b, w) :: Memory.write m a v

/-- Every address listed is above `lo`, and they rise strictly. -/
def Memory.risingFrom : Nat → Memory → Bool
  | _, [] => true
  | lo, (b, _) :: m => decide (lo ≤ b) && Memory.risingFrom (b + 1) m

/-- The canonical form: addresses strictly rising. -/
def Memory.wf (m : Memory) : Bool := Memory.risingFrom 0 m

/-- Why an operation writes no block state: a model fault (R283), or a stop of the machine. -/
inductive Stop where
  | raise (c : FaultCode)
  | halt (f : Fault)
  deriving DecidableEq, Repr

/-- `BUF[i]`, both bytes of the element (20_memory.md R71). -/
def readElem (s : State) (i : Nat) : Except Stop Cplx :=
  if i < s.cfg.n then
    match s.buf.read (2 * i), s.buf.read (2 * i + 1) with
    | some re, some im => .ok ⟨re, im⟩
    | _, _ => .error (.halt (.bufUnwritten i))
  else .error (.halt (.bufOutside i))

/-- `BUF[i] <- z` (00_scope.md R20). -/
def writeElem (s : State) (i : Nat) (z : Cplx) : Except Stop State :=
  if i < s.cfg.n then
    .ok { s with buf := (s.buf.write (2 * i) z.re).write (2 * i + 1) z.im }
  else .error (.halt (.bufOutside i))

/-- `raise Fault(code)` (R283): FAULT keeps the first code; no block state is written, nothing is emitted
and no value is returned. The one operation by which a model fault is taken; nothing returns from it. -/
def State.raise (s : State) (c : FaultCode) : State :=
  { s with fault := s.fault.or (some c), result := none }

/-- `emit(e)`: append an event to OUT (00_scope.md R22). -/
def State.emit (s : State) (e : OutEvent) : State := { s with out := s.out ++ [e] }

/-- `draw()`: the proximity sensor's answer to a poll (R261). The environment's fixed answers come first,
then free values; both are any answer at all (log 7). -/
def State.draw (s : State) : BitVec 1 × State :=
  match s.answers with
  | v :: rest => (v, { s with answers := rest })
  | [] => (Config.freeNearby s.draws, { s with draws := s.draws + 1 })

/-- PROX.POLL as performed inside a tick (R261): draw, emit, return the answer. -/
def State.poll (s : State) : BitVec 1 × State :=
  (s.draw.1, s.draw.2.emit (.proxPoll s.draw.1))

/-- `return v` (00_scope.md R22). -/
def State.returns (s : State) (r : Option Result) : State := { s with result := r }

/-- How an operation that returns no value ends: a model fault is recorded in the state the operation began
in, and the run goes on (R283; log 8). -/
def command (s : State) : Except Stop State → Host.Outcome State Fault Refusal
  | .ok t => .next (t.returns none)
  | .error (.raise c) => .next (s.raise c)
  | .error (.halt f) => .fault f

/-- How an operation that only returns a value ends: no block state is written (20_memory.md R74). -/
def query (s : State) : Except Stop Result → Host.Outcome State Fault Refusal
  | .ok r => .next (s.returns (some r))
  | .error (.raise c) => .next (s.raise c)
  | .error (.halt f) => .fault f

end Sys2Proof.Machine
end

