-- ==== Sys2Proof/Machine/Acq.lean ====
section
/-! DEFINITION. The operations of the acquisition controller (40_acquisition.md R130 to R136). `op…` is an
operation as other operations perform it, `exec…` its meaning when it is issued. -/

namespace Sys2Proof.Machine

/-- ACQ.START, its writes (R130). BUF keeps its contents. -/
def opAcqStart (s : State) : Except Stop State :=
  if s.startHazard then .error (.raise .startCollecting)
  else .ok { s with cursor := 0, full := false, collecting := true, armed := true }

/-- ACQ.RESET, its writes (R131). ARMED and BUF are not changed. -/
def opAcqReset (s : State) : Except Stop State :=
  if s.resetHazard then .error (.raise .resetArmed)
  else .ok { s with cursor := 0, full := false, collecting := false }

/-- The last statements of the sample handler: at the N-th sample disarm, then set FULL (R132, 20_memory.md
R82). -/
def finishSample (s : State) : State :=
  if s.cursor.toNat = s.cfg.n then { s with armed := false, full := true } else s

/-- ACQ.SAMPLE, its writes (R132): a late sample is discarded. -/
def opAcqSample (v8 : BitVec 8) (s : State) : Except Stop State :=
  if s.full then .ok s
  else do
    let t ← writeElem s s.cursor.toNat (sampleElem v8)
    .ok (finishSample { t with cursor := t.cursor + 1 })

/-- ACQ.TRIGGER, its writes (R133): nothing in FREE_RUNNING mode or while COLLECTING. -/
def opAcqTrigger (s : State) : Except Stop State :=
  match s.cfg.acqMode with
  | .freeRunning => .ok s
  | .triggered => if s.collecting then .ok s else opAcqStart s

/-- ACQ.START (R130) -/
def execAcqStart (s : State) : Host.Outcome State Fault Refusal := command s (opAcqStart s)

/-- ACQ.RESET (R131) -/
def execAcqReset (s : State) : Host.Outcome State Fault Refusal := command s (opAcqReset s)

/-- ACQ.SAMPLE (R132) -/
def execAcqSample (v8 : BitVec 8) (s : State) : Host.Outcome State Fault Refusal :=
  command s (opAcqSample v8 s)

/-- ACQ.TRIGGER (R133) -/
def execAcqTrigger (s : State) : Host.Outcome State Fault Refusal := command s (opAcqTrigger s)

/-- ACQ.ISFULL (R134) -/
def execAcqIsfull (s : State) : Host.Outcome State Fault Refusal :=
  query s (.ok (.full (flagBit s.full)))

/-- ACQ.STATUS (R135) -/
def execAcqStatus (s : State) : Host.Outcome State Fault Refusal :=
  query s (.ok (.status s.acqStatus))

/-- The element read of ACQ.READ and MATCH.LOGMAG: F_INDEX is tested first, then F_NOT_FULL (R136;
60_exceptions.md R284). -/
def readFull (idx : BitVec 16) (s : State) : Except Stop Cplx :=
  if !indexOk s.cfg (elemIndex idx) then .error (.raise .index)
  else if !s.full then .error (.raise .notFull)
  else readElem s (elemIndex idx)

/-- ACQ.READ (R136) -/
def execAcqRead (idx : BitVec 16) (s : State) : Host.Outcome State Fault Refusal :=
  query s ((readFull idx s).map (fun z => .element z.elem))

end Sys2Proof.Machine
end

