-- ==== Sys2Proof/Machine/Arith.lean ====
section
/-! DEFINITION. The arithmetic of the block: exact integers, narrowed at the end (00_scope.md R17, R18), the
complex addition and multiplication of the butterfly (41_transform.md R164, R165), and the normaliser's
magnitude and logarithm (42_matcher.md R200, R201). -/

namespace Sys2Proof.Machine

/-- `wrap8(v)`: the 8-bit two's-complement value congruent to v modulo 256 (R17). -/
def wrap8 (v : Int) : Byte := BitVec.ofInt 8 v

/-- `asr(v, n)` = floor(v / 2^n) (R18): the quotient by a positive divisor rounds toward −∞. -/
def asr (v : Int) (n : Nat) : Int := v / 2 ^ n

/-- `bitrev_m(x)`: the m low bits of x read back to front (R18). -/
def bitrev : Nat → Nat → Nat
  | 0, _ => 0
  | m + 1, x => x % 2 * 2 ^ m + bitrev m (x / 2)

/-- `CADD(a, t)`: component-wise sum, wrapped to 8 bits (R164). -/
def cadd (a t : Cplx) : Cplx :=
  ⟨wrap8 (a.re.toInt + t.re.toInt), wrap8 (a.im.toInt + t.im.toInt)⟩

/-- `pr` of R165: the real part of the product, exact. -/
def productRe (b w : Cplx) : Int := b.re.toInt * w.re.toInt - b.im.toInt * w.im.toInt

/-- `pi` of R165: the imaginary part of the product, exact. -/
def productIm (b w : Cplx) : Int := b.re.toInt * w.im.toInt + b.im.toInt * w.re.toInt

/-- `CMUL(b, w)`: the exact product, shifted right by 7 with floor, wrapped to 8 bits (R165). -/
def cmul (b w : Cplx) : Cplx :=
  ⟨wrap8 (asr (productRe b w) 7), wrap8 (asr (productIm b w) 7)⟩

/-- `MAG2(z)` = re² + im², 16-bit unsigned (R200). -/
def mag2 (z : Cplx) : BitVec 16 :=
  BitVec.ofInt 16 (z.re.toInt * z.re.toInt + z.im.toInt * z.im.toInt)

/-- `ILOG10(m)` by comparison with the boundaries of R201; the sentinel 0 for m = 0. -/
def ilog10 (m : BitVec 16) : BitVec 8 :=
  if m.toNat < 10 then 0
  else if m.toNat < 100 then 1
  else if m.toNat < 1000 then 2
  else if m.toNat < 10000 then 3
  else 4

/-- The distance |LG − KEY| of R204, exact. -/
def absDiff (x y : BitVec 8) : Nat := ((x.toNat : Int) - (y.toNat : Int)).natAbs

end Sys2Proof.Machine
end

