-- ==== Sys2Proof/Machine/Rotation.lean ====
section
/-! DEFINITION. The contents of the rotation ROM TW (41_transform.md R161, R162) and of the key ROM (00_scope.md
R13; 42_matcher.md R203). Every N ≤ 1024 divides 1024, so all tables are read from one quarter wave of 1024
steps a turn. -/

namespace Sys2Proof.Machine

/-- `rha(127·cos(2πk/1024))` for k = 0, …, 256 (R162). DEDUCED (log 17): the values
were computed from the formula outside Lean, unsafe if one is wrong. -/
def quarterCosine : List Nat :=
  [127, 127, 127, 127, 127, 127, 127, 127, 127, 127, 127, 127, 127, 127, 127, 126,
   126, 126, 126, 126, 126, 126, 126, 126, 126, 126, 125, 125, 125, 125, 125, 125] ++
  [125, 124, 124, 124, 124, 124, 124, 123, 123, 123, 123, 123, 122, 122, 122, 122,
   122, 121, 121, 121, 121, 120, 120, 120, 120, 119, 119, 119, 118, 118, 118, 118] ++
  [117, 117, 117, 116, 116, 116, 115, 115, 115, 114, 114, 114, 113, 113, 113, 112,
   112, 112, 111, 111, 111, 110, 110, 109, 109, 109, 108, 108, 107, 107, 106, 106] ++
  [106, 105, 105, 104, 104, 103, 103, 102, 102, 102, 101, 101, 100, 100, 99, 99,
   98, 98, 97, 97, 96, 96, 95, 95, 94, 94, 93, 93, 92, 91, 91, 90] ++
  [90, 89, 89, 88, 88, 87, 86, 86, 85, 85, 84, 84, 83, 82, 82, 81,
   81, 80, 79, 79, 78, 78, 77, 76, 76, 75, 74, 74, 73, 72, 72, 71] ++
  [71, 70, 69, 69, 68, 67, 67, 66, 65, 65, 64, 63, 63, 62, 61, 61,
   60, 59, 58, 58, 57, 56, 56, 55, 54, 54, 53, 52, 51, 51, 50, 49] ++
  [49, 48, 47, 46, 46, 45, 44, 44, 43, 42, 41, 41, 40, 39, 38, 38,
   37, 36, 35, 35, 34, 33, 32, 32, 31, 30, 29, 29, 28, 27, 26, 26] ++
  [25, 24, 23, 22, 22, 21, 20, 19, 19, 18, 17, 16, 16, 15, 14, 13,
   12, 12, 11, 10, 9, 9, 8, 7, 6, 5, 5, 4, 3, 2, 2, 1] ++
  [0]

/-- `rha(127·cos(2πk/1024))` for 0 ≤ k ≤ 512: the second quarter is the first, mirrored and negated. -/
def cos127 (k : Nat) : Int :=
  if k ≤ 256 then (quarterCosine.getD k 0 : Int) else -(quarterCosine.getD (512 - k) 0 : Int)

/-- `rha(127·sin(2πk/1024))` for 0 ≤ k ≤ 512: the cosine a quarter turn back. -/
def sin127 (k : Nat) : Int :=
  if k ≤ 256 then (quarterCosine.getD (256 - k) 0 : Int) else (quarterCosine.getD (k - 256) 0 : Int)

/-- The exponent e(i) of entry i (R161): bit-reversed over L − 1 bits, the second half N/2 above the first. -/
def exponent (c : Config) (i : Nat) : Nat :=
  if i < c.half then bitrev (c.log2N - 1) i else bitrev (c.log2N - 1) (i - c.half) + c.half

/-- The angle of entry i < N/2 in steps of 1/1024 turn. -/
def angleSteps (c : Config) (i : Nat) : Nat := exponent c i * (1024 / c.n)

/-- An entry of the first half: rha(127·cos), rha(−127·sin) (R162). -/
def twFirst (c : Config) (i : Nat) : Cplx :=
  ⟨wrap8 (cos127 (angleSteps c i)), wrap8 (-(sin127 (angleSteps c i)))⟩

/-- TW[i]: the second half is the exact negation of the first (R162, R163). -/
def tw (c : Config) (i : Nat) : Cplx :=
  if i < c.half then twFirst c i
  else ⟨-(twFirst c (i - c.half)).re, -(twFirst c (i - c.half)).im⟩

/-- KEY[i] for i < N (R13). No operation reads beyond N (20_memory.md R72); there the function is 0. -/
def keyEntry (c : Config) (i : Nat) : Byte := (c.key[i]?).getD 0

end Sys2Proof.Machine
end

