-- ==== Sys2Proof/Machine/Fft.lean ====
section
/-! DEFINITION. The operations of the transform engine (41_transform.md R166 to R169), with the transform
written as the source's loop (R168) and its loop position as data (10_state.md R43). -/

namespace Sys2Proof.Machine

/-- The body of the innermost loop (R166, R168): both elements are read before either is written
(70_reset_and_hazards.md R330). -/
def butterfly (stride c k : Nat) (s : State) : Except Stop State := do
  let a ← readElem s k
  let b ← readElem s (k + stride)
  let t ← writeElem s k (cadd a (cmul b (tw s.cfg c)))
  writeElem t (k + stride) (cadd a (cmul b (tw s.cfg (c + s.cfg.half))))

/-- FFT.BFLY, its writes (R166): F_INDEX, then F_NOT_FULL, then the butterfly of the element's cluster. -/
def opFftBfly (p k : Nat) (s : State) : Except Stop State :=
  if !bflyOk s.cfg p k then .error (.raise .index)
  else if !s.full then .error (.raise .notFull)
  else butterfly (s.cfg.stride p) (clusterOf s.cfg p k) k s

/-- Perform an operation for each item of a list, in order. -/
def forEach {α : Type} (f : α → State → Except Stop State) : List α → State → Except Stop State
  | [], s => .ok s
  | a :: rest, s => do
    let t ← f a s
    forEach f rest t

/-- The upper elements of pass p in the order of the pass (R167): for each cluster offset j = 0, 2s, …,
N − 2s, the elements j, …, j + s − 1. -/
def passUppers (c : Config) (p : Nat) : List Nat :=
  (List.range (c.n / (2 * c.stride p))).flatMap (fun q =>
    (List.range (c.stride p)).map (fun t => q * (2 * c.stride p) + t))

/-- FFT.PASS, its writes (R167). -/
def opFftPass (p : Nat) (s : State) : Except Stop State :=
  if !passOk s.cfg p then .error (.raise .index)
  else if !s.full then .error (.raise .notFull)
  else forEach (fun k => opFftBfly p k) (passUppers s.cfg p) s

/-- The innermost loop of R168: `count` butterflies at k, k + 1, …, one stride and one rotation factor. -/
def transformCluster : Nat → Nat → Nat → Nat → State → Except Stop State
  | 0, _, _, _, s => .ok s
  | count + 1, stride, c, k, s => do
    let t ← butterfly stride c k s
    transformCluster count stride c (k + 1) t

/-- The middle loop of R168: `count` clusters from offset j and number c on, j stepping by 2·stride and c by 1. -/
def transformClusters : Nat → Nat → Nat → Nat → State → Except Stop State
  | 0, _, _, _, s => .ok s
  | count + 1, stride, c, j, s => do
    let t ← transformCluster stride stride c j s
    transformClusters count stride (c + 1) (j + 2 * stride) t

/-- The outer loop of R168: `count` passes, the stride halved after each. -/
def transformPasses : Nat → Nat → State → Except Stop State
  | 0, _, s => .ok s
  | count + 1, stride, s => do
    let t ← transformClusters (s.cfg.n / (2 * stride)) stride 0 0 s
    transformPasses count (stride / 2) t

/-- FFT.TRANSFORM, its writes (R168). -/
def opFftTransform (s : State) : Except Stop State :=
  if !s.full then .error (.raise .notFull)
  else transformPasses s.cfg.log2N s.cfg.half s

/-- The position of the first butterfly of a transform (10_state.md R43). -/
def Progress.first (c : Config) : Progress := ⟨0, c.half, 0, 0, 0⟩

/-- The position after a butterfly, none after the last one: the three loops of R168 in turn. -/
def Progress.next (c : Config) (g : Progress) : Option Progress :=
  if g.k + 1 < g.j + g.stride then some { g with k := g.k + 1 }
  else if g.j + 2 * g.stride < c.n then
    some { g with j := g.j + 2 * g.stride, c := g.c + 1, k := g.j + 2 * g.stride }
  else if g.p + 1 < c.log2N then some ⟨g.p + 1, g.stride / 2, 0, 0, 0⟩
  else none

/-- FFT.TRANSFORM (R168) -/
def execFftTransform (s : State) : Host.Outcome State Fault Refusal := command s (opFftTransform s)

/-- FFT.PASS (R167) -/
def execFftPass (p4 : BitVec 4) (s : State) : Host.Outcome State Fault Refusal :=
  command s (opFftPass (passNumber p4) s)

/-- FFT.BFLY (R166) -/
def execFftBfly (p4 : BitVec 4) (k : BitVec 16) (s : State) : Host.Outcome State Fault Refusal :=
  command s (opFftBfly (passNumber p4) (elemIndex k) s)

/-- TW.READ (R169): no FULL precondition. -/
def execTwRead (idx : BitVec 16) (s : State) : Host.Outcome State Fault Refusal :=
  query s (if indexOk s.cfg (elemIndex idx) then .ok (.element (tw s.cfg (elemIndex idx)).elem)
    else .error (.raise .index))

end Sys2Proof.Machine
end

