-- ==== Sys2Proof/Machine/Match.lean ====
section
/-! DEFINITION. The operations of the matcher (42_matcher.md R202 to R205). They read BUF and the key ROM and
keep no result as state (10_state.md R44). -/

namespace Sys2Proof.Machine

/-- LG of an element: ILOG10(MAG2(z)) (R202). -/
def logMag (z : Cplx) : BitVec 8 := ilog10 (mag2 z)

/-- The loop of R204 over the working registers of 10_state.md R44: `count` more indices from `r.i` on, the
accumulator 32 bits wide. -/
def matchLoop : Nat → MatchRegs → State → Except Stop MatchRegs
  | 0, r, _ => .ok r
  | count + 1, r, s => do
    let z ← readElem s r.i
    matchLoop count
      ⟨r.err + BitVec.ofNat 32 (absDiff (logMag z) (keyEntry s.cfg r.i)), r.i + 1⟩ s

/-- The working registers after MATCH.ERROR's loop (R204). -/
def opMatchError (s : State) : Except Stop MatchRegs :=
  if !s.full then .error (.raise .notFull) else matchLoop s.cfg.n ⟨0, 0⟩ s

/-- The comparison of R205: strictly less than THRESHOLD, unsigned. -/
def matchResult (c : Config) (err : BitVec 32) : BitVec 1 := flagBit (decide (err.toNat < c.threshold.toNat))

/-- MATCH.ISMATCH (R205) -/
def execMatchIsmatch (s : State) : Host.Outcome State Fault Refusal :=
  query s ((opMatchError s).map (fun r => .isMatch (matchResult s.cfg r.err)))

/-- MATCH.ERROR (R204) -/
def execMatchError (s : State) : Host.Outcome State Fault Refusal :=
  query s ((opMatchError s).map (fun r => .error r.err))

/-- KEY.READ (R203): no FULL precondition. -/
def execKeyRead (idx : BitVec 16) (s : State) : Host.Outcome State Fault Refusal :=
  query s (if indexOk s.cfg (elemIndex idx) then .ok (.keyEntry (keyEntry s.cfg (elemIndex idx)))
    else .error (.raise .index))

/-- MATCH.LOGMAG (R202) -/
def execMatchLogmag (idx : BitVec 16) (s : State) : Host.Outcome State Fault Refusal :=
  query s ((readFull idx s).map (fun z => .logMag (logMag z)))

end Sys2Proof.Machine
end

