-- ==== Sys2Proof/Machine/Fsm.lean ====
section
/-! DEFINITION. The control state machine: the tick of each state as one operation (43_control.md R231 to R234,
R239), and the same tick as its sub-steps, between which handlers may run (R236, R237). -/

namespace Sys2Proof.Machine

/-- The Init tick (R231): the sensor is polled only when FULL = 1. -/
def tickInit (s : State) : State :=
  if s.full then
    { s.poll.2 with fsm := if s.poll.1 = 1 then .stateAnalyze else .stateReset }
  else s

/-- STATE after an Analyze tick, from the match result (R232). -/
def afterMatch (m : BitVec 1) : FsmState := if m = 1 then .stateOpen else .stateReset

/-- The Analyze tick (R232): transform, then match. -/
def tickAnalyze (s : State) : Except Stop State :=
  if !s.full then .error (.raise .notFull)
  else do
    let t ← opFftTransform s
    let r ← opMatchError t
    .ok { t with fsm := afterMatch (matchResult t.cfg r.err) }

/-- The second sub-step of the Open tick: poll, and leave Open when the object is gone (R233). -/
def openPoll (s : State) : State :=
  { s.poll.2 with fsm := if s.poll.1 = 0 then .stateReset else s.fsm }

/-- The Open tick (R233): the open command comes before the poll. -/
def tickOpen (s : State) : State := openPoll (s.emit .actOpen)

/-- The Reset tick (R234): close, reset the buffer state, and in FREE_RUNNING mode start again. -/
def tickReset (s : State) : Except Stop State :=
  if s.resetHazard then .error (.raise .resetArmed)
  else do
    let t ← opAcqReset (s.emit .actClose)
    let u ← match t.cfg.acqMode with
      | .freeRunning => opAcqStart t
      | .triggered => .ok t
    .ok { u with fsm := .stateInit }

/-- One iteration of the control loop (R239): the tick of STATE. -/
def opFsmTick (s : State) : Except Stop State :=
  match s.fsm with
  | .stateInit => .ok (tickInit s)
  | .stateAnalyze => tickAnalyze s
  | .stateOpen => .ok (tickOpen s)
  | .stateReset => tickReset s

/-- FSM.TICK (R239): the whole tick as one operation; a tick's position in flight is not its concern. -/
def execFsmTick (s : State) : Host.Outcome State Fault Refusal := command s (opFsmTick s)

/-- The first sub-step of the tick of STATE (R236). -/
def startTick (s : State) : Except Stop State :=
  match s.fsm with
  | .stateInit => .ok (tickInit s)
  | .stateAnalyze =>
    if !s.full then .error (.raise .notFull)
    else .ok { s with phase := .analyzeFft (Progress.first s.cfg) }
  | .stateOpen => .ok { s.emit .actOpen with phase := .openPoll }
  | .stateReset =>
    if s.resetHazard then .error (.raise .resetArmed)
    else .ok { s.emit .actClose with phase := .resetAcq }

/-- The next sub-step of a tick (R236). A butterfly sub-step is the operation FFT.BFLY(p, k) (R237); each
sub-step tests its own fault conditions before its own writes. -/
def opSubstep (s : State) : Except Stop State :=
  match s.phase with
  | .idle => startTick s
  | .analyzeFft g => do
    let t ← opFftBfly g.p g.k s
    .ok { t with phase := match g.next t.cfg with
      | some g' => .analyzeFft g'
      | none => .analyzeMatch }
  | .analyzeMatch => do
    let r ← opMatchError s
    .ok { s with phase := .analyzeWrite r (matchResult s.cfg r.err) }
  | .analyzeWrite _ m => .ok { s with fsm := afterMatch m, phase := .idle }
  | .openPoll => .ok { openPoll s with phase := .idle }
  | .resetAcq => do
    let t ← opAcqReset s
    .ok { t with phase := match t.cfg.acqMode with
      | .freeRunning => .resetStart
      | .triggered => .resetWrite }
  | .resetStart => do
    let t ← opAcqStart s
    .ok { t with phase := .resetWrite }
  | .resetWrite => .ok { s with fsm := .stateInit, phase := .idle }

/-- A sub-step, ended like an operation. One that faults ends its tick: STATE stays, and no tick is in flight.
DEDUCED (log 11), safe. -/
def execSubstep (s : State) : Host.Outcome State Fault Refusal :=
  match opSubstep s with
  | .ok t => .next (t.returns none)
  | .error (.raise c) => .next { s.raise c with phase := .idle }
  | .error (.halt f) => .fault f

/-- Sub-steps one after another until no tick is in flight, `count` at most. -/
def runSubsteps : Nat → State → Host.Outcome State Fault Refusal
  | 0, s => .next s
  | count + 1, s =>
    match execSubstep s with
    | .next t => if t.phase = .idle then .next t else runSubsteps count t
    | .fault f => .fault f
    | .refused r => .refused r

/-- A tick run as its sub-steps with no handler between them; the longest, an Analyze tick, has H·L + 3 of
them (R236). -/
def fineTick (s : State) : Host.Outcome State Fault Refusal :=
  runSubsteps (s.cfg.half * s.cfg.log2N + 3) s

end Sys2Proof.Machine
end

