-- ==== Sys2Proof/Machine/Sys.lean ====
section
/-! DEFINITION. SYS.RESET (70_reset_and_hazards.md R320) and the three output events (44_external.md R261 to
R263). -/

namespace Sys2Proof.Machine

/-- SYS.RESET (R320): the reset values; FAULT and OUT are not changed. Of the two treatments of BUF the rule
allows, every element is marked unwritten (log 9). No tick is in flight after it (R321). -/
def opSysReset (s : State) : State :=
  { s with
    fsm := .stateInit
    cursor := 0
    full := false
    collecting := decide (s.cfg.acqMode = .freeRunning)
    armed := decide (s.cfg.acqMode = .freeRunning)
    buf := []
    phase := .idle }

/-- SYS.RESET (R320) -/
def execSysReset (s : State) : Host.Outcome State Fault Refusal := command s (.ok (opSysReset s))

/-- PROX.POLL(v) as an event of the trace (R261): the block polled and the environment answered v; the event
is appended to OUT and the answer returned. DEDUCED (log 13), safe. -/
def execProxPoll (v1 : BitVec 1) (s : State) : Host.Outcome State Fault Refusal :=
  .next ((s.emit (.proxPoll v1)).returns (some (.nearby v1)))

/-- ACT.OPEN (R262) -/
def execActOpen (s : State) : Host.Outcome State Fault Refusal := command s (.ok (s.emit .actOpen))

/-- ACT.CLOSE (R263) -/
def execActClose (s : State) : Host.Outcome State Fault Refusal := command s (.ok (s.emit .actClose))

end Sys2Proof.Machine
end

