-- ==== Sys2Proof/Machine/Dispatch.lean ====
section
/-! DEFINITION. The one match from an operation to its meaning. -/

namespace Sys2Proof.Machine

def exec (i : Instr) (s : State) : Host.Outcome State Fault Refusal :=
  match i with
  | .acqStart => Sys2Proof.Machine.execAcqStart s
  | .acqReset => Sys2Proof.Machine.execAcqReset s
  | .acqSample v8 => Sys2Proof.Machine.execAcqSample v8 s
  | .acqTrigger => Sys2Proof.Machine.execAcqTrigger s
  | .acqIsfull => Sys2Proof.Machine.execAcqIsfull s
  | .acqStatus => Sys2Proof.Machine.execAcqStatus s
  | .acqRead idx => Sys2Proof.Machine.execAcqRead idx s
  | .fftTransform => Sys2Proof.Machine.execFftTransform s
  | .fftPass p4 => Sys2Proof.Machine.execFftPass p4 s
  | .fftBfly p4 k => Sys2Proof.Machine.execFftBfly p4 k s
  | .twRead idx => Sys2Proof.Machine.execTwRead idx s
  | .matchIsmatch => Sys2Proof.Machine.execMatchIsmatch s
  | .matchError => Sys2Proof.Machine.execMatchError s
  | .keyRead idx => Sys2Proof.Machine.execKeyRead idx s
  | .matchLogmag idx => Sys2Proof.Machine.execMatchLogmag idx s
  | .fsmTick => Sys2Proof.Machine.execFsmTick s
  | .sysReset => Sys2Proof.Machine.execSysReset s
  | .proxPoll v1 => Sys2Proof.Machine.execProxPoll v1 s
  | .actOpen => Sys2Proof.Machine.execActOpen s
  | .actClose => Sys2Proof.Machine.execActClose s

end Sys2Proof.Machine
end

