-- ==== Sys2Proof/WellFormed.lean ====
section
/-! DEFINITION. What is well formed: an operation in a context (30_encoding.md R104, R106: an output event
is no input, and an input operation is no trace word), and an assembler line (R107, R108: operand counts and
ranges). Operand fields of `Instr` have their exact widths, so every value of one is encodable. -/

namespace Sys2Proof

/-- The operation may stand in the context (R104, R106). -/
def Instr.wellFormed (ctx : Context) (i : Instr) : Bool := i.opcode.context == ctx

/-- An integer operand lies between two bounds, both included. -/
def inRange (lo hi v : Int) : Bool := decide (lo ≤ v) && decide (v ≤ hi)

/-- The operands a format's assembler line takes, with their ranges (R107). -/
def Format.argsOk : Format → List Int → Bool
  | .n, [] => true
  | .v, [val] => inRange (-128) 255 val
  | .i, [idx] => inRange 0 65535 idx
  | .p, [pass] => inRange 0 15 pass
  | .b, [pass, k] => inRange 0 15 pass && inRange 0 65535 k
  | .o, [bit] => inRange 0 1 bit
  | _, _ => false

/-- A line outside this check is an assembly error (R107), or no pseudo-operation of R108: `acq.fill` takes
one sample or more, and `fsm.ticks n` needs n of 1 or more. -/
def AsmLine.wellFormed : AsmLine → Bool
  | .op o args => o.format.argsOk args
  | .acqFill vs => !vs.isEmpty && vs.all (inRange (-128) 255)
  | .fsmTicks n => decide (1 ≤ n)

end Sys2Proof
end

