-- ==== Sys2Proof/Decode.lean ====
section
/-! DEFINITION. The decoder, total on any 32-bit word and rejecting by name (30_encoding.md R104, R106), the
encoder written from the same tables (R100 to R103), the host's entry `decodeTableWord`, and the assembler
(R107, R108). -/

namespace Sys2Proof

/-- OPC, bits [31:24] of the word (R100, R103). -/
def Opcode.code : Opcode → BitVec 8
  | .acqStart => 0x01
  | .acqReset => 0x02
  | .acqSample => 0x03
  | .acqTrigger => 0x04
  | .acqIsfull => 0x05
  | .acqStatus => 0x06
  | .acqRead => 0x07
  | .fftTransform => 0x10
  | .fftPass => 0x11
  | .fftBfly => 0x12
  | .twRead => 0x13
  | .matchIsmatch => 0x20
  | .matchError => 0x21
  | .keyRead => 0x22
  | .matchLogmag => 0x23
  | .fsmTick => 0x30
  | .sysReset => 0x31
  | .proxPoll => 0x40
  | .actOpen => 0x41
  | .actClose => 0x42

/-- All rows of the opcode map, in its order (R103). -/
def opcodeMap : List Opcode :=
  [.acqStart, .acqReset, .acqSample, .acqTrigger, .acqIsfull, .acqStatus, .acqRead,
    .fftTransform, .fftPass, .fftBfly, .twRead, .matchIsmatch, .matchError, .keyRead, .matchLogmag,
    .fsmTick, .sysReset, .proxPoll, .actOpen, .actClose]

/-- `lookup(opc)`: the row with this code, none if the code is unassigned (R104, R106). -/
def lookupOpcode (opc : BitVec 8) : Option Opcode := opcodeMap.find? (fun o => o.code == opc)

/-- `mask_free`: the operand bits of a format (R106). -/
def Format.maskFree : Format → OpWord
  | .n => 0x00000000
  | .v => 0x000000FF
  | .i => 0x0000FFFF
  | .p => 0x00F00000
  | .b => 0x00F0FFFF
  | .o => 0x00000001

/-- The `match` column of the table: `opc << 24` (R106). -/
def Opcode.matchWord (o : Opcode) : OpWord := o.code ++ (0 : BitVec 24)

/-- The operation of a row, its operands extracted from the word (R102). -/
def Opcode.operation (o : Opcode) (w : OpWord) : Instr :=
  match o with
  | .acqStart => .acqStart
  | .acqReset => .acqReset
  | .acqSample => .acqSample (w.extractLsb' 0 8)
  | .acqTrigger => .acqTrigger
  | .acqIsfull => .acqIsfull
  | .acqStatus => .acqStatus
  | .acqRead => .acqRead (w.extractLsb' 0 16)
  | .fftTransform => .fftTransform
  | .fftPass => .fftPass (w.extractLsb' 20 4)
  | .fftBfly => .fftBfly (w.extractLsb' 20 4) (w.extractLsb' 0 16)
  | .twRead => .twRead (w.extractLsb' 0 16)
  | .matchIsmatch => .matchIsmatch
  | .matchError => .matchError
  | .keyRead => .keyRead (w.extractLsb' 0 16)
  | .matchLogmag => .matchLogmag (w.extractLsb' 0 16)
  | .fsmTick => .fsmTick
  | .sysReset => .sysReset
  | .proxPoll => .proxPoll (w.extractLsb' 0 1)
  | .actOpen => .actOpen
  | .actClose => .actClose

/-- Why a word spells no operation (R104). -/
inductive DecodeError where
  /-- OPC is in no row of the opcode map. -/
  | unassignedOpcode (opc : BitVec 8)
  /-- An output event given as input, or an input operation in a trace. -/
  | wrongContext (o : Opcode)
  /-- A bit that the row's format marks `0` is 1. -/
  | reservedBits (o : Opcode)
  deriving DecidableEq, Repr

/-- The decoder (R106), its tests in the order of the rule. -/
def decode (ctx : Context) (w : OpWord) : Except DecodeError Instr :=
  match lookupOpcode (w.extractLsb' 24 8) with
  | none => .error (.unassignedOpcode (w.extractLsb' 24 8))
  | some o =>
    if o.context ≠ ctx then .error (.wrongContext o)
    else if w &&& ~~~ o.format.maskFree ≠ o.matchWord then .error (.reservedBits o)
    else .ok (o.operation w)

/-- The operand bits of an operation in its word (R101, R102). -/
def Instr.operandBits : Instr → OpWord
  | .acqSample v8 => v8.zeroExtend 32
  | .acqRead idx | .twRead idx | .keyRead idx | .matchLogmag idx => idx.zeroExtend 32
  | .fftPass p4 => p4.zeroExtend 32 <<< 20
  | .fftBfly p4 k => (p4.zeroExtend 32 <<< 20) ||| k.zeroExtend 32
  | .proxPoll v1 => v1.zeroExtend 32
  | .acqStart | .acqReset | .acqTrigger | .acqIsfull | .acqStatus | .fftTransform | .matchIsmatch
  | .matchError | .fsmTick | .sysReset | .actOpen | .actClose => 0

/-- The encoder: OPC in bits [31:24], the operands in the layout of the format, every other bit 0 (R100,
R101). -/
def encode (i : Instr) : OpWord := i.opcode.matchWord ||| i.operandBits

/-- The operation my decoder reads from a word of the opcode table. The table lists words of both contexts,
so an input word is read as INPUT, and a word that is refused there as TRACE (R106). A word is one unit of
32 bits; the block has no byte order for it (20_memory.md R71). -/
def decodeTableWord (nbits w : Nat) : Option Instr :=
  let word := BitVec.ofNat 32 (w % 2 ^ nbits)
  match decode .input word with
  | .ok i => some i
  | .error _ => (decode .trace word).toOption

/-- The operand bits that integer operands spell in a format: V8 = v mod 256, the rest as they are (R107). -/
def Format.operandWord : Format → List Int → OpWord
  | .v, [val] => (BitVec.ofInt 8 val).zeroExtend 32
  | .i, [idx] => (BitVec.ofInt 16 idx).zeroExtend 32
  | .p, [pass] => (BitVec.ofInt 4 pass).zeroExtend 32 <<< 20
  | .b, [pass, k] => ((BitVec.ofInt 4 pass).zeroExtend 32 <<< 20) ||| (BitVec.ofInt 16 k).zeroExtend 32
  | .o, [bit] => (BitVec.ofInt 1 bit).zeroExtend 32
  | _, _ => 0

/-- The operations a line stands for, none for an assembly error. A pseudo-operation expands to real
operations before encoding (R107, R108). -/
def AsmLine.assemble (l : AsmLine) : Option (List Instr) :=
  if l.wellFormed then
    match l with
    | .op o args => some [o.operation (o.format.operandWord args)]
    | .acqFill vs => some (vs.map (fun v => .acqSample (BitVec.ofInt 8 v)))
    | .fsmTicks n => some (List.replicate n.toNat .fsmTick)
  else none

/-- The lower-case name of a row in the assembler (R107). -/
def Opcode.asmName : Opcode → String
  | .acqStart => "acq.start"
  | .acqReset => "acq.reset"
  | .acqSample => "acq.sample"
  | .acqTrigger => "acq.trigger"
  | .acqIsfull => "acq.isfull"
  | .acqStatus => "acq.status"
  | .acqRead => "acq.read"
  | .fftTransform => "fft.transform"
  | .fftPass => "fft.pass"
  | .fftBfly => "fft.bfly"
  | .twRead => "tw.read"
  | .matchIsmatch => "match.ismatch"
  | .matchError => "match.error"
  | .keyRead => "key.read"
  | .matchLogmag => "match.logmag"
  | .fsmTick => "fsm.tick"
  | .sysReset => "sys.reset"
  | .proxPoll => "prox.poll"
  | .actOpen => "act.open"
  | .actClose => "act.close"

/-- The text before a comment: a comment starts with `;` and runs to the end of the line (R107). -/
def stripComment (line : List Char) : List Char := line.takeWhile (fun c => c ≠ ';')

/-- The text without the blanks around it. -/
def trimBlanks (cs : List Char) : List Char :=
  ((cs.dropWhile (fun c => c == ' ')).reverse.dropWhile (fun c => c == ' ')).reverse

/-- The pieces of a text between commas (R107: operands are separated by commas). -/
def splitCommas : List Char → List (List Char)
  | [] => [[]]
  | c :: cs =>
    match splitCommas cs with
    | [] => [[c]]
    | piece :: rest => if c == ',' then [] :: piece :: rest else (c :: piece) :: rest

/-- A digit's value in base ten. -/
def digitValue (c : Char) : Option Nat :=
  if '0'.toNat ≤ c.toNat ∧ c.toNat ≤ '9'.toNat then some (c.toNat - '0'.toNat) else none

/-- The number that decimal digits spell after the value read so far. -/
def digitsFrom (acc : Nat) : List Char → Option Nat
  | [] => some acc
  | c :: cs =>
    match digitValue c with
    | none => none
    | some d => digitsFrom (10 * acc + d) cs

/-- An integer operand: decimal digits, with `-` before a negative one. PRESUMED (log 14), safe: the spec's
listings write operands so and state no numeral form. -/
def parseInt : List Char → Option Int
  | [] => none
  | '-' :: [] => none
  | '-' :: cs => (digitsFrom 0 cs).map (fun v => -(Int.ofNat v))
  | cs => (digitsFrom 0 cs).map Int.ofNat

/-- The integers of a list of operand texts, none if one of them is no integer. -/
def parseInts : List (List Char) → Option (List Int)
  | [] => some []
  | p :: ps =>
    match parseInt (trimBlanks p), parseInts ps with
    | some v, some vs => some (v :: vs)
    | _, _ => none

/-- The operands after a mnemonic: none at all, or integers separated by commas (R107). -/
def parseOperands (cs : List Char) : Option (List Int) :=
  if trimBlanks cs = [] then some [] else parseInts (splitCommas cs)

/-- A line of assembler text (R107, R108): mnemonic, then operands; a blank or comment line gives no
line at all, an unknown mnemonic or a bad operand an error (the outer none). -/
def parseLine (line : List Char) : Option (Option AsmLine) :=
  let text := trimBlanks (stripComment line)
  if text = [] then some none
  else
    let name := text.takeWhile (fun c => c ≠ ' ')
    match parseOperands (text.drop name.length) with
    | none => none
    | some args =>
      if name = "acq.fill".toList then some (some (.acqFill args))
      else if name = "fsm.ticks".toList then
        match args with
        | [n] => some (some (.fsmTicks n))
        | _ => none
      else
        match opcodeMap.find? (fun o => decide (o.asmName.toList = name)) with
        | none => none
        | some o => some (some (.op o args))

/-- The proximity answer that a listing's comment `nearby=b` gives (R107): the environment's, no operand. -/
def nearbyComment (line : List Char) : Option (BitVec 1) :=
  let comment := trimBlanks ((line.dropWhile (fun c => c ≠ ';')).drop 1)
  if comment = "nearby=0".toList then some 0
  else if comment = "nearby=1".toList then some 1
  else none

/-- The words of a line of assembler text, none for an assembly error. -/
def assembleText (line : List Char) : Option (List OpWord) :=
  match parseLine line with
  | none => none
  | some none => some []
  | some (some l) => l.assemble.map (fun is => is.map encode)

end Sys2Proof
end

