-- ==== Sys2Proof/Machine/Env.lean ====
section
/-! DEFINITION. The boundary of the block: its input ports as events and its output events as trace words
(44_external.md R260 to R263), who may issue what and when (60_exceptions.md R285, R295; 44_external.md R269),
and the next event (log 3, 4). -/

namespace Sys2Proof.Machine

/-- The input ports of R260 that carry an event. -/
inductive Port where
  | rst
  | loop
  | smpIrq (data : BitVec 8)
  | trigIrq
  deriving DecidableEq, Repr

/-- The event a port delivers (R260). -/
def Port.event : Port → Event
  | .rst => .word .harness (encode .sysReset)
  | .loop => .word .loop (encode .fsmTick)
  | .smpIrq data => .word .sampler (encode (.acqSample data))
  | .trigIrq => .word .trigger (encode .acqTrigger)

/-- The operation an output event is (R103, R261 to R263). -/
def OutEvent.instr : OutEvent → Instr
  | .actOpen => .actOpen
  | .actClose => .actClose
  | .proxPoll v => .proxPoll v

/-- The trace word of an output event. -/
def OutEvent.traceWord (e : OutEvent) : OpWord := encode e.instr

/-- The duties of the environment at the delivery of an operation (R269): the reason a model refuses it, none
where it is admitted. The loop and the harness issue at operation boundaries; the sampler delivers samples
while ARMED = 1 or FULL = 1, the trigger source edges in TRIGGERED mode, both also between the sub-steps of a
tick (R285; 43_control.md R236). -/
def refusalOf (src : Source) (w : OpWord) (i : Instr) (s : State) : Option Refusal :=
  match src with
  | .harness => if s.phase = .idle then none else some (.tickInFlight .harness)
  | .loop =>
    if i ≠ .fsmTick then some (.notItsOperation .loop w)
    else if s.phase = .idle then none
    else some (.tickInFlight .loop)
  | .sampler =>
    match i with
    | .acqSample _ => if s.armed || s.full then none else some .sampleNotAdmitted
    | _ => some (.notItsOperation .sampler w)
  | .trigger =>
    match i with
    | .acqTrigger => if s.cfg.acqMode = .triggered then none else some .triggerNotAdmitted
    | _ => some (.notItsOperation .trigger w)

/-- What happens when the environment has no event left: the polling loop takes the next step, a whole tick
where none is in flight, the tick's next sub-step otherwise. DESIGN CHOICE (log 4), unsafe for a claim about a
state with an empty inbox. -/
def idleEvent (s : State) : Event :=
  if s.phase = .idle then .word .loop (encode .fsmTick) else .substep

/-- The next event. -/
def nextEvent (s : State) : Event :=
  match s.inbox with
  | [] => idleEvent s
  | e :: _ => e

/-- The state without the event that is being delivered. -/
def State.popped (s : State) : State := { s with inbox := s.inbox.tail }

/-- The state with one more event at the front of the inbox. -/
def State.pushed (s : State) (e : Event) : State := { s with inbox := e :: s.inbox }

end Sys2Proof.Machine
end

