-- ==== Sys2Proof/Machine/Deliver.lean ====
section
/-! DEFINITION. Delivering an event: decode a word in INPUT context, refuse an invalid word or a breach of a
duty by name, otherwise run the operation (30_encoding.md R104, R106; 44_external.md R269). -/

namespace Sys2Proof.Machine

/-- Deliver a word that an agent issues. -/
def deliverWord (src : Source) (w : OpWord) (s : State) : Host.Outcome State Fault Refusal :=
  match decode .input w with
  | .error _ => .refused (.invalidWord w)
  | .ok i =>
    match refusalOf src w i s with
    | some r => .refused r
    | none => exec i s

/-- Deliver an event. -/
def deliver (e : Event) (s : State) : Host.Outcome State Fault Refusal :=
  match e with
  | .word src w => deliverWord src w s
  | .substep => execSubstep s

/-- The state with an operation word placed as the next event, issued by the harness at an operation boundary.
The boundary needs no tick in flight, so none is (log 5). -/
def placeWord (s : State) (w : OpWord) : State :=
  { s with phase := .idle, inbox := .word .harness w :: s.inbox }

end Sys2Proof.Machine
end

