-- ==== Sys2Proof/Machine/Step.lean ====
section
/-! DEFINITION. One step: take the next event and deliver it (60_exceptions.md R295; 20_memory.md R81). -/

namespace Sys2Proof.Machine

/-- One step of the block and its environment: one operation, or one sub-step of a tick. -/
def step (s : State) : Host.Outcome State Fault Refusal := deliver (nextEvent s) s.popped

/-- The state with an operation word of the table placed where `step` takes its next event. -/
def State.withFetchWord (s : State) (nbits w : Nat) : State :=
  placeWord s (BitVec.ofNat 32 (w % 2 ^ nbits))

end Sys2Proof.Machine
end

