-- ==== Sys2Proof/Machine/Observe.lean ====
section
/-! DEFINITION. What an observer reads from a state: the elements of BUF, and the observation at the end of a
run (70_reset_and_hazards.md R334). -/

namespace Sys2Proof.Machine

/-- The complex value of element i, none unless both its bytes hold a value (20_memory.md R71, R80). -/
def State.elem? (s : State) (i : Nat) : Option Cplx :=
  match s.buf.read (2 * i), s.buf.read (2 * i + 1) with
  | some re, some im => some ⟨re, im⟩
  | _, _ => none

/-- The value of element i where it holds one. -/
def State.elem (s : State) (i : Nat) : Cplx := (s.elem? i).getD Cplx.zero

/-- The observation at the end of a run (R334): BUF only when FULL = 1. It says nothing of the gate, the
sampler, the sensor or time. -/
structure Observation where
  fsm : FsmState
  full : Bool
  collecting : Bool
  armed : Bool
  cursor : BitVec 11
  buf : Option (List (Option Cplx))
  out : List OutEvent
  fault : Option FaultCode
  deriving DecidableEq, Repr

/-- The observation of a state (R334). -/
def State.observe (s : State) : Observation where
  fsm := s.fsm
  full := s.full
  collecting := s.collecting
  armed := s.armed
  cursor := s.cursor
  buf := if s.full then some ((List.range s.cfg.n).map s.elem?) else none
  out := s.out
  fault := s.fault

end Sys2Proof.Machine
end

