-- ==== Sys2Proof/Safety.lean ====
section
/-! DEFINITION. What the claims speak of: the invariant of every run and the one of the assembled block
(10_state.md R48), a run without a fault (60_exceptions.md R283), the transform as a network over any
arithmetic (41_transform.md R166 to R170), rounding (R162), and sequences of operations. -/

namespace Sys2Proof.Machine

/-- Every element of BUF holds a value. -/
abbrev State.AllWritten (s : State) : Prop :=
  ∀ i, i < s.cfg.n → (s.elem? i).isSome = true

/-- A transform position is one of the loop of R168: its stride is that of its pass, its offset that of its
cluster, and its element one of the cluster's upper half. -/
def Progress.ok (c : Config) (g : Progress) : Bool :=
  decide (g.p < c.log2N) && decide (g.stride = c.stride g.p) && decide (g.j = g.c * (2 * g.stride)) &&
  decide (g.j + 2 * g.stride ≤ c.n) && decide (g.j ≤ g.k) && decide (g.k < g.j + g.stride)

/-- A tick in flight is a tick of STATE (43_control.md R236). -/
def TickPhase.ok (c : Config) (f : FsmState) : TickPhase → Bool
  | .idle => true
  | .analyzeFft g => f == .stateAnalyze && g.ok c
  | .analyzeMatch | .analyzeWrite _ _ => f == .stateAnalyze
  | .openPoll => f == .stateOpen
  | .resetAcq | .resetStart | .resetWrite => f == .stateReset

/-- The invariant that every step keeps, whoever issues the operations: BUF is canonical and inside its N
elements, CURSOR ≤ N, (I1), (I2) and so (I3), (I6) as far as a state shows it, and the tick in flight is a tick
of STATE (R48; 20_memory.md R80). -/
abbrev State.Inv (s : State) : Prop :=
  Memory.wf s.buf = true ∧
  (∀ cell ∈ s.buf, cell.1 < 2 * s.cfg.n) ∧
  s.cursor.toNat ≤ s.cfg.n ∧
  (s.full = true ↔ s.cursor.toNat = s.cfg.n) ∧
  (s.armed = true → s.full = false ∧ s.collecting = true) ∧
  (∀ a, a < 2 * s.cursor.toNat → (s.buf.read a).isSome = true) ∧
  s.phase.ok s.cfg s.fsm = true

/-- (I4) and (I5) of R48, which hold where no harness issues ACQ or FFT operations: FULL implies COLLECTING,
and outside Init FULL = 1 but between the RESET sub-step and the end of a Reset tick. The START sub-step finds
COLLECTING = 0, in FREE_RUNNING mode. -/
abbrev State.RunInv (s : State) : Prop :=
  (s.full = true → s.collecting = true) ∧
  (s.fsm ≠ .stateInit → s.full = true ∨ s.phase = .resetStart ∨ s.phase = .resetWrite) ∧
  (s.phase = .resetStart → s.cfg.acqMode = .freeRunning ∧ s.collecting = false)

/-- An event of the assembled block: from the loop, the sampler or the trigger source, or a reset
(44_external.md R260). -/
def Event.assembled : Event → Bool
  | .word .harness w => w == encode .sysReset
  | .word _ _ => true
  | .substep => true

/-- A run without a fault so far (R283). -/
abbrev State.Unfaulted (s : State) : Prop := s.fault = none

/-- Operations one after another, up to the first stop. -/
def execAll : List Instr → State → Host.Outcome State Fault Refusal
  | [], s => .next s
  | i :: rest, s =>
    match exec i s with
    | .next t => execAll rest t
    | .fault f => .fault f
    | .refused r => .refused r

/-- The operation performs ACQ.RESET or resets the block: ACQ.RESET itself, a Reset tick, SYS.RESET. -/
def performsReset (i : Instr) (s : State) : Bool :=
  i == .acqReset || i == .sysReset || (i == .fsmTick && s.fsm == .stateReset)

/-- From one state to a later one by operations of which none performs ACQ.RESET. -/
inductive NoResetPath : State → State → Prop where
  | refl (s : State) : NoResetPath s s
  | op {s t u : State} (i : Instr) (h : NoResetPath s t) (hi : performsReset i t = false)
      (he : exec i t = .next u) : NoResetPath s u

/-- A handler operation that the environment may deliver in a state, by its own source (60_exceptions.md
R285). -/
def handlerAdmitted (i : Instr) (s : State) : Bool :=
  match i with
  | .acqSample _ => s.armed || s.full
  | .acqTrigger => decide (s.cfg.acqMode = .triggered)
  | _ => false

/-- One pass of the transform as a function of positions, over any arithmetic: position k of a pair gets
a + b·w, position k + s gets a + b·w', with the cluster's rotation c and c + N/2 (R166). -/
def netPass {α : Type} (add : α → α → α) (rot : Nat → α → α) (n p : Nat) (x : Nat → α) (i : Nat) : α :=
  if i % (2 * (n >>> (p + 1))) < n >>> (p + 1) then
    add (x i) (rot (i / (2 * (n >>> (p + 1)))) (x (i + (n >>> (p + 1)))))
  else
    add (x (i - (n >>> (p + 1)))) (rot (i / (2 * (n >>> (p + 1))) + n / 2) (x i))

/-- The first `count` passes (R168). -/
def network {α : Type} (add : α → α → α) (rot : Nat → α → α) (n : Nat) : Nat → (Nat → α) → Nat → α
  | 0, x => x
  | count + 1, x => netPass add rot n count (network add rot n count x)

/-- The rotation of the fixed-point transform: CMUL by the entry of TW (R165, R166). -/
def rotFixed (c : Config) (i : Nat) (b : Cplx) : Cplx := cmul b (tw c i)

/-- `v = rha(x)`: nearest integer, halves away from zero (R162). -/
def IsRha (x : ℝ) (v : Int) : Prop :=
  (0 ≤ x → (v : ℝ) - 1 / 2 ≤ x ∧ x < (v : ℝ) + 1 / 2) ∧
  (x < 0 → (v : ℝ) - 1 / 2 < x ∧ x ≤ (v : ℝ) + 1 / 2)

/-- The accumulated error as a mathematical sum over the N positions (42_matcher.md R204). -/
def errorSum (s : State) : Nat :=
  ((List.range s.cfg.n).map (fun i => absDiff (logMag (s.elem i)) (keyEntry s.cfg i))).sum

end Sys2Proof.Machine
end

