-- ==== Sys2Proof/Certificates/Slice0/Obligations.lean ====
section
/-! DEFINITION. The statements for the provers. Each docstring names the rules it formalises. "The model's
choice" in a docstring marks what no rule of the spec states. Throughout, `result`, `inbox`, `answers` and
`draws` are fields of the model's own (log 3, 6, 7), and a model fault is a next state (log 8). -/

open Sys2Proof Sys2Proof.Machine

/-! ## Words and lines -/

/-- Words written out from the encoding of R101 to R104, one or more for every format, and the words that 95
section 2.1 lists as invalid. -/
def Obligations.WordsOfTheSpecDecode : Prop :=
  decode .input 0x01000000 = .ok .acqStart ∧
  decode .input 0x03000080 = .ok (.acqSample 0x80) ∧
  decode .input 0x0700FFFF = .ok (.acqRead 0xFFFF) ∧
  decode .input 0x11F00000 = .ok (.fftPass 15) ∧
  decode .input 0x12100003 = .ok (.fftBfly 1 3) ∧
  decode .input 0x2300FFFF = .ok (.matchLogmag 0xFFFF) ∧
  decode .input 0x30000000 = .ok .fsmTick ∧
  decode .input 0x31000000 = .ok .sysReset ∧
  decode .trace 0x40000001 = .ok (.proxPoll 1) ∧
  decode .trace 0x42000000 = .ok .actClose ∧
  decode .input 0x00000000 = .error (.unassignedOpcode 0) ∧
  decode .input 0x01000001 = .error (.reservedBits .acqStart) ∧
  decode .input 0x03000180 = .error (.reservedBits .acqSample) ∧
  decode .input 0x12110003 = .error (.reservedBits .fftBfly) ∧
  decode .trace 0x40000002 = .error (.reservedBits .proxPoll) ∧
  decode .input 0x40000001 = .error (.wrongContext .proxPoll) ∧
  decode .trace 0x31000000 = .error (.wrongContext .sysReset)

/-- R106 and R100 to R102 read both ways: a word decodes to an operation exactly when the operation may stand
in the context and the word is its encoding. So every operand value comes back, every word has one meaning, and
no reserved bit is dropped. -/
def Obligations.DecodeIffEncode : Prop :=
  ∀ (ctx : Context) (w : OpWord) (i : Instr),
    decode ctx w = .ok i ↔ i.wellFormed ctx = true ∧ encode i = w

/-- R103, R106: no word has the match bits of two rows. -/
def Obligations.OpcodeRowsNeverOverlap : Prop :=
  ∀ (w : OpWord) (o o' : Opcode),
    w &&& ~~~ o.format.maskFree = o.matchWord → w &&& ~~~ o'.format.maskFree = o'.matchWord → o = o'

/-- R104: the unassigned operation codes are exactly the listed ones, and an output event is refused as
input. -/
def Obligations.UnassignedCodesAreTheListedOnes : Prop :=
  (∀ opc : BitVec 8, lookupOpcode opc = none ↔
    opc.toNat = 0x00 ∨ (0x08 ≤ opc.toNat ∧ opc.toNat ≤ 0x0F) ∨ (0x14 ≤ opc.toNat ∧ opc.toNat ≤ 0x1F) ∨
    (0x24 ≤ opc.toNat ∧ opc.toNat ≤ 0x2F) ∨ (0x32 ≤ opc.toNat ∧ opc.toNat ≤ 0x3F) ∨ 0x43 ≤ opc.toNat) ∧
  (∀ (o : Opcode) (w : OpWord), lookupOpcode (w.extractLsb' 24 8) = some o →
    (o = .proxPoll ∨ o = .actOpen ∨ o = .actClose) → decode .input w = .error (.wrongContext o))

/-- R107, R108: a line is an assembly error exactly when an operand count or range is wrong; an operation's
line gives one operation of its row; the pseudo-operations expand as listed; and V8 = v mod 256. -/
def Obligations.AssemblerLinesExpandAsListed : Prop :=
  (∀ l : AsmLine, l.assemble.isSome = true ↔ l.wellFormed = true) ∧
  (∀ (o : Opcode) (args : List Int), o.format.argsOk args = true →
    ∃ i : Instr, (AsmLine.op o args).assemble = some [i] ∧ i.opcode = o) ∧
  (∀ v : Int, -128 ≤ v → v ≤ 255 →
    (AsmLine.op .acqSample [v]).assemble = some [.acqSample (BitVec.ofNat 8 (v % 256).toNat)]) ∧
  (∀ (pass k : Nat), pass ≤ 15 → k ≤ 65535 →
    (AsmLine.op .fftBfly [(pass : Int), (k : Int)]).assemble =
      some [.fftBfly (BitVec.ofNat 4 pass) (BitVec.ofNat 16 k)]) ∧
  (∀ vs : List Int, vs ≠ [] → (∀ v ∈ vs, -128 ≤ v ∧ v ≤ 255) →
    (AsmLine.acqFill vs).assemble = some (vs.map (fun v => .acqSample (BitVec.ofInt 8 v)))) ∧
  (∀ n : Nat, 1 ≤ n → (AsmLine.fsmTicks n).assemble = some (List.replicate n .fsmTick))

/-! ## A step -/

/-- One step delivers the next event (R73, R81, R295): a decoded and admitted word is run by `exec`, a sub-step
event by `execSubstep`, each on the state without the event. With no event left the loop takes the next step:
the model's choice (log 4). A word placed by `withFetchWord` is run at an operation boundary (log 5). -/
def Obligations.StepRunsTheDecodedOperation : Prop :=
  (∀ (s : State) (src : Source) (w : OpWord) (rest : List Event) (i : Instr),
    s.inbox = .word src w :: rest → decode .input w = .ok i → refusalOf src w i s = none →
    step s = exec i { s with inbox := rest }) ∧
  (∀ (s : State) (rest : List Event), s.inbox = .substep :: rest →
    step s = execSubstep { s with inbox := rest }) ∧
  (∀ s : State, s.inbox = [] → s.phase = .idle → step s = exec .fsmTick s) ∧
  (∀ s : State, s.inbox = [] → s.phase ≠ .idle → step s = execSubstep s) ∧
  (∀ (s : State) (nbits w : Nat) (i : Instr),
    decode .input (BitVec.ofNat 32 (w % 2 ^ nbits)) = .ok i →
    step (s.withFetchWord nbits w) = exec i { s with phase := .idle })

/-- R104, R285, R269: what a step refuses, by name: an invalid word; a sample from the sampler while ARMED = 0
and FULL = 0; a trigger edge in FREE_RUNNING mode; an operation of the loop or the harness while a tick is in
flight. -/
def Obligations.DutyBreachesAreRefused : Prop :=
  (∀ (s : State) (src : Source) (w : OpWord) (rest : List Event) (e : DecodeError),
    s.inbox = .word src w :: rest → decode .input w = .error e → step s = .refused (.invalidWord w)) ∧
  (∀ (s : State) (v8 : BitVec 8) (rest : List Event),
    s.inbox = (Port.smpIrq v8).event :: rest → s.armed = false → s.full = false →
    step s = .refused .sampleNotAdmitted) ∧
  (∀ (s : State) (rest : List Event),
    s.inbox = Port.trigIrq.event :: rest → s.cfg.acqMode = .freeRunning →
    step s = .refused .triggerNotAdmitted) ∧
  (∀ (s : State) (w : OpWord) (rest : List Event) (i : Instr),
    s.inbox = .word .harness w :: rest → decode .input w = .ok i → s.phase ≠ .idle →
    step s = .refused (.tickInFlight .harness)) ∧
  (∀ (s : State) (rest : List Event),
    s.inbox = Port.loop.event :: rest → s.phase ≠ .idle → step s = .refused (.tickInFlight .loop))

/-- The liberties of R269 and the admission of R285: each port's event is delivered as its operation whenever
the table allows it. -/
def Obligations.AdmittedPortEventsRun : Prop :=
  (∀ (s : State) (v8 : BitVec 8) (rest : List Event),
    s.inbox = (Port.smpIrq v8).event :: rest → s.armed = true ∨ s.full = true →
    step s = exec (.acqSample v8) { s with inbox := rest }) ∧
  (∀ (s : State) (rest : List Event),
    s.inbox = Port.trigIrq.event :: rest → s.cfg.acqMode = .triggered →
    step s = exec .acqTrigger { s with inbox := rest }) ∧
  (∀ (s : State) (rest : List Event), s.inbox = Port.loop.event :: rest → s.phase = .idle →
    step s = exec .fsmTick { s with inbox := rest }) ∧
  (∀ (s : State) (rest : List Event), s.inbox = Port.rst.event :: rest → s.phase = .idle →
    step s = exec .sysReset { s with inbox := rest })

/-! ## Reset -/

/-- R320, R321: SYS.RESET from every state. BUF is marked unwritten: the model's choice of the two treatments
R320 allows (log 9). -/
def Obligations.SysResetWritesTheResetValues : Prop :=
  ∀ s : State,
    (s.cfg.acqMode = .triggered → exec .sysReset s = .next { s with
      fsm := .stateInit, cursor := 0, full := false, collecting := false, armed := false,
      buf := [], phase := .idle, result := none }) ∧
    (s.cfg.acqMode = .freeRunning → exec .sysReset s = .next { s with
      fsm := .stateInit, cursor := 0, full := false, collecting := true, armed := true,
      buf := [], phase := .idle, result := none })

/-- R321: the observation registers, FAULT and OUT right after reset at the start of a run, for every instance
of the block; BUF holds no value anywhere (R80), the model's form of "unspecified" (log 9). -/
def Obligations.ResetStateIsAsTabulated : Prop :=
  ∀ c : Config,
    (State.resetOf c).s0 = 0 ∧ (State.resetOf c).s2 = 0 ∧
    (c.acqMode = .triggered → (State.resetOf c).s1 = 0x00 ∧ (State.resetOf c).s3 = 0) ∧
    (c.acqMode = .freeRunning → (State.resetOf c).s1 = 0x06 ∧ (State.resetOf c).s3 = 1) ∧
    (State.resetOf c).fault = none ∧ (State.resetOf c).out = [] ∧ (State.resetOf c).phase = .idle ∧
    (∀ a : Nat, (State.resetOf c).buf.read a = none)

/-- R324: the reset values in FREE_RUNNING mode are those of TRIGGERED mode followed by ACQ.START. -/
def Obligations.FreeRunningResetIsTriggeredResetThenStart : Prop :=
  ∀ c : Config, c.acqMode = .freeRunning →
    exec .acqStart (State.resetOf { c with acqMode := .triggered }) =
      .next { State.resetOf c with cfg := { c with acqMode := .triggered } }

/-! ## Acquisition -/

/-- R130, R325: ACQ.START, its writes and its fault. -/
def Obligations.AcqStartStartsOrFaults : Prop :=
  ∀ s : State,
    (¬(s.collecting = true ∧ s.full = false) → exec .acqStart s = .next { s with
      cursor := 0, full := false, collecting := true, armed := true, result := none }) ∧
    (s.collecting = true ∧ s.full = false → exec .acqStart s = .next { s with
      fault := s.fault.or (some .startCollecting), result := none })

/-- R131, R326: ACQ.RESET, its writes and its fault; ARMED and BUF are not changed. -/
def Obligations.AcqResetClearsOrFaults : Prop :=
  ∀ s : State,
    (s.armed = false → exec .acqReset s = .next { s with
      cursor := 0, full := false, collecting := false, result := none }) ∧
    (s.armed = true → exec .acqReset s = .next { s with
      fault := s.fault.or (some .resetArmed), result := none })

/-- R132: ACQ.SAMPLE. A late sample changes nothing; otherwise element CURSOR becomes (s8(V8), 0), every other
byte of BUF stays, CURSOR goes up by 1, and the N-th sample clears ARMED and sets FULL. -/
def Obligations.AcqSampleStoresOrDiscards : Prop :=
  ∀ (v8 : BitVec 8) (s : State),
    (s.full = true → exec (.acqSample v8) s = .next { s with result := none }) ∧
    (s.full = false → s.cursor.toNat < s.cfg.n →
      ∃ t : State, exec (.acqSample v8) s = .next t ∧
        t = { s with
          buf := t.buf
          cursor := t.cursor
          armed := if s.cursor.toNat + 1 = s.cfg.n then false else s.armed
          full := decide (s.cursor.toNat + 1 = s.cfg.n)
          result := none } ∧
        t.cursor.toNat = s.cursor.toNat + 1 ∧
        t.elem? s.cursor.toNat = some ⟨v8, 0⟩ ∧
        ∀ a : Nat, a ≠ 2 * s.cursor.toNat → a ≠ 2 * s.cursor.toNat + 1 → t.buf.read a = s.buf.read a)

/-- R133: ACQ.TRIGGER performs ACQ.START in TRIGGERED mode while COLLECTING = 0 and is ignored otherwise. -/
def Obligations.AcqTriggerStartsOnlyWhenNotCollecting : Prop :=
  ∀ s : State,
    (s.cfg.acqMode = .triggered → s.collecting = false → exec .acqTrigger s = .next { s with
      cursor := 0, full := false, collecting := true, armed := true, result := none }) ∧
    (s.cfg.acqMode = .triggered → s.collecting = true →
      exec .acqTrigger s = .next { s with result := none }) ∧
    (s.cfg.acqMode = .freeRunning → exec .acqTrigger s = .next { s with result := none })

/-- R134, R135, R38: ACQ.ISFULL returns FULL; ACQ.STATUS returns Full 2, else Collecting 1, else Idle 0. -/
def Obligations.AcqQueriesReturnTheFlags : Prop :=
  ∀ s : State,
    exec .acqIsfull s = .next { s with result := some (.full (if s.full then 1 else 0)) } ∧
    exec .acqStatus s = .next { s with
      result := some (.status (if s.full then 2 else if s.collecting then 1 else 0)) }

/-- R136, R284: ACQ.READ tests F_INDEX, then F_NOT_FULL, and returns the element as {im, re}. -/
def Obligations.AcqReadReturnsTheElement : Prop :=
  ∀ (idx : BitVec 16) (s : State),
    (s.cfg.n ≤ idx.toNat → exec (.acqRead idx) s = .next { s with
      fault := s.fault.or (some .index), result := none }) ∧
    (idx.toNat < s.cfg.n → s.full = false → exec (.acqRead idx) s = .next { s with
      fault := s.fault.or (some .notFull), result := none }) ∧
    (∀ z : Cplx, idx.toNat < s.cfg.n → s.full = true → s.elem? idx.toNat = some z →
      exec (.acqRead idx) s = .next { s with result := some (.element (z.im ++ z.re)) })

/-- R138: from the state after ACQ.START, fewer than N samples leave FULL = 0 and ARMED = 1; exactly N make
FULL = 1 and ARMED = 0, with the samples in BUF in their order; any further sample changes nothing. -/
def Obligations.ExactlyNSamplesFillTheBuffer : Prop :=
  ∀ s : State, ¬(s.collecting = true ∧ s.full = false) →
    ∃ t : State, exec .acqStart s = .next t ∧
      ∀ vs : List (BitVec 8),
        (vs.length < s.cfg.n → ∃ u : State, execAll (vs.map .acqSample) t = .next u ∧
          u.full = false ∧ u.armed = true) ∧
        (vs.length = s.cfg.n → ∃ u : State, execAll (vs.map .acqSample) t = .next u ∧
          u.full = true ∧ u.armed = false ∧ u.cursor.toNat = s.cfg.n ∧
          (∀ (i : Nat) (v : BitVec 8), vs[i]? = some v → u.elem? i = some ⟨v, 0⟩) ∧
          ∀ v8 : BitVec 8, exec (.acqSample v8) u = .next u)

/-- R139: in TRIGGERED mode two triggers with no ACQ.RESET between them start at most one collection. -/
def Obligations.SecondTriggerIsIgnored : Prop :=
  ∀ s t u : State, s.cfg.acqMode = .triggered → exec .acqTrigger s = .next t → NoResetPath t u →
    exec .acqTrigger u = .next { u with result := none }

/-! ## The transform -/

/-- R18, R161: bit reversal as a sum, and the exponents of TW: a permutation of 0, …, N − 1 whose second half
is the first plus N/2. -/
def Obligations.ExponentsAreBitReversedHalves : Prop :=
  (∀ m x : Nat, bitrev m x =
    ((List.range m).map (fun t => (x / 2 ^ t % 2) * 2 ^ (m - 1 - t))).sum) ∧
  (∀ m x : Nat, x < 2 ^ m → bitrev m (bitrev m x) = x) ∧
  (∀ (c : Config) (i : Nat), i < c.half →
    exponent c i = bitrev (c.log2N - 1) i ∧ exponent c i < c.half ∧
    exponent c (i + c.half) = exponent c i + c.half) ∧
  (∀ (c : Config) (i j : Nat), i < c.n → j < c.n → exponent c i = exponent c j → i = j)

/-- R162: TW's entries are 127·cos and −127·sin of e(i)·2π/N, rounded with halves away from zero, every
rounded value at least 0.001 from a boundary; the second half is the exact negation; −128 never occurs. -/
def Obligations.TwIsTheRoundedCircle : Prop :=
  ∀ (c : Config) (i : Nat),
    (i < c.half →
      IsRha (127 * Real.cos (2 * Real.pi * exponent c i / c.n)) (tw c i).re.toInt ∧
      IsRha (-127 * Real.sin (2 * Real.pi * exponent c i / c.n)) (tw c i).im.toInt ∧
      (∀ v : Int, 1 / 1000 ≤ |127 * Real.cos (2 * Real.pi * exponent c i / c.n) - ((v : ℝ) + 1 / 2)|) ∧
      (∀ v : Int, 1 / 1000 ≤ |127 * Real.sin (2 * Real.pi * exponent c i / c.n) - ((v : ℝ) + 1 / 2)|)) ∧
    (c.half ≤ i → i < c.n →
      (tw c i).re.toInt = -(tw c (i - c.half)).re.toInt ∧
      (tw c i).im.toInt = -(tw c (i - c.half)).im.toInt) ∧
    (i < c.n → -127 ≤ (tw c i).re.toInt ∧ (tw c i).re.toInt ≤ 127 ∧
      -127 ≤ (tw c i).im.toInt ∧ (tw c i).im.toInt ≤ 127)

/-- R163: the entry N/2 further is the exact negation, and the product by it differs from the negated product
by at most 1 in each component, before the wrap. -/
def Obligations.NegatedRotationLosesAtMostOne : Prop :=
  ∀ (c : Config) (i : Nat) (b : Cplx), i < c.half →
    (tw c (i + c.half)).re.toInt = -(tw c i).re.toInt ∧
    (tw c (i + c.half)).im.toInt = -(tw c i).im.toInt ∧
    ((cmul b (tw c (i + c.half))).re = -(cmul b (tw c i)).re ∨
      (cmul b (tw c (i + c.half))).re = -(cmul b (tw c i)).re - 1) ∧
    ((cmul b (tw c (i + c.half))).im = -(cmul b (tw c i)).im ∨
      (cmul b (tw c (i + c.half))).im = -(cmul b (tw c i)).im - 1)

/-- R164: CADD is the component-wise sum modulo 256, commutative, never saturated. -/
def Obligations.CaddWrapsEachComponent : Prop :=
  ∀ a t : Cplx,
    (cadd a t).re.toNat = (a.re.toNat + t.re.toNat) % 256 ∧
    (cadd a t).im.toNat = (a.im.toNat + t.im.toNat) % 256 ∧
    cadd a t = cadd t a

/-- R165: for every buffer value and every entry of TW, the sums of products stay within ±32512, the shifted
values within ±254, and CMUL is the shifted value modulo 256. -/
def Obligations.CmulProductsNeverOverflow : Prop :=
  ∀ (c : Config) (i : Nat) (b : Cplx), i < c.n →
    |productRe b (tw c i)| ≤ 32512 ∧ |productIm b (tw c i)| ≤ 32512 ∧
    |asr (productRe b (tw c i)) 7| ≤ 254 ∧ |asr (productIm b (tw c i)) 7| ≤ 254 ∧
    ((cmul b (tw c i)).re.toInt - Int.fdiv (productRe b (tw c i)) 128) % 256 = 0 ∧
    ((cmul b (tw c i)).im.toInt - Int.fdiv (productIm b (tw c i)) 128) % 256 = 0

/-- R166, R284, R330: FFT.BFLY. In range and with FULL = 1, elements K and K + s get a + b·w and a + b·w', from
the values both held before, and every other byte stays; otherwise F_INDEX, then F_NOT_FULL. -/
def Obligations.FftBflyCombinesOnePair : Prop :=
  ∀ (p4 : BitVec 4) (k : BitVec 16) (s : State),
    (¬(p4.toNat < s.cfg.log2N ∧ k.toNat < s.cfg.n ∧
        k.toNat % (2 * s.cfg.stride p4.toNat) < s.cfg.stride p4.toNat) →
      exec (.fftBfly p4 k) s = .next { s with fault := s.fault.or (some .index), result := none }) ∧
    (p4.toNat < s.cfg.log2N → k.toNat < s.cfg.n →
      k.toNat % (2 * s.cfg.stride p4.toNat) < s.cfg.stride p4.toNat →
      (s.full = false →
        exec (.fftBfly p4 k) s = .next { s with fault := s.fault.or (some .notFull), result := none }) ∧
      (∀ a b : Cplx, s.full = true → s.elem? k.toNat = some a →
        s.elem? (k.toNat + s.cfg.stride p4.toNat) = some b →
        ∃ t : State, exec (.fftBfly p4 k) s = .next t ∧
          t = { s with buf := t.buf, result := none } ∧
          t.elem? k.toNat =
            some (cadd a (cmul b (tw s.cfg (k.toNat / (2 * s.cfg.stride p4.toNat))))) ∧
          t.elem? (k.toNat + s.cfg.stride p4.toNat) =
            some (cadd a (cmul b (tw s.cfg (k.toNat / (2 * s.cfg.stride p4.toNat) + s.cfg.n / 2)))) ∧
          ∀ i : Nat, i ≠ 2 * k.toNat → i ≠ 2 * k.toNat + 1 →
            i ≠ 2 * (k.toNat + s.cfg.stride p4.toNat) → i ≠ 2 * (k.toNat + s.cfg.stride p4.toNat) + 1 →
            t.buf.read i = s.buf.read i))

/-- R167, R284: FFT.PASS. With FULL = 1 and P4 < L it completes, and every element is the one the pass's
pairs give it from the values before the pass; nothing but BUF's N elements is written; otherwise F_INDEX, then
F_NOT_FULL. -/
def Obligations.FftPassCombinesEveryPairOnce : Prop :=
  ∀ (p4 : BitVec 4) (s : State),
    (s.cfg.log2N ≤ p4.toNat → exec (.fftPass p4) s = .next { s with
      fault := s.fault.or (some .index), result := none }) ∧
    (p4.toNat < s.cfg.log2N → s.full = false → exec (.fftPass p4) s = .next { s with
      fault := s.fault.or (some .notFull), result := none }) ∧
    (p4.toNat < s.cfg.log2N → s.full = true → s.AllWritten →
      ∃ t : State, exec (.fftPass p4) s = .next t ∧
        t = { s with buf := t.buf, result := none } ∧
        (∀ i : Nat, i < s.cfg.n →
          t.elem? i = some (netPass cadd (rotFixed s.cfg) s.cfg.n p4.toNat s.elem i)) ∧
        ∀ a : Nat, 2 * s.cfg.n ≤ a → t.buf.read a = s.buf.read a)

/-- R167, R331: the butterflies of one pass touch disjoint pairs, so their order does not change the result. -/
def Obligations.OrderInsideAPassIsFree : Prop :=
  ∀ (s : State) (p : Nat) (ks : List Nat), s.full = true → p < s.cfg.log2N → Memory.wf s.buf = true →
    s.AllWritten → ks.Perm (passUppers s.cfg p) →
    forEach (fun k => opFftBfly p k) ks s = opFftPass p s

/-- R168: the source's loop, written out in full, is the same as FFT.PASS(0), FFT.PASS(1), …, FFT.PASS(L−1). -/
def Obligations.TransformIsThePassesInOrder : Prop :=
  ∀ s : State, s.full = true →
    exec .fftTransform s = command s (forEach (fun p => opFftPass p) (List.range s.cfg.log2N) s)

/-- R168, R284: FFT.TRANSFORM. With FULL = 1 it completes with the network of all L passes over CADD and CMUL
in BUF and nothing else changed; otherwise F_NOT_FULL. -/
def Obligations.FftTransformComputesTheNetwork : Prop :=
  ∀ s : State,
    (s.full = false → exec .fftTransform s = .next { s with
      fault := s.fault.or (some .notFull), result := none }) ∧
    (s.full = true → s.AllWritten →
      ∃ t : State, exec .fftTransform s = .next t ∧
        t = { s with buf := t.buf, result := none } ∧
        (∀ i : Nat, i < s.cfg.n →
          t.elem? i = some (network cadd (rotFixed s.cfg) s.cfg.n s.cfg.log2N s.elem i)) ∧
        ∀ a : Nat, 2 * s.cfg.n ≤ a → t.buf.read a = s.buf.read a)

/-- R170: in exact arithmetic, with TW[i] exactly ω^e(i), the same network leaves the DFT in bit-reversed
order: position q holds X[bitrev_L(q)]. -/
def Obligations.ExactNetworkIsTheDft : Prop :=
  ∀ (c : Config) (x : Nat → ℂ) (q : Nat), q < c.n →
    network (fun a b => a + b)
      (fun i b => b * Complex.exp (-(2 * Real.pi * Complex.I) * exponent c i / c.n)) c.n c.log2N x q =
    ∑ m ∈ Finset.range c.n,
      x m * Complex.exp (-(2 * Real.pi * Complex.I) * (bitrev c.log2N q * m : Nat) / c.n)

/-- R169, R203, R284: TW.READ and KEY.READ return the ROM's element for an index in range, FULL or not, and
fault with F_INDEX otherwise. -/
def Obligations.RomReadsReturnTheEntry : Prop :=
  ∀ (idx : BitVec 16) (s : State),
    (idx.toNat < s.cfg.n → exec (.twRead idx) s = .next { s with
      result := some (.element ((tw s.cfg idx.toNat).im ++ (tw s.cfg idx.toNat).re)) }) ∧
    (s.cfg.n ≤ idx.toNat → exec (.twRead idx) s = .next { s with
      fault := s.fault.or (some .index), result := none }) ∧
    (∀ h : idx.toNat < 2 ^ s.cfg.log2N, exec (.keyRead idx) s = .next { s with
      result := some (.keyEntry s.cfg.key[idx.toNat]) }) ∧
    (s.cfg.n ≤ idx.toNat → exec (.keyRead idx) s = .next { s with
      fault := s.fault.or (some .index), result := none })

/-! ## The matcher -/

/-- R200: MAG2 is exact and at most 32768. -/
def Obligations.Mag2IsExact : Prop :=
  ∀ z : Cplx,
    ((mag2 z).toNat : Int) = z.re.toInt * z.re.toInt + z.im.toInt * z.im.toInt ∧ (mag2 z).toNat ≤ 32768

/-- R201: ILOG10(0) = 0, and ILOG10(m) is the largest t with 10^t ≤ m for m ≥ 1; at most 4. -/
def Obligations.Ilog10IsTheFloorOfTheLogarithm : Prop :=
  ilog10 0 = 0 ∧
  ∀ m : BitVec 16, 1 ≤ m.toNat →
    10 ^ (ilog10 m).toNat ≤ m.toNat ∧ (∀ t : Nat, 10 ^ t ≤ m.toNat → t ≤ (ilog10 m).toNat) ∧
    (ilog10 m).toNat ≤ 4

/-- R202, R284: MATCH.LOGMAG tests F_INDEX, then F_NOT_FULL, and returns ILOG10(MAG2(BUF[IDX])). -/
def Obligations.LogmagReturnsTheLogarithm : Prop :=
  ∀ (idx : BitVec 16) (s : State),
    (s.cfg.n ≤ idx.toNat → exec (.matchLogmag idx) s = .next { s with
      fault := s.fault.or (some .index), result := none }) ∧
    (idx.toNat < s.cfg.n → s.full = false → exec (.matchLogmag idx) s = .next { s with
      fault := s.fault.or (some .notFull), result := none }) ∧
    (∀ z : Cplx, idx.toNat < s.cfg.n → s.full = true → s.elem? idx.toNat = some z →
      exec (.matchLogmag idx) s = .next { s with result := some (.logMag (ilog10 (mag2 z))) })

/-- R204, R205, R284: MATCH.ERROR returns the sum of the absolute differences, exact and at most 255·N;
MATCH.ISMATCH compares it with THRESHOLD, strictly; both fault with F_NOT_FULL while FULL = 0. -/
def Obligations.MatchSumsAndCompares : Prop :=
  ∀ s : State,
    (s.full = false →
      exec .matchError s = .next { s with fault := s.fault.or (some .notFull), result := none } ∧
      exec .matchIsmatch s = .next { s with fault := s.fault.or (some .notFull), result := none }) ∧
    (s.full = true → s.AllWritten →
      errorSum s ≤ 255 * s.cfg.n ∧
      (∃ v : BitVec 32, exec .matchError s = .next { s with result := some (.error v) } ∧
        v.toNat = errorSum s) ∧
      exec .matchIsmatch s = .next { s with
        result := some (.isMatch (if errorSum s < s.cfg.threshold.toNat then 1 else 0)) })

/-- R208: a signature compared with itself gives zero error, and matches whenever THRESHOLD ≥ 1. -/
def Obligations.SelfMatchHasZeroError : Prop :=
  ∀ s : State, s.full = true → s.AllWritten →
    (∀ i : Nat, i < s.cfg.n → keyEntry s.cfg i = ilog10 (mag2 (s.elem i))) →
    exec .matchError s = .next { s with result := some (.error 0) } ∧
    (1 ≤ s.cfg.threshold.toNat → exec .matchIsmatch s = .next { s with result := some (.isMatch 1) })

/-! ## The control FSM -/

/-- R261 (the draw): the next answer the environment has fixed, or a free value, with nothing else changed.
The two fields that hold the draws are the model's choice (log 7). -/
def Obligations.EveryPollDrawsOneAnswer : Prop :=
  ∀ s : State,
    (∀ (v : BitVec 1) (rest : List (BitVec 1)), s.answers = v :: rest →
      s.poll = (v, { s with answers := rest, out := s.out ++ [.proxPoll v] })) ∧
    (s.answers = [] →
      s.poll = (Config.freeNearby s.draws, { s with
        draws := s.draws + 1, out := s.out ++ [.proxPoll (Config.freeNearby s.draws)] }))

/-- R231: the Init tick. With FULL = 0 nothing changes and nothing is emitted; with FULL = 1 one poll decides
between Analyze and Reset. -/
def Obligations.InitTickPollsOnlyWhenFull : Prop :=
  ∀ s : State, s.fsm = .stateInit →
    (s.full = false → exec .fsmTick s = .next { s with result := none }) ∧
    (s.full = true → exec .fsmTick s = .next { s with
      fsm := if s.poll.1 = 1 then .stateAnalyze else .stateReset
      out := s.out ++ [.proxPoll s.poll.1]
      answers := s.poll.2.answers
      draws := s.poll.2.draws
      result := none })

/-- R232, R297: the Analyze tick. With FULL = 1 BUF holds the transform and STATE is Open exactly when the
transformed buffer's error is below THRESHOLD, else Reset; with FULL = 0 it faults. -/
def Obligations.AnalyzeTickTransformsAndMatches : Prop :=
  ∀ s : State, s.fsm = .stateAnalyze →
    (s.full = false → exec .fsmTick s = .next { s with
      fault := s.fault.or (some .notFull), result := none }) ∧
    (s.full = true → s.AllWritten →
      ∃ t : State, exec .fsmTick s = .next t ∧
        t = { s with
          buf := t.buf
          fsm := if errorSum t < s.cfg.threshold.toNat then .stateOpen else .stateReset
          result := none } ∧
        (∀ i : Nat, i < s.cfg.n →
          t.elem? i = some (network cadd (rotFixed s.cfg) s.cfg.n s.cfg.log2N s.elem i)) ∧
        ∀ a : Nat, 2 * s.cfg.n ≤ a → t.buf.read a = s.buf.read a)

/-- R233: the Open tick. ACT.OPEN, then one poll; STATE becomes Reset when the object is gone. -/
def Obligations.OpenTickOpensThenPolls : Prop :=
  ∀ s : State, s.fsm = .stateOpen →
    exec .fsmTick s = .next { s with
      fsm := if s.poll.1 = 0 then .stateReset else .stateOpen
      out := s.out ++ [.actOpen, .proxPoll s.poll.1]
      answers := s.poll.2.answers
      draws := s.poll.2.draws
      result := none }

/-- R234: the Reset tick. ACT.CLOSE, ACQ.RESET, in FREE_RUNNING mode ACQ.START, STATE becomes Init; with
ARMED = 1 it faults. -/
def Obligations.ResetTickClosesAndClears : Prop :=
  ∀ s : State, s.fsm = .stateReset →
    (s.armed = true → exec .fsmTick s = .next { s with
      fault := s.fault.or (some .resetArmed), result := none }) ∧
    (s.armed = false → s.cfg.acqMode = .triggered → exec .fsmTick s = .next { s with
      out := s.out ++ [.actClose], cursor := 0, full := false, collecting := false,
      fsm := .stateInit, result := none }) ∧
    (s.armed = false → s.cfg.acqMode = .freeRunning → exec .fsmTick s = .next { s with
      out := s.out ++ [.actClose], cursor := 0, full := false, collecting := true, armed := true,
      fsm := .stateInit, result := none })

/-- 95 E8, R231, R234, R238: from Init with a full buffer and nobody near, two ticks lead back to Init, with
one poll and exactly one ACT.CLOSE. -/
def Obligations.NobodyNearReturnsToInitInTwoTicks : Prop :=
  ∀ s : State, s.fsm = .stateInit → s.full = true → s.armed = false → s.poll.1 = 0 →
    ∃ t : State, execAll [.fsmTick, .fsmTick] s = .next t ∧
      t.fsm = .stateInit ∧ t.full = false ∧ t.cursor = 0 ∧ t.fault = s.fault ∧
      t.out = s.out ++ [.proxPoll 0, .actClose]

/-- R237, R236: a tick run as its sub-steps, with no handler between them, ends as the tick run as one
operation. -/
def Obligations.SubstepsMakeTheWholeTick : Prop :=
  ∀ s : State, s.phase = .idle → fineTick s = exec .fsmTick s

/-- R236, R329: inside Analyze and Open, and before the ACQ.RESET sub-step of a Reset tick, a handler changes
no state. -/
def Obligations.HandlersBeforeAcqResetChangeNothing : Prop :=
  ∀ (s : State) (i : Instr), s.Inv → s.RunInv → handlerAdmitted i s = true →
    s.phase ≠ .idle → s.phase ≠ .resetStart → s.phase ≠ .resetWrite →
    exec i s = .next { s with result := none }

/-- R236: after ACQ.RESET a handler commutes with the rest of the tick: before the STATE write it may as well
run right after the tick, and before the START sub-step none is admitted. -/
def Obligations.HandlersAfterAcqResetMoveBehindTheTick : Prop :=
  (∀ (s t : State) (i : Instr), s.phase = .resetWrite → handlerAdmitted i s = true →
    exec i s = .next t →
    ∃ u v : State, execSubstep s = .next u ∧ u.phase = .idle ∧ execSubstep t = .next v ∧
      exec i u = .next v) ∧
  (∀ (s : State) (i : Instr), s.Inv → s.RunInv → s.phase = .resetStart → handlerAdmitted i s = false)

/-- The sentence of R236 read word for word: every handler that preempts inside a tick may as well run right
after the tick. EXPECTED TO FAIL: a trigger between ACT.CLOSE and the ACQ.RESET sub-step is ignored, and right
after the tick it starts a collection (NOTES.md, log 11). -/
def Obligations.EveryHandlerMovesBehindTheTick : Prop :=
  ∀ (s t u v : State) (i : Instr), s.Inv → s.RunInv → s.phase ≠ .idle → handlerAdmitted i s = true →
    exec i s = .next t → fineTick s = .next u → fineTick t = .next v → exec i u = .next v

/-! ## Output events -/

/-- R261, R262, R263: each output event appends itself to OUT and writes nothing else; its trace word is the
one listed, valid as a trace word and refused as an input. That `exec` of an event is its append is the model's
reading (log 13). -/
def Obligations.OutputEventsAppendToOut : Prop :=
  (∀ (v : BitVec 1) (s : State), exec (.proxPoll v) s = .next { s with
    out := s.out ++ [.proxPoll v], result := some (.nearby v) }) ∧
  (∀ s : State, exec .actOpen s = .next { s with out := s.out ++ [.actOpen], result := none }) ∧
  (∀ s : State, exec .actClose s = .next { s with out := s.out ++ [.actClose], result := none }) ∧
  OutEvent.traceWord (.proxPoll 0) = 0x40000000 ∧ OutEvent.traceWord (.proxPoll 1) = 0x40000001 ∧
  OutEvent.traceWord .actOpen = 0x41000000 ∧ OutEvent.traceWord .actClose = 0x42000000 ∧
  ∀ e : OutEvent, decode .trace e.traceWord = .ok e.instr ∧
    decode .input e.traceWord = .error (.wrongContext e.instr.opcode)

/-! ## Registers and flags -/

/-- R38, R39, R40, R264: the observation registers are the flags, bit by bit; S1[7:3] reads 0; S3 is never 3;
every code of S0 names a state; smp_arm is ARMED. -/
def Obligations.ObservationRegistersShowTheFlags : Prop :=
  (∀ s : State, s.s1.getLsbD 0 = s.full ∧ s.s1.getLsbD 1 = s.collecting ∧ s.s1.getLsbD 2 = s.armed ∧
    (∀ b : Nat, 3 ≤ b → s.s1.getLsbD b = false) ∧
    s.s3 ≠ 3 ∧ (s.s3 = 2 ↔ s.full = true) ∧ (s.s3 = 1 ↔ s.full = false ∧ s.collecting = true) ∧
    s.s2 = s.cursor ∧ s.s0 = s.fsm.code ∧ s.smpArm = BitVec.ofBool s.armed) ∧
  (∀ code : BitVec 2, ∃ f : FsmState, f.code = code ∧ ∀ f' : FsmState, f'.code = code → f' = f)

/-! ## Frames -/

/-- R74, R284: an operation that only returns a value writes nothing but the returned value and, where it
faults, FAULT; every byte of BUF stays. -/
def Obligations.QueriesWriteNoBlockState : Prop :=
  ∀ (i : Instr) (s t : State),
    i ∈ [Instr.acqIsfull, .acqStatus, .matchError, .matchIsmatch] ∨
      (∃ idx : BitVec 16, i ∈ [Instr.acqRead idx, .twRead idx, .keyRead idx, .matchLogmag idx]) →
    exec i s = .next t → t = { s with fault := t.fault, result := t.result }

/-- R130 to R133, R34 to R37: what the ACQ operations leave unchanged. START, RESET and TRIGGER write no byte of
BUF; SAMPLE none but those of element CURSOR, and none when FULL = 1; RESET and SAMPLE keep what R35 and R36
say. -/
def Obligations.AcqOperationsKeepTheRest : Prop :=
  (∀ (i : Instr) (s t : State), i = .acqStart ∨ i = .acqReset ∨ i = .acqTrigger → exec i s = .next t →
    t = { s with cursor := t.cursor, full := t.full, collecting := t.collecting, armed := t.armed,
                 fault := t.fault, result := none }) ∧
  (∀ s t : State, exec .acqReset s = .next t → t.armed = s.armed) ∧
  (∀ (v8 : BitVec 8) (s t : State), exec (.acqSample v8) s = .next t →
    t = { s with buf := t.buf, cursor := t.cursor, full := t.full, armed := t.armed, result := none } ∧
    (s.full = true → t.buf = s.buf) ∧
    ∀ a : Nat, a ≠ 2 * s.cursor.toNat → a ≠ 2 * s.cursor.toNat + 1 → t.buf.read a = s.buf.read a)

/-- R166 to R168, R72: the FFT operations write no flag and nothing outside BUF's N elements; FFT.BFLY nothing
outside its two elements. -/
def Obligations.FftOperationsKeepTheRest : Prop :=
  (∀ (i : Instr) (s t : State),
    i = .fftTransform ∨ (∃ p4 : BitVec 4, i = .fftPass p4) ∨
      (∃ (p4 : BitVec 4) (k : BitVec 16), i = .fftBfly p4 k) → exec i s = .next t →
    t = { s with buf := t.buf, fault := t.fault, result := none } ∧
    ∀ a : Nat, 2 * s.cfg.n ≤ a → t.buf.read a = s.buf.read a) ∧
  (∀ (p4 : BitVec 4) (k : BitVec 16) (s t : State), exec (.fftBfly p4 k) s = .next t →
    ∀ a : Nat, a ≠ 2 * k.toNat → a ≠ 2 * k.toNat + 1 →
      a ≠ 2 * (k.toNat + s.cfg.stride p4.toNat) → a ≠ 2 * (k.toNat + s.cfg.stride p4.toNat) + 1 →
      t.buf.read a = s.buf.read a)

/-- R239 and R231 to R234: what a tick leaves unchanged, state by state. -/
def Obligations.TicksKeepTheRest : Prop :=
  ∀ s t : State, exec .fsmTick s = .next t →
    (s.fsm = .stateInit ∨ s.fsm = .stateOpen →
      t = { s with fsm := t.fsm, out := t.out, answers := t.answers, draws := t.draws, result := none }) ∧
    (s.fsm = .stateAnalyze →
      t = { s with fsm := t.fsm, buf := t.buf, fault := t.fault, result := none } ∧
      ∀ a : Nat, 2 * s.cfg.n ≤ a → t.buf.read a = s.buf.read a) ∧
    (s.fsm = .stateReset →
      t = { s with fsm := t.fsm, out := t.out, cursor := t.cursor, full := t.full,
                   collecting := t.collecting, armed := t.armed, fault := t.fault, result := none } ∧
      (s.cfg.acqMode = .triggered → t.armed = s.armed))

/-! ## Rules of the whole machine -/

/-- R33 to R37, R40, R47, R49, R75, R77, R264: which operations write which element of the state, over all
operations; while FULL = 1 no sample writes BUF. -/
def Obligations.OnlyTheNamedOperationsWrite : Prop :=
  ∀ (i : Instr) (s t : State), exec i s = .next t →
    (t.fsm ≠ s.fsm → i = .fsmTick ∨ i = .sysReset) ∧
    (t.armed ≠ s.armed → i = .acqStart ∨ i = .acqTrigger ∨ (∃ v, i = .acqSample v) ∨ i = .sysReset ∨
      (i = .fsmTick ∧ s.fsm = .stateReset ∧ s.cfg.acqMode = .freeRunning)) ∧
    (t.collecting ≠ s.collecting → i = .acqStart ∨ i = .acqReset ∨ i = .acqTrigger ∨ i = .sysReset ∨
      (i = .fsmTick ∧ s.fsm = .stateReset)) ∧
    (t.full ≠ s.full ∨ t.cursor ≠ s.cursor → i = .acqStart ∨ i = .acqReset ∨ i = .acqTrigger ∨
      (∃ v, i = .acqSample v) ∨ i = .sysReset ∨ (i = .fsmTick ∧ s.fsm = .stateReset)) ∧
    (t.buf ≠ s.buf → ((∃ v, i = .acqSample v) ∧ s.full = false) ∨ (∃ p4 k, i = .fftBfly p4 k) ∨
      (∃ p4, i = .fftPass p4) ∨ i = .fftTransform ∨ i = .sysReset ∨ (i = .fsmTick ∧ s.fsm = .stateAnalyze)) ∧
    (t.out ≠ s.out → (i = .fsmTick ∧ s.fsm ≠ .stateAnalyze) ∨ (∃ v, i = .proxPoll v) ∨ i = .actOpen ∨
      i = .actClose) ∧
    (t.phase ≠ s.phase → i = .sysReset) ∧
    t.cfg = s.cfg ∧ t.inbox = s.inbox

/-- R22, R283: an operation that newly records a fault writes nothing else: no block state, no event, no
returned value. -/
def Obligations.AFaultWritesOnlyItsCode : Prop :=
  ∀ (i : Instr) (s t : State), exec i s = .next t → t.fault ≠ s.fault →
    s.fault = none ∧ t = { s with fault := t.fault, result := none }

/-- R46, R283, R49, R47: through every step, FAULT keeps its first code, OUT only grows, and the parameters
never change. -/
def Obligations.StepsKeepFaultOutAndParameters : Prop :=
  ∀ s t : State, step s = .next t →
    (∀ c : FaultCode, s.fault = some c → t.fault = some c) ∧
    (∃ more : List OutEvent, t.out = s.out ++ more) ∧
    t.cfg = s.cfg

/-- Every operation has its effect: none is refused, and the machine stops only at a BUF element that holds no
value while FULL = 1 (R80), or at ACQ.SAMPLE with FULL = 0 and CURSOR ≥ N. The stops are the model's choice
(log 9, log 10). -/
def Obligations.OperationsStopOnlyAtMissingElements : Prop :=
  ∀ (i : Instr) (s : State),
    (∀ r : Refusal, exec i s ≠ .refused r) ∧
    (∀ j : Nat, exec i s = .fault (.bufUnwritten j) → s.full = true ∧ j < s.cfg.n ∧ s.elem? j = none) ∧
    (∀ j : Nat, exec i s = .fault (.bufOutside j) →
      (∃ v8 : BitVec 8, i = .acqSample v8) ∧ s.full = false ∧ j = s.cursor.toNat ∧ s.cfg.n ≤ j)

/-! ## Invariants -/

/-- R48, R321: both invariants hold right after reset, for every instance of the block. -/
def Obligations.InvariantsHoldAtReset : Prop :=
  ∀ c : Config, (State.resetOf c).Inv ∧ (State.resetOf c).RunInv ∧ (State.resetOf c).Unfaulted

/-- R48 (I1), (I2), (I3), (I6), R37, R80: every step, whoever takes it, keeps the invariant. -/
def Obligations.EveryStepKeepsInv : Prop :=
  ∀ s t : State, s.Inv → step s = .next t → t.Inv

/-- R80: from a state with the invariant no step reads an unwritten element or leaves BUF. -/
def Obligations.NoStepFromInvStopsTheMachine : Prop :=
  ∀ (s : State) (f : Fault), s.Inv → step s ≠ .fault f

/-- R48 (I4), (I5), R83, R284: in the assembled block (events of the loop, the sampler, the trigger source, and
resets) every step keeps I4 and I5 and raises no fault. -/
def Obligations.AssembledBlockNeverFaults : Prop :=
  ∀ s t : State, s.Inv → s.RunInv → (nextEvent s).assembled = true → step s = .next t →
    t.RunInv ∧ (s.Unfaulted → t.Unfaulted)
end

