-- ==== Sys2Proof/Laws/Memory.lean ====
section
/-! SUPPORT. The laws of BUF: a read after a write, the canonical form kept, and the elements that an element
write leaves. -/

namespace Sys2Proof.Machine

@[simp] theorem Memory.read_nil (a : Nat) : Memory.read [] a = none := rfl

/-- A write gives its own address the value written. -/
@[simp] theorem Memory.read_write_self (m : Memory) (a : Nat) (v : Byte) :
    (Memory.write m a v).read a = some v := by
  induction m with
  | nil => simp [Memory.write, Memory.read]
  | cons cell m ih =>
    obtain ⟨b, w⟩ := cell
    simp only [Memory.write]
    split
    · simp [Memory.read]
    · split
      · simp [Memory.read]
      · simp only [Memory.read]
        rw [if_neg (by omega), ih]

/-- A write leaves every other address alone. -/
theorem Memory.read_write_other (m : Memory) {a a' : Nat} (v : Byte) (h : a' ≠ a) :
    (Memory.write m a v).read a' = Memory.read m a' := by
  induction m with
  | nil => simp [Memory.write, Memory.read, Ne.symm h]
  | cons cell m ih =>
    obtain ⟨b, w⟩ := cell
    simp only [Memory.write]
    split
    · simp [Memory.read, Ne.symm h]
    · split
      · subst_vars; simp [Memory.read, Ne.symm h]
      · simp only [Memory.read, ih]

/-- A read after a write, in one equation. -/
theorem Memory.read_write (m : Memory) (a a' : Nat) (v : Byte) :
    (Memory.write m a v).read a' = if a' = a then some v else Memory.read m a' := by
  split
  · subst_vars; simp
  · exact Memory.read_write_other m v ‹_›

/-- A write takes no value away. -/
theorem Memory.isSome_read_write (m : Memory) (a a' : Nat) (v : Byte)
    (h : (Memory.read m a').isSome = true) : ((Memory.write m a v).read a').isSome = true := by
  rw [Memory.read_write]
  split <;> simp [h]

theorem Memory.risingFrom_mono {lo lo' : Nat} (m : Memory) (hle : lo' ≤ lo)
    (h : Memory.risingFrom lo m = true) : Memory.risingFrom lo' m = true := by
  cases m with
  | nil => rfl
  | cons cell m =>
    simp only [Memory.risingFrom, Bool.and_eq_true, decide_eq_true_eq] at h ⊢
    exact ⟨by omega, h.2⟩

theorem Memory.risingFrom_write (m : Memory) {lo a : Nat} (v : Byte) (hle : lo ≤ a)
    (h : Memory.risingFrom lo m = true) : Memory.risingFrom lo (Memory.write m a v) = true := by
  induction m generalizing lo with
  | nil => simp [Memory.write, Memory.risingFrom, hle]
  | cons cell m ih =>
    obtain ⟨b, w⟩ := cell
    simp only [Memory.risingFrom, Bool.and_eq_true, decide_eq_true_eq] at h
    simp only [Memory.write]
    split
    · simp only [Memory.risingFrom, Bool.and_eq_true, decide_eq_true_eq]
      exact ⟨hle, by omega, h.2⟩
    · split
      · subst_vars
        simp only [Memory.risingFrom, Bool.and_eq_true, decide_eq_true_eq]
        exact ⟨hle, h.2⟩
      · simp only [Memory.risingFrom, Bool.and_eq_true, decide_eq_true_eq]
        exact ⟨h.1, ih (by omega) h.2⟩

/-- Every write keeps the canonical form. -/
theorem Memory.wf_write (m : Memory) (a : Nat) (v : Byte) (h : Memory.wf m = true) :
    Memory.wf (Memory.write m a v) = true :=
  Memory.risingFrom_write m v (Nat.zero_le a) h

/-- The memory of a machine right after reset has the canonical form. -/
theorem Memory.wf_nil : Memory.wf [] = true := rfl

/-- A cell of a written memory is an old one or the one written. -/
theorem Memory.mem_write {m : Memory} {a : Nat} {v : Byte} {cell : Host.Cell}
    (h : cell ∈ Memory.write m a v) : cell ∈ m ∨ cell = (a, v) := by
  induction m with
  | nil => simpa [Memory.write] using h
  | cons c m ih =>
    obtain ⟨b, w⟩ := c
    simp only [Memory.write] at h
    split at h
    · rcases List.mem_cons.1 h with rfl | h
      · exact .inr rfl
      · exact .inl h
    · split at h
      · rcases List.mem_cons.1 h with rfl | h
        · exact .inr rfl
        · exact .inl (List.mem_cons_of_mem _ h)
      · rcases List.mem_cons.1 h with rfl | h
        · exact .inl List.mem_cons_self
        · exact (ih h).imp (List.mem_cons_of_mem _) id

/-- A read below every listed address finds nothing. -/
theorem Memory.read_below (m : Memory) {lo a : Nat} (h : Memory.risingFrom lo m = true) (ha : a < lo) :
    Memory.read m a = none := by
  induction m generalizing lo with
  | nil => rfl
  | cons cell m ih =>
    obtain ⟨b, w⟩ := cell
    simp only [Memory.risingFrom, Bool.and_eq_true, decide_eq_true_eq] at h
    simp only [Memory.read]
    rw [if_neg (by omega)]
    exact ih h.2 (by omega)

theorem Memory.ext_from {m m' : Memory} {lo : Nat} (h : Memory.risingFrom lo m = true)
    (h' : Memory.risingFrom lo m' = true) (hr : ∀ a, Memory.read m a = Memory.read m' a) : m = m' := by
  induction m generalizing m' lo with
  | nil =>
    cases m' with
    | nil => rfl
    | cons cell m' =>
      have := hr cell.1
      simp [Memory.read] at this
  | cons cell m ih =>
    cases m' with
    | nil =>
      have := hr cell.1
      simp [Memory.read] at this
    | cons cell' m' =>
      obtain ⟨b, w⟩ := cell
      obtain ⟨b', w'⟩ := cell'
      simp only [Memory.risingFrom, Bool.and_eq_true, decide_eq_true_eq] at h h'
      have hb : b = b' := by
        rcases Nat.lt_trichotomy b b' with hlt | heq | hgt
        · have := hr b
          simp only [Memory.read, if_pos] at this
          rw [if_neg (by omega), Memory.read_below m' h'.2 (by omega)] at this
          cases this
        · exact heq
        · have := hr b'
          simp only [Memory.read, if_pos] at this
          rw [if_neg (by omega), Memory.read_below m h.2 (by omega)] at this
          cases this
      subst hb
      have hw := hr b
      simp only [Memory.read, if_pos, Option.some.injEq] at hw
      subst hw
      congr 1
      refine ih h.2 h'.2 (fun a => ?_)
      by_cases hab : b = a
      · subst hab
        rw [Memory.read_below m h.2 (by omega), Memory.read_below m' h'.2 (by omega)]
      · simpa [Memory.read, hab] using hr a

/-- Two memories in canonical form that read alike are equal data. -/
theorem Memory.ext_read {m m' : Memory} (h : Memory.wf m = true) (h' : Memory.wf m' = true)
    (hr : ∀ a, Memory.read m a = Memory.read m' a) : m = m' :=
  Memory.ext_from h h' hr

/-! ### elements -/

/-- BUF with element i written: both its bytes (20_memory.md R71). -/
def State.setElem (s : State) (i : Nat) (z : Cplx) : State :=
  { s with buf := (s.buf.write (2 * i) z.re).write (2 * i + 1) z.im }

@[simp] theorem State.setElem_cfg (s : State) (i : Nat) (z : Cplx) : (s.setElem i z).cfg = s.cfg := rfl
@[simp] theorem State.setElem_full (s : State) (i : Nat) (z : Cplx) : (s.setElem i z).full = s.full := rfl

/-- An element write changes BUF alone. -/
theorem State.setElem_frame (s : State) (i : Nat) (z : Cplx) :
    s.setElem i z = { s with buf := (s.setElem i z).buf } := rfl

/-- An element write leaves every byte outside the element. -/
theorem State.setElem_read (s : State) {i a : Nat} (z : Cplx) (h0 : a ≠ 2 * i) (h1 : a ≠ 2 * i + 1) :
    (s.setElem i z).buf.read a = s.buf.read a := by
  simp only [State.setElem]
  rw [Memory.read_write_other _ _ h1, Memory.read_write_other _ _ h0]

@[simp] theorem State.setElem_elem?_self (s : State) (i : Nat) (z : Cplx) :
    (s.setElem i z).elem? i = some z := by
  have h : (s.setElem i z).buf.read (2 * i) = some z.re := by
    simp only [State.setElem]
    rw [Memory.read_write_other _ _ (by omega), Memory.read_write_self]
  have h' : (s.setElem i z).buf.read (2 * i + 1) = some z.im := by
    simp [State.setElem]
  simp [State.elem?, h, h']

theorem State.setElem_elem?_other (s : State) {i j : Nat} (z : Cplx) (h : j ≠ i) :
    (s.setElem i z).elem? j = s.elem? j := by
  unfold State.elem?
  rw [State.setElem_read _ _ (by omega) (by omega), State.setElem_read _ _ (by omega) (by omega)]

theorem State.setElem_elem? (s : State) (i j : Nat) (z : Cplx) :
    (s.setElem i z).elem? j = if j = i then some z else s.elem? j := by
  split
  · subst_vars; simp
  · exact State.setElem_elem?_other s z ‹_›

theorem State.setElem_elem (s : State) (i j : Nat) (z : Cplx) :
    (s.setElem i z).elem j = if j = i then z else s.elem j := by
  unfold State.elem
  rw [State.setElem_elem?]
  split <;> rfl

theorem State.elem_of_elem? {s : State} {i : Nat} {z : Cplx} (h : s.elem? i = some z) :
    s.elem i = z := by
  simp [State.elem, h]

theorem State.elem?_eq_some_elem {s : State} {i : Nat} (h : (s.elem? i).isSome = true) :
    s.elem? i = some (s.elem i) := by
  obtain ⟨z, hz⟩ := Option.isSome_iff_exists.1 h
  rw [hz, State.elem_of_elem? hz]

/-- An element holds a value exactly when both its bytes do. -/
theorem State.elem?_isSome (s : State) (i : Nat) :
    (s.elem? i).isSome = ((s.buf.read (2 * i)).isSome && (s.buf.read (2 * i + 1)).isSome) := by
  unfold State.elem?
  cases s.buf.read (2 * i) <;> cases s.buf.read (2 * i + 1) <;> rfl

/-- Elements are read from BUF alone. -/
theorem State.elem?_congr {s t : State} (h : t.buf = s.buf) (i : Nat) : t.elem? i = s.elem? i := by
  simp [State.elem?, h]

theorem State.elem_congr {s t : State} (h : t.buf = s.buf) (i : Nat) : t.elem i = s.elem i := by
  simp [State.elem, State.elem?_congr h]

end Sys2Proof.Machine
end

