-- ==== Sys2Proof/Laws/State.lean ====
section
/-! SUPPORT. One lemma per field for each named update of State: raising a fault, emitting an event, returning
a value, drawing and polling, taking an event from the inbox. -/

namespace Sys2Proof.Machine

variable (s : State)

/-! ### raise -/

@[simp] theorem State.raise_cfg (c : FaultCode) : (s.raise c).cfg = s.cfg := rfl
@[simp] theorem State.raise_fsm (c : FaultCode) : (s.raise c).fsm = s.fsm := rfl
@[simp] theorem State.raise_full (c : FaultCode) : (s.raise c).full = s.full := rfl
@[simp] theorem State.raise_collecting (c : FaultCode) : (s.raise c).collecting = s.collecting := rfl
@[simp] theorem State.raise_armed (c : FaultCode) : (s.raise c).armed = s.armed := rfl
@[simp] theorem State.raise_cursor (c : FaultCode) : (s.raise c).cursor = s.cursor := rfl
@[simp] theorem State.raise_buf (c : FaultCode) : (s.raise c).buf = s.buf := rfl
@[simp] theorem State.raise_phase (c : FaultCode) : (s.raise c).phase = s.phase := rfl
@[simp] theorem State.raise_fault (c : FaultCode) : (s.raise c).fault = s.fault.or (some c) := rfl
@[simp] theorem State.raise_out (c : FaultCode) : (s.raise c).out = s.out := rfl
@[simp] theorem State.raise_result (c : FaultCode) : (s.raise c).result = none := rfl
@[simp] theorem State.raise_inbox (c : FaultCode) : (s.raise c).inbox = s.inbox := rfl
@[simp] theorem State.raise_answers (c : FaultCode) : (s.raise c).answers = s.answers := rfl
@[simp] theorem State.raise_draws (c : FaultCode) : (s.raise c).draws = s.draws := rfl

/-- The first fault code of a run stays (60_exceptions.md R283). -/
theorem State.raise_keeps_first (c d : FaultCode) (h : s.fault = some d) :
    (s.raise c).fault = some d := by
  simp [h]

/-! ### emit -/

@[simp] theorem State.emit_cfg (e : OutEvent) : (s.emit e).cfg = s.cfg := rfl
@[simp] theorem State.emit_fsm (e : OutEvent) : (s.emit e).fsm = s.fsm := rfl
@[simp] theorem State.emit_full (e : OutEvent) : (s.emit e).full = s.full := rfl
@[simp] theorem State.emit_collecting (e : OutEvent) : (s.emit e).collecting = s.collecting := rfl
@[simp] theorem State.emit_armed (e : OutEvent) : (s.emit e).armed = s.armed := rfl
@[simp] theorem State.emit_cursor (e : OutEvent) : (s.emit e).cursor = s.cursor := rfl
@[simp] theorem State.emit_buf (e : OutEvent) : (s.emit e).buf = s.buf := rfl
@[simp] theorem State.emit_phase (e : OutEvent) : (s.emit e).phase = s.phase := rfl
@[simp] theorem State.emit_fault (e : OutEvent) : (s.emit e).fault = s.fault := rfl
@[simp] theorem State.emit_out (e : OutEvent) : (s.emit e).out = s.out ++ [e] := rfl
@[simp] theorem State.emit_result (e : OutEvent) : (s.emit e).result = s.result := rfl
@[simp] theorem State.emit_inbox (e : OutEvent) : (s.emit e).inbox = s.inbox := rfl
@[simp] theorem State.emit_answers (e : OutEvent) : (s.emit e).answers = s.answers := rfl
@[simp] theorem State.emit_draws (e : OutEvent) : (s.emit e).draws = s.draws := rfl

/-! ### returns -/

@[simp] theorem State.returns_cfg (r : Option Result) : (s.returns r).cfg = s.cfg := rfl
@[simp] theorem State.returns_fsm (r : Option Result) : (s.returns r).fsm = s.fsm := rfl
@[simp] theorem State.returns_full (r : Option Result) : (s.returns r).full = s.full := rfl
@[simp] theorem State.returns_collecting (r : Option Result) :
    (s.returns r).collecting = s.collecting := rfl
@[simp] theorem State.returns_armed (r : Option Result) : (s.returns r).armed = s.armed := rfl
@[simp] theorem State.returns_cursor (r : Option Result) : (s.returns r).cursor = s.cursor := rfl
@[simp] theorem State.returns_buf (r : Option Result) : (s.returns r).buf = s.buf := rfl
@[simp] theorem State.returns_phase (r : Option Result) : (s.returns r).phase = s.phase := rfl
@[simp] theorem State.returns_fault (r : Option Result) : (s.returns r).fault = s.fault := rfl
@[simp] theorem State.returns_out (r : Option Result) : (s.returns r).out = s.out := rfl
@[simp] theorem State.returns_result (r : Option Result) : (s.returns r).result = r := rfl
@[simp] theorem State.returns_inbox (r : Option Result) : (s.returns r).inbox = s.inbox := rfl
@[simp] theorem State.returns_answers (r : Option Result) : (s.returns r).answers = s.answers := rfl
@[simp] theorem State.returns_draws (r : Option Result) : (s.returns r).draws = s.draws := rfl

/-! ### draw and poll -/

/-- A draw changes the two fields of the environment's answers and nothing else. -/
theorem State.draw_frame :
    s.draw.2 = { s with answers := s.draw.2.answers, draws := s.draw.2.draws } := by
  unfold State.draw
  split <;> rfl

@[simp] theorem State.poll_answer : s.poll.1 = s.draw.1 := rfl

/-- A poll draws and emits its event, and changes nothing else (44_external.md R261). -/
theorem State.poll_frame :
    s.poll.2 = { s with
      answers := s.poll.2.answers
      draws := s.poll.2.draws
      out := s.out ++ [.proxPoll s.poll.1] } := by
  unfold State.poll State.emit
  rw [State.draw_frame]

@[simp] theorem State.poll_cfg : s.poll.2.cfg = s.cfg := by rw [State.poll_frame]
@[simp] theorem State.poll_fsm : s.poll.2.fsm = s.fsm := by rw [State.poll_frame]
@[simp] theorem State.poll_full : s.poll.2.full = s.full := by rw [State.poll_frame]
@[simp] theorem State.poll_collecting : s.poll.2.collecting = s.collecting := by rw [State.poll_frame]
@[simp] theorem State.poll_armed : s.poll.2.armed = s.armed := by rw [State.poll_frame]
@[simp] theorem State.poll_cursor : s.poll.2.cursor = s.cursor := by rw [State.poll_frame]
@[simp] theorem State.poll_buf : s.poll.2.buf = s.buf := by rw [State.poll_frame]
@[simp] theorem State.poll_phase : s.poll.2.phase = s.phase := by rw [State.poll_frame]
@[simp] theorem State.poll_fault : s.poll.2.fault = s.fault := by rw [State.poll_frame]
@[simp] theorem State.poll_result : s.poll.2.result = s.result := by rw [State.poll_frame]
@[simp] theorem State.poll_inbox : s.poll.2.inbox = s.inbox := by rw [State.poll_frame]
@[simp] theorem State.poll_out : s.poll.2.out = s.out ++ [.proxPoll s.draw.1] := by
  rw [State.poll_frame]; rfl

/-! ### the inbox -/

@[simp] theorem State.popped_cfg : s.popped.cfg = s.cfg := rfl
@[simp] theorem State.popped_fsm : s.popped.fsm = s.fsm := rfl
@[simp] theorem State.popped_full : s.popped.full = s.full := rfl
@[simp] theorem State.popped_collecting : s.popped.collecting = s.collecting := rfl
@[simp] theorem State.popped_armed : s.popped.armed = s.armed := rfl
@[simp] theorem State.popped_cursor : s.popped.cursor = s.cursor := rfl
@[simp] theorem State.popped_buf : s.popped.buf = s.buf := rfl
@[simp] theorem State.popped_phase : s.popped.phase = s.phase := rfl
@[simp] theorem State.popped_fault : s.popped.fault = s.fault := rfl
@[simp] theorem State.popped_out : s.popped.out = s.out := rfl
@[simp] theorem State.popped_result : s.popped.result = s.result := rfl
@[simp] theorem State.popped_inbox : s.popped.inbox = s.inbox.tail := rfl
@[simp] theorem State.popped_answers : s.popped.answers = s.answers := rfl
@[simp] theorem State.popped_draws : s.popped.draws = s.draws := rfl

@[simp] theorem State.pushed_popped (e : Event) : (s.pushed e).popped = s := rfl

@[simp] theorem nextEvent_pushed (e : Event) : nextEvent (s.pushed e) = e := rfl

end Sys2Proof.Machine
end

