-- ==== Sys2Proof/Laws/Ops.lean ====
section
/-! SUPPORT. One lemma per shared operation that says everything it can do: sequencing, the element accesses,
and the two ways an operation ends. -/

namespace Sys2Proof.Machine

/-- A sequence of two parts succeeds exactly when both do. -/
theorem bind_ok {ε α β : Type} {x : Except ε α} {f : α → Except ε β} {b : β} :
    x >>= f = .ok b ↔ ∃ a, x = .ok a ∧ f a = .ok b := by
  cases x with
  | error e => simp [bind, Except.bind]
  | ok a => simp [bind, Except.bind]

/-- A sequence of two parts stops where the first does, or else where the second does. -/
theorem bind_error {ε α β : Type} {x : Except ε α} {f : α → Except ε β} {e : ε} :
    x >>= f = .error e ↔ x = .error e ∨ ∃ a, x = .ok a ∧ f a = .error e := by
  cases x with
  | error e' => simp [bind, Except.bind]
  | ok a => simp [bind, Except.bind]

@[simp] theorem ok_bind {ε α β : Type} (a : α) (f : α → Except ε β) :
    (Except.ok a : Except ε α) >>= f = f a := rfl

@[simp] theorem error_bind {ε α β : Type} (e : ε) (f : α → Except ε β) :
    (Except.error e : Except ε α) >>= f = Except.error e := rfl

/-- Reading an element that exists and holds a value. -/
theorem readElem_of_some {s : State} {i : Nat} {z : Cplx} (hi : i < s.cfg.n) (h : s.elem? i = some z) :
    readElem s i = .ok z := by
  unfold State.elem? at h
  unfold readElem
  rw [if_pos hi]
  cases h0 : s.buf.read (2 * i) <;> cases h1 : s.buf.read (2 * i + 1) <;> simp_all

/-- Everything an element read can do. -/
theorem readElem_cases (s : State) (i : Nat) :
    (∃ z, i < s.cfg.n ∧ s.elem? i = some z ∧ readElem s i = .ok z) ∨
    (i < s.cfg.n ∧ s.elem? i = none ∧ readElem s i = .error (.halt (.bufUnwritten i))) ∨
    (s.cfg.n ≤ i ∧ readElem s i = .error (.halt (.bufOutside i))) := by
  by_cases hi : i < s.cfg.n
  · cases h : s.elem? i with
    | some z => exact .inl ⟨z, hi, rfl, readElem_of_some hi h⟩
    | none =>
      refine .inr (.inl ⟨hi, rfl, ?_⟩)
      unfold State.elem? at h
      unfold readElem
      rw [if_pos hi]
      cases h0 : s.buf.read (2 * i) <;> cases h1 : s.buf.read (2 * i + 1) <;> simp_all
  · exact .inr (.inr ⟨by omega, by simp [readElem, hi]⟩)

theorem readElem_ok {s : State} {i : Nat} {z : Cplx} :
    readElem s i = .ok z ↔ i < s.cfg.n ∧ s.elem? i = some z := by
  constructor
  · intro h
    rcases readElem_cases s i with ⟨z', hi, hz, hr⟩ | ⟨_, _, hr⟩ | ⟨_, hr⟩
    · rw [hr] at h; cases h; exact ⟨hi, hz⟩
    · rw [hr] at h; cases h
    · rw [hr] at h; cases h
  · exact fun h => readElem_of_some h.1 h.2

/-- An element write inside BUF sets that element. -/
theorem writeElem_of_lt {s : State} {i : Nat} (z : Cplx) (hi : i < s.cfg.n) :
    writeElem s i z = .ok (s.setElem i z) := by
  simp [writeElem, hi, State.setElem]

theorem writeElem_ok {s t : State} {i : Nat} {z : Cplx} :
    writeElem s i z = .ok t ↔ i < s.cfg.n ∧ t = s.setElem i z := by
  unfold writeElem
  split
  · rename_i hi
    constructor
    · intro h; cases h; exact ⟨hi, rfl⟩
    · rintro ⟨-, rfl⟩; rfl
  · rename_i hi
    constructor
    · intro h; cases h
    · exact fun h => absurd h.1 hi

/-- How a command ends in a next state: it succeeded and returns no value, or it raised a model fault. -/
theorem command_next {s t : State} {x : Except Stop State} :
    command s x = .next t ↔
      (∃ u, x = .ok u ∧ t = u.returns none) ∨ (∃ c, x = .error (.raise c) ∧ t = s.raise c) := by
  rcases x with (⟨c⟩ | ⟨f⟩) | u <;> simp [command, eq_comm]

/-- How a query ends in a next state: its value is returned, or it raised a model fault. -/
theorem query_next {s t : State} {x : Except Stop Result} :
    query s x = .next t ↔
      (∃ r, x = .ok r ∧ t = s.returns (some r)) ∨ (∃ c, x = .error (.raise c) ∧ t = s.raise c) := by
  rcases x with (⟨c⟩ | ⟨f⟩) | u <;> simp [query, eq_comm]

/-- A command stops the machine exactly where its body does. -/
theorem command_fault {s : State} {x : Except Stop State} {f : Fault} :
    command s x = .fault f ↔ x = .error (.halt f) := by
  rcases x with (⟨c⟩ | ⟨f'⟩) | u <;> simp [command]

theorem query_fault {s : State} {x : Except Stop Result} {f : Fault} :
    query s x = .fault f ↔ x = .error (.halt f) := by
  rcases x with (⟨c⟩ | ⟨f'⟩) | u <;> simp [query]

/-- No command is refused. -/
theorem command_not_refused (s : State) (x : Except Stop State) (r : Refusal) :
    command s x ≠ .refused r := by
  rcases x with (⟨c⟩ | ⟨f⟩) | u <;> simp [command]

theorem query_not_refused (s : State) (x : Except Stop Result) (r : Refusal) :
    query s x ≠ .refused r := by
  rcases x with (⟨c⟩ | ⟨f⟩) | u <;> simp [query]

end Sys2Proof.Machine
end

