-- ==== Sys2Proof/Laws/Acq.lean ====
section
/-! SUPPORT. Everything each acquisition operation can do, one lemma per operation (40_acquisition.md R130 to
R133, R136). -/

namespace Sys2Proof

/-- N is at most 1024 (00_scope.md R10). -/
theorem Config.n_le (c : Config) : c.n ≤ 1024 := by
  have h := c.log2N_range.2
  calc c.n ≤ 2 ^ 10 := Nat.pow_le_pow_right (by decide) h
    _ = 1024 := rfl

end Sys2Proof

namespace Sys2Proof.Machine

theorem startHazard_iff {s : State} : s.startHazard = true ↔ s.collecting = true ∧ s.full = false := by
  simp [State.startHazard]

/-- ACQ.START faults exactly on its hazard, and otherwise writes its four elements. -/
theorem opAcqStart_cases (s : State) :
    (s.startHazard = true ∧ opAcqStart s = .error (.raise .startCollecting)) ∨
    (s.startHazard = false ∧ opAcqStart s =
      .ok { s with cursor := 0, full := false, collecting := true, armed := true }) := by
  unfold opAcqStart
  cases h : s.startHazard <;> simp

theorem opAcqStart_ok {s t : State} :
    opAcqStart s = .ok t ↔ s.startHazard = false ∧
      t = { s with cursor := 0, full := false, collecting := true, armed := true } := by
  rcases opAcqStart_cases s with ⟨h, h'⟩ | ⟨h, h'⟩ <;> simp [h, h', eq_comm]

/-- ACQ.RESET faults exactly while ARMED, and otherwise clears its three elements. -/
theorem opAcqReset_cases (s : State) :
    (s.armed = true ∧ opAcqReset s = .error (.raise .resetArmed)) ∨
    (s.armed = false ∧ opAcqReset s =
      .ok { s with cursor := 0, full := false, collecting := false }) := by
  unfold opAcqReset State.resetHazard
  cases h : s.armed <;> simp

theorem opAcqReset_ok {s t : State} :
    opAcqReset s = .ok t ↔ s.armed = false ∧
      t = { s with cursor := 0, full := false, collecting := false } := by
  rcases opAcqReset_cases s with ⟨h, h'⟩ | ⟨h, h'⟩ <;> simp [h, h', eq_comm]

/-- The state after a stored sample: the element written, CURSOR up by one, and at the N-th sample ARMED
cleared and FULL set. -/
def State.sampled (s : State) (v8 : BitVec 8) : State :=
  finishSample { s.setElem s.cursor.toNat (sampleElem v8) with cursor := s.cursor + 1 }

/-- ACQ.SAMPLE discards a late sample, stores any other inside BUF, and has nowhere to store one beyond. -/
theorem opAcqSample_cases (v8 : BitVec 8) (s : State) :
    (s.full = true ∧ opAcqSample v8 s = .ok s) ∨
    (s.full = false ∧ s.cursor.toNat < s.cfg.n ∧ opAcqSample v8 s = .ok (s.sampled v8)) ∨
    (s.full = false ∧ s.cfg.n ≤ s.cursor.toNat ∧
      opAcqSample v8 s = .error (.halt (.bufOutside s.cursor.toNat))) := by
  unfold opAcqSample
  cases hf : s.full
  · by_cases hc : s.cursor.toNat < s.cfg.n
    · refine .inr (.inl ⟨rfl, hc, ?_⟩)
      rw [writeElem_of_lt _ hc]
      rfl
    · refine .inr (.inr ⟨rfl, by omega, ?_⟩)
      simp only [writeElem, if_neg hc, error_bind]
      rfl
  · exact .inl ⟨rfl, rfl⟩

theorem finishSample_frame (s : State) :
    finishSample s = { s with
      armed := if s.cursor.toNat = s.cfg.n then false else s.armed
      full := if s.cursor.toNat = s.cfg.n then true else s.full } := by
  unfold finishSample
  split <;> rfl

/-- CURSOR counts to N without a wrap: its 11 bits hold every count up to 1024. -/
theorem cursor_succ {s : State} (h : s.cursor.toNat < s.cfg.n) :
    (s.cursor + 1).toNat = s.cursor.toNat + 1 := by
  have := s.cfg.n_le
  simp [BitVec.toNat_add]
  omega

/-- A stored sample, field by field. -/
theorem State.sampled_eq (s : State) (v8 : BitVec 8) (hf : s.full = false)
    (hc : s.cursor.toNat < s.cfg.n) :
    s.sampled v8 = { s with
      buf := (s.setElem s.cursor.toNat (sampleElem v8)).buf
      cursor := s.cursor + 1
      armed := if s.cursor.toNat + 1 = s.cfg.n then false else s.armed
      full := decide (s.cursor.toNat + 1 = s.cfg.n) } := by
  unfold State.sampled
  rw [finishSample_frame, State.setElem_frame]
  dsimp only
  rw [cursor_succ hc, hf]
  by_cases h : s.cursor.toNat + 1 = s.cfg.n <;> simp [h]

/-- ACQ.TRIGGER starts a collection in TRIGGERED mode while COLLECTING = 0, and otherwise writes nothing. It
never faults. -/
theorem opAcqTrigger_cases (s : State) :
    (s.cfg.acqMode = .triggered ∧ s.collecting = false ∧ opAcqTrigger s =
      .ok { s with cursor := 0, full := false, collecting := true, armed := true }) ∨
    ((s.cfg.acqMode = .freeRunning ∨ s.collecting = true) ∧ opAcqTrigger s = .ok s) := by
  unfold opAcqTrigger
  cases hm : s.cfg.acqMode
  · cases hc : s.collecting
    · exact .inl ⟨rfl, rfl, opAcqStart_ok.2 ⟨by simp [State.startHazard, hc], rfl⟩⟩
    · exact .inr ⟨.inr rfl, rfl⟩
  · exact .inr ⟨.inl rfl, rfl⟩

/-- The element read of ACQ.READ and MATCH.LOGMAG: F_INDEX, then F_NOT_FULL, then the element. -/
theorem readFull_cases (idx : BitVec 16) (s : State) :
    (s.cfg.n ≤ idx.toNat ∧ readFull idx s = .error (.raise .index)) ∨
    (idx.toNat < s.cfg.n ∧ s.full = false ∧ readFull idx s = .error (.raise .notFull)) ∨
    (idx.toNat < s.cfg.n ∧ s.full = true ∧ readFull idx s = readElem s idx.toNat) := by
  unfold readFull
  by_cases h : idx.toNat < s.cfg.n
  · cases hf : s.full
    · exact .inr (.inl ⟨h, rfl, by simp [indexOk, elemIndex, h]⟩)
    · exact .inr (.inr ⟨h, rfl, by simp [indexOk, elemIndex, h]⟩)
  · exact .inl ⟨by omega, by simp [indexOk, elemIndex, h]⟩

end Sys2Proof.Machine
end

