-- ==== Sys2Proof/Laws/Fft.lean ====
section
/-! SUPPORT. What the operations of the transform engine can do: the one relation that says they write BUF and
nothing else, the butterfly as two element writes, and a list of butterflies of one pass. -/

namespace Sys2Proof

/-! ### the sizes -/

theorem Config.n_pos (c : Config) : 0 < c.n := Nat.two_pow_pos _

/-- The stride is halved from pass to pass (00_scope.md R15). -/
theorem Config.stride_succ (c : Config) (p : Nat) : c.stride (p + 1) = c.stride p / 2 := by
  unfold Config.stride
  rw [Nat.shiftRight_succ]

theorem Config.stride_zero (c : Config) : c.stride 0 = c.half := by
  unfold Config.stride Config.half
  rw [Nat.shiftRight_succ, Nat.shiftRight_zero]

theorem Config.two_half (c : Config) : 2 * c.half = c.n := by
  have h := c.log2N_range.1
  unfold Config.half Config.n
  obtain ⟨m, hm⟩ := Nat.exists_eq_add_of_le h
  rw [hm, Nat.pow_add]
  omega

theorem Config.stride_eq (c : Config) (p : Nat) (hp : p < c.log2N) :
    c.stride p = 2 ^ (c.log2N - p - 1) := by
  unfold Config.stride Config.n
  rw [Nat.shiftRight_eq_div_pow, Nat.pow_div (by omega) (by omega), Nat.sub_sub]

theorem Config.stride_pos (c : Config) (p : Nat) (hp : p < c.log2N) : 0 < c.stride p := by
  rw [c.stride_eq p hp]; exact Nat.two_pow_pos _

/-- A pass has 2^p clusters of 2·s(p) elements (00_scope.md R15). -/
theorem Config.clusters_eq (c : Config) (p : Nat) (hp : p < c.log2N) :
    2 ^ p * (2 * c.stride p) = c.n := by
  rw [c.stride_eq p hp, ← Nat.pow_succ', ← Nat.pow_add]
  unfold Config.n
  congr 1
  omega

theorem Config.n_div_cluster (c : Config) (p : Nat) (hp : p < c.log2N) :
    c.n / (2 * c.stride p) = 2 ^ p := by
  rw [← c.clusters_eq p hp]
  exact Nat.mul_div_cancel _ (by have := c.stride_pos p hp; omega)

/-- The lower element of a butterfly lies in BUF, in the same cluster. -/
theorem Config.lower_lt (c : Config) {p k : Nat} (hp : p < c.log2N) (hk : k < c.n)
    (hu : k % (2 * c.stride p) < c.stride p) : k + c.stride p < c.n := by
  have hs := c.stride_pos p hp
  have hc := c.clusters_eq p hp
  have hq : k / (2 * c.stride p) < 2 ^ p := by
    rw [← c.n_div_cluster p hp]
    exact Nat.div_lt_div_of_lt_of_dvd ⟨2 ^ p, by rw [Nat.mul_comm]; exact hc.symm⟩ hk
  have hk' := Nat.div_add_mod k (2 * c.stride p)
  have : (k / (2 * c.stride p) + 1) * (2 * c.stride p) ≤ c.n := by
    rw [← hc]; exact Nat.mul_le_mul_right _ hq
  rw [Nat.add_mul, Nat.one_mul, Nat.mul_comm] at this
  omega

end Sys2Proof

namespace Sys2Proof.Machine

/-! ### writing BUF and nothing else -/

/-- From s to t only elements of BUF have been written. -/
structure WritesBuf (s t : State) : Prop where
  frame : t = { s with buf := t.buf }
  above : ∀ a, 2 * s.cfg.n ≤ a → t.buf.read a = s.buf.read a
  keeps : ∀ a, (s.buf.read a).isSome = true → (t.buf.read a).isSome = true
  wf : Memory.wf s.buf = true → Memory.wf t.buf = true
  inside : (∀ cell ∈ s.buf, cell.1 < 2 * s.cfg.n) → ∀ cell ∈ t.buf, cell.1 < 2 * s.cfg.n

theorem WritesBuf.refl (s : State) : WritesBuf s s :=
  ⟨rfl, fun _ _ => rfl, fun _ h => h, fun h => h, fun h => h⟩

theorem WritesBuf.cfg {s t : State} (h : WritesBuf s t) : t.cfg = s.cfg := by rw [h.frame]
theorem WritesBuf.full {s t : State} (h : WritesBuf s t) : t.full = s.full := by rw [h.frame]

theorem WritesBuf.trans {s t u : State} (h : WritesBuf s t) (h' : WritesBuf t u) : WritesBuf s u := by
  refine ⟨?_, ?_, fun a ha => h'.keeps a (h.keeps a ha), fun hw => h'.wf (h.wf hw), ?_⟩
  · rw [h'.frame, h.frame]
  · intro a ha
    rw [h'.above a (by rw [h.cfg]; exact ha), h.above a ha]
  · intro hi cell hc
    have := h'.inside (by rw [h.cfg]; exact h.inside hi) cell hc
    rwa [h.cfg] at this

theorem WritesBuf.elem?_isSome {s t : State} (h : WritesBuf s t) (i : Nat)
    (hi : (s.elem? i).isSome = true) : (t.elem? i).isSome = true := by
  rw [State.elem?_isSome, Bool.and_eq_true] at hi ⊢
  exact ⟨h.keeps _ hi.1, h.keeps _ hi.2⟩

/-- Setting an element of BUF writes BUF alone. -/
theorem WritesBuf.setElem (s : State) {i : Nat} (z : Cplx) (hi : i < s.cfg.n) :
    WritesBuf s (s.setElem i z) := by
  refine ⟨rfl, ?_, ?_, ?_, ?_⟩
  · intro a ha
    exact State.setElem_read s z (by omega) (by omega)
  · intro a ha
    exact Memory.isSome_read_write _ _ _ _ (Memory.isSome_read_write _ _ _ _ ha)
  · intro h
    exact Memory.wf_write _ _ _ (Memory.wf_write _ _ _ h)
  · intro h cell hc
    rcases Memory.mem_write hc with hc | rfl
    · rcases Memory.mem_write hc with hc | rfl
      · exact h cell hc
      · simp only; omega
    · simp only; omega

/-! ### the butterfly -/

/-- The state after a butterfly of elements a and b (41_transform.md R166). -/
def State.pair (s : State) (stride c k : Nat) : State :=
  (s.setElem k (cadd (s.elem k) (cmul (s.elem (k + stride)) (tw s.cfg c)))).setElem (k + stride)
    (cadd (s.elem k) (cmul (s.elem (k + stride)) (tw s.cfg (c + s.cfg.half))))

theorem State.pair_writesBuf (s : State) {stride k : Nat} (c : Nat) (hk : k < s.cfg.n)
    (hk' : k + stride < s.cfg.n) : WritesBuf s (s.pair stride c k) :=
  (WritesBuf.setElem s _ hk).trans (WritesBuf.setElem _ _ hk')

/-- A butterfly succeeds exactly on two elements of BUF that hold values, and then sets the pair. -/
theorem butterfly_ok {stride c k : Nat} {s t : State} :
    butterfly stride c k s = .ok t ↔
      k < s.cfg.n ∧ k + stride < s.cfg.n ∧ (s.elem? k).isSome = true ∧
      (s.elem? (k + stride)).isSome = true ∧ t = s.pair stride c k := by
  constructor
  · intro h
    obtain ⟨a, ha, h⟩ := bind_ok.1 h
    obtain ⟨b, hb, h⟩ := bind_ok.1 h
    obtain ⟨u, hu, h⟩ := bind_ok.1 h
    obtain ⟨hk, ha⟩ := readElem_ok.1 ha
    obtain ⟨hk', hb⟩ := readElem_ok.1 hb
    obtain ⟨-, rfl⟩ := writeElem_ok.1 hu
    obtain ⟨-, rfl⟩ := writeElem_ok.1 h
    refine ⟨hk, hk', by simp [ha], by simp [hb], ?_⟩
    rw [State.pair, State.elem_of_elem? ha, State.elem_of_elem? hb]
  · rintro ⟨hk, hk', ha, hb, rfl⟩
    have ha := State.elem?_eq_some_elem ha
    have hb := State.elem?_eq_some_elem hb
    simp only [butterfly]
    rw [readElem_of_some hk ha, ok_bind, readElem_of_some hk' hb, ok_bind, writeElem_of_lt _ hk, ok_bind,
      writeElem_of_lt _ (by simpa using hk')]
    rfl

/-- Inside BUF a butterfly stops only at an element that holds no value. -/
theorem butterfly_error {stride c k : Nat} {s : State} {e : Stop} (hk : k < s.cfg.n)
    (hk' : k + stride < s.cfg.n) (h : butterfly stride c k s = .error e) :
    ∃ j, j < s.cfg.n ∧ s.elem? j = none ∧ e = .halt (.bufUnwritten j) := by
  simp only [butterfly] at h
  rcases readElem_cases s k with ⟨a, _, _, hr⟩ | ⟨hj, hn, hr⟩ | ⟨hj, _⟩
  · rw [hr, ok_bind] at h
    rcases readElem_cases s (k + stride) with ⟨b, _, _, hr'⟩ | ⟨hj, hn, hr'⟩ | ⟨hj, _⟩
    · rw [hr', ok_bind, writeElem_of_lt _ hk, ok_bind, writeElem_of_lt _ (by simpa using hk')] at h
      cases h
    · rw [hr', error_bind] at h
      cases h
      exact ⟨_, hj, hn, rfl⟩
    · omega
  · rw [hr, error_bind] at h
    cases h
    exact ⟨_, hj, hn, rfl⟩
  · omega

theorem bflyOk_iff {c : Config} {p k : Nat} :
    bflyOk c p k = true ↔ p < c.log2N ∧ k < c.n ∧ k % (2 * c.stride p) < c.stride p := by
  simp [bflyOk, and_assoc]

/-- FFT.BFLY in range and with FULL = 1 is the butterfly of its element's cluster. -/
theorem opFftBfly_eq {p k : Nat} {s : State} (h : bflyOk s.cfg p k = true) (hf : s.full = true) :
    opFftBfly p k s = butterfly (s.cfg.stride p) (clusterOf s.cfg p k) k s := by
  simp [opFftBfly, h, hf]

/-- Everything FFT.BFLY can do (R166). -/
theorem opFftBfly_cases (p k : Nat) (s : State) :
    (bflyOk s.cfg p k = false ∧ opFftBfly p k s = .error (.raise .index)) ∨
    (bflyOk s.cfg p k = true ∧ s.full = false ∧ opFftBfly p k s = .error (.raise .notFull)) ∨
    (bflyOk s.cfg p k = true ∧ s.full = true ∧
      ∃ j, j < s.cfg.n ∧ s.elem? j = none ∧ opFftBfly p k s = .error (.halt (.bufUnwritten j))) ∨
    (bflyOk s.cfg p k = true ∧ s.full = true ∧
      opFftBfly p k s = .ok (s.pair (s.cfg.stride p) (clusterOf s.cfg p k) k)) := by
  cases h : bflyOk s.cfg p k with
  | false => exact .inl ⟨rfl, by simp [opFftBfly, h]⟩
  | true =>
    cases hf : s.full with
    | false => exact .inr (.inl ⟨rfl, rfl, by simp [opFftBfly, h, hf]⟩)
    | true =>
      obtain ⟨hp, hk, hu⟩ := bflyOk_iff.1 h
      rw [opFftBfly_eq h hf]
      cases hb : butterfly (s.cfg.stride p) (clusterOf s.cfg p k) k s with
      | error e =>
        obtain ⟨j, hj, hn, rfl⟩ := butterfly_error hk (s.cfg.lower_lt hp hk hu) hb
        exact .inr (.inr (.inl ⟨rfl, rfl, j, hj, hn, rfl⟩))
      | ok t =>
        obtain ⟨-, -, -, -, rfl⟩ := butterfly_ok.1 hb
        exact .inr (.inr (.inr ⟨rfl, rfl, rfl⟩))

theorem opFftBfly_writesBuf {p k : Nat} {s t : State} (h : opFftBfly p k s = .ok t) : WritesBuf s t := by
  rcases opFftBfly_cases p k s with ⟨_, h'⟩ | ⟨_, _, h'⟩ | ⟨_, _, _, _, _, h'⟩ | ⟨hb, _, h'⟩ <;>
    rw [h'] at h <;> cases h
  obtain ⟨hp, hk, hu⟩ := bflyOk_iff.1 hb
  exact s.pair_writesBuf _ hk (s.cfg.lower_lt hp hk hu)

/-! ### loops -/

@[simp] theorem forEach_nil {α : Type} (f : α → State → Except Stop State) (s : State) :
    forEach f [] s = .ok s := rfl

@[simp] theorem forEach_cons {α : Type} (f : α → State → Except Stop State) (a : α) (l : List α)
    (s : State) : forEach f (a :: l) s = f a s >>= forEach f l := rfl

theorem forEach_append {α : Type} (f : α → State → Except Stop State) (l l' : List α) (s : State) :
    forEach f (l ++ l') s = forEach f l s >>= forEach f l' := by
  induction l generalizing s with
  | nil => rfl
  | cons a l ih =>
    simp only [List.cons_append, forEach_cons]
    cases f a s with
    | error e => rfl
    | ok t => exact ih t

/-- A loop over operations that write BUF alone writes BUF alone. -/
theorem forEach_writesBuf {α : Type} {f : α → State → Except Stop State}
    (hf : ∀ a s t, f a s = .ok t → WritesBuf s t) {l : List α} {s t : State}
    (h : forEach f l s = .ok t) : WritesBuf s t := by
  induction l generalizing s with
  | nil => cases h; exact .refl _
  | cons a l ih =>
    obtain ⟨u, hu, h⟩ := bind_ok.1 h
    exact (hf a s u hu).trans (ih h)

/-! ### one pass -/

/-- The upper elements of a pass, as a set. -/
theorem mem_passUppers (c : Config) {p : Nat} (hp : p < c.log2N) (k : Nat) :
    k ∈ passUppers c p ↔ k < c.n ∧ k % (2 * c.stride p) < c.stride p := by
  have hs := c.stride_pos p hp
  have hc := c.clusters_eq p hp
  simp only [passUppers, List.mem_flatMap, List.mem_range, List.mem_map]
  rw [c.n_div_cluster p hp]
  constructor
  · rintro ⟨q, hq, t, ht, rfl⟩
    refine ⟨?_, ?_⟩
    · have : (q + 1) * (2 * c.stride p) ≤ c.n := by
        rw [← hc]; exact Nat.mul_le_mul_right _ hq
      rw [Nat.add_mul, Nat.one_mul] at this
      omega
    · rw [Nat.add_comm, Nat.add_mul_mod_self_right, Nat.mod_eq_of_lt (by omega)]
      exact ht
  · rintro ⟨hk, hu⟩
    refine ⟨k / (2 * c.stride p), ?_, k % (2 * c.stride p), hu, ?_⟩
    · rw [← c.n_div_cluster p hp]
      exact Nat.div_lt_div_of_lt_of_dvd ⟨2 ^ p, by rw [Nat.mul_comm]; exact hc.symm⟩ hk
    · rw [Nat.mul_comm]; exact Nat.div_add_mod k _

/-- No upper element occurs twice in a pass. -/
theorem nodup_passUppers (c : Config) {p : Nat} (hp : p < c.log2N) : (passUppers c p).Nodup := by
  have hs := c.stride_pos p hp
  refine List.nodup_flatMap.2 ⟨fun q _ => ?_, ?_⟩
  · exact List.nodup_range.map (fun a b h => by simpa using h)
  · refine List.nodup_range.imp ?_
    intro q q' hne
    simp only [Function.onFun, List.disjoint_left, List.mem_map, List.mem_range, not_exists, not_and]
    rintro _ ⟨t, ht, rfl⟩ t' ht' he
    have h1 : (q * (2 * c.stride p) + t) / (2 * c.stride p) = q := by
      rw [Nat.mul_comm, Nat.mul_add_div (by omega), Nat.div_eq_of_lt (by omega), Nat.add_zero]
    have h2 : (q' * (2 * c.stride p) + t') / (2 * c.stride p) = q' := by
      rw [Nat.mul_comm, Nat.mul_add_div (by omega), Nat.div_eq_of_lt (by omega), Nat.add_zero]
    rw [he, h1] at h2
    exact hne h2

/-- The element that a pass's list of butterflies gives position i, from the values before. -/
def passElem (c : Config) (p : Nat) (ks : List Nat) (s : State) (i : Nat) : Option Cplx :=
  if i ∈ ks then
    some (cadd (s.elem i) (cmul (s.elem (i + c.stride p)) (tw c (clusterOf c p i))))
  else if c.stride p ≤ i ∧ i - c.stride p ∈ ks then
    some (cadd (s.elem (i - c.stride p))
      (cmul (s.elem i) (tw c (clusterOf c p (i - c.stride p) + c.half))))
  else s.elem? i

/-- Distinct butterflies of one pass, in any order: they complete, and every position gets its value from the
elements before the first of them (R167). -/
theorem forEach_bfly {p : Nat} {ks : List Nat} {s : State} (hf : s.full = true)
    (hok : ∀ k ∈ ks, bflyOk s.cfg p k = true) (hnd : ks.Nodup) (hw : ∀ i, i < s.cfg.n → (s.elem? i).isSome = true) :
    ∃ t, forEach (fun k => opFftBfly p k) ks s = .ok t ∧ WritesBuf s t ∧
      ∀ i, t.elem? i = passElem s.cfg p ks s i := by
  induction ks generalizing s with
  | nil =>
    refine ⟨s, rfl, .refl s, fun i => ?_⟩
    simp [passElem]
  | cons k ks ih =>
    obtain ⟨hp, hk, hu⟩ := bflyOk_iff.1 (hok k List.mem_cons_self)
    have hs := s.cfg.stride_pos p hp
    have hk' := s.cfg.lower_lt hp hk hu
    have hstep : opFftBfly p k s = .ok (s.pair (s.cfg.stride p) (clusterOf s.cfg p k) k) := by
      rw [opFftBfly_eq (hok k List.mem_cons_self) hf]
      exact butterfly_ok.2 ⟨hk, hk', hw k hk, hw _ hk', rfl⟩
    generalize hu' : s.pair (s.cfg.stride p) (clusterOf s.cfg p k) k = u at hstep
    have hwb : WritesBuf s u := opFftBfly_writesBuf hstep
    have hcfg := hwb.cfg
    obtain ⟨hkn, hnd⟩ := List.nodup_cons.1 hnd
    obtain ⟨t, ht, hwt, he⟩ := ih (s := u) (by rw [hwb.full]; exact hf)
      (by rw [hcfg]; exact fun k' hk' => hok k' (List.mem_cons_of_mem _ hk')) hnd
      (by rw [hcfg]; exact fun i hi => hwb.elem?_isSome i (hw i hi))
    refine ⟨t, ?_, hwb.trans hwt, fun i => ?_⟩
    · rw [forEach_cons, hstep, ok_bind]; exact ht
    · rw [he i, hcfg]
      -- the elements of u
      have hue : ∀ j, j ≠ k → j ≠ k + s.cfg.stride p → u.elem? j = s.elem? j := by
        intro j h1 h2
        rw [← hu', State.pair, State.setElem_elem?_other _ _ h2, State.setElem_elem?_other _ _ h1]
      have hue' : ∀ j, j ≠ k → j ≠ k + s.cfg.stride p → u.elem j = s.elem j := by
        intro j h1 h2
        unfold State.elem
        rw [hue j h1 h2]
      have huk : u.elem? k = some (cadd (s.elem k)
          (cmul (s.elem (k + s.cfg.stride p)) (tw s.cfg (clusterOf s.cfg p k)))) := by
        rw [← hu', State.pair, State.setElem_elem?_other _ _ (by omega), State.setElem_elem?_self]
      have hul : u.elem? (k + s.cfg.stride p) = some (cadd (s.elem k)
          (cmul (s.elem (k + s.cfg.stride p)) (tw s.cfg (clusterOf s.cfg p k + s.cfg.half)))) := by
        rw [← hu', State.pair, State.setElem_elem?_self]
      -- an upper element is no lower element
      have hsep : ∀ j ∈ k :: ks, ∀ j' ∈ k :: ks, j ≠ j' + s.cfg.stride p := by
        intro j hj j' hj' hjj
        obtain ⟨-, -, h1⟩ := bflyOk_iff.1 (hok j hj)
        obtain ⟨-, -, h2⟩ := bflyOk_iff.1 (hok j' hj')
        rw [hjj, Nat.add_mod, Nat.mod_eq_of_lt (a := s.cfg.stride p) (by omega),
          Nat.mod_eq_of_lt (by omega)] at h1
        omega
      unfold passElem
      by_cases hik : i = k
      · subst hik
        have h1 : ¬(s.cfg.stride p ≤ i ∧ i - s.cfg.stride p ∈ ks) := by
          rintro ⟨h1, h2⟩
          exact hsep i List.mem_cons_self _ (List.mem_cons_of_mem _ h2) (by omega)
        rw [if_neg hkn, if_neg h1, if_pos List.mem_cons_self, huk]
      · by_cases hil : i = k + s.cfg.stride p
        · subst hil
          have h1 : k + s.cfg.stride p ∉ ks := fun h =>
            hsep _ (List.mem_cons_of_mem _ h) k List.mem_cons_self rfl
          have h2 : k + s.cfg.stride p ∉ k :: ks := by
            simp only [List.mem_cons, not_or]
            exact ⟨hik, h1⟩
          have h3 : k + s.cfg.stride p - s.cfg.stride p = k := by omega
          rw [if_neg h1, if_neg (by rw [h3]; exact fun h => hkn h.2), if_neg h2, h3,
            if_pos ⟨by omega, List.mem_cons_self⟩, hul]
        · have hm : i ∈ k :: ks ↔ i ∈ ks := by simp [hik]
          have hm' : (s.cfg.stride p ≤ i ∧ i - s.cfg.stride p ∈ k :: ks) ↔
              (s.cfg.stride p ≤ i ∧ i - s.cfg.stride p ∈ ks) := by
            simp only [List.mem_cons]
            constructor
            · rintro ⟨h1, h2 | h2⟩
              · omega
              · exact ⟨h1, h2⟩
            · exact fun h => ⟨h.1, .inr h.2⟩
          by_cases him : i ∈ ks
          · have h1 : i + s.cfg.stride p ≠ k := fun h =>
              hsep k List.mem_cons_self i (List.mem_cons_of_mem _ him) h.symm
            rw [if_pos him, if_pos (hm.2 him), hue' i hik hil, hue' _ h1 (by omega)]
          · by_cases hlm : s.cfg.stride p ≤ i ∧ i - s.cfg.stride p ∈ ks
            · have h1 : i - s.cfg.stride p ≠ k := by omega
              have h2 : i - s.cfg.stride p ≠ k + s.cfg.stride p := fun h =>
                hsep _ (List.mem_cons_of_mem _ hlm.2) k List.mem_cons_self h
              rw [if_neg him, if_pos hlm, if_neg (fun h => him (hm.1 h)), if_pos (hm'.2 hlm),
                hue' i hik hil, hue' _ h1 h2]
            · rw [if_neg him, if_neg hlm, if_neg (fun h => him (hm.1 h)),
                if_neg (fun h => hlm (hm'.1 h)), hue i hik hil]

end Sys2Proof.Machine
end

