-- ==== Sys2Proof/Laws/Transform.lean ====
section
/-! SUPPORT. What FFT.PASS and the loops of FFT.TRANSFORM can do (41_transform.md R167, R168): which stops they
have, that they write BUF and nothing else, and that the middle loop of the transform is one pass. -/

namespace Sys2Proof.Machine

/-- The stops of an operation over BUF that has passed its own tests: an element holds no value. -/
def MissingElem (s : State) (e : Stop) : Prop :=
  ∃ j, j < s.cfg.n ∧ s.elem? j = none ∧ e = .halt (.bufUnwritten j)

/-- An element missing after some writes to BUF was missing before them. -/
theorem WritesBuf.missing {s t : State} {e : Stop} (h : WritesBuf s t) (hm : MissingElem t e) :
    MissingElem s e := by
  obtain ⟨j, hj, hn, he⟩ := hm
  refine ⟨j, by rw [h.cfg] at hj; exact hj, ?_, he⟩
  cases hs : s.elem? j with
  | none => rfl
  | some z =>
    have := h.elem?_isSome j (by rw [hs]; rfl)
    rw [hn] at this
    cases this

/-- A part that starts with FULL = 1 writes BUF alone, or stops at a missing element. -/
def BufPart (f : State → Except Stop State) (s : State) : Prop :=
  (∃ t, f s = .ok t ∧ WritesBuf s t) ∨ ∃ e, f s = .error e ∧ MissingElem s e

theorem BufPart.writesBuf {f : State → Except Stop State} {s t : State} (h : BufPart f s)
    (ht : f s = .ok t) : WritesBuf s t := by
  rcases h with ⟨u, hu, hw⟩ | ⟨e, he, -⟩
  · rw [hu] at ht; cases ht; exact hw
  · rw [he] at ht; cases ht

theorem BufPart.missing {f : State → Except Stop State} {s : State} {e : Stop} (h : BufPart f s)
    (he : f s = .error e) : MissingElem s e := by
  rcases h with ⟨u, hu, -⟩ | ⟨e', he', hm⟩
  · rw [hu] at he; cases he
  · rw [he'] at he; cases he; exact hm

/-- With every element written such a part completes. -/
theorem BufPart.completes {f : State → Except Stop State} {s : State} (h : BufPart f s)
    (hw : ∀ i, i < s.cfg.n → (s.elem? i).isSome = true) : ∃ t, f s = .ok t ∧ WritesBuf s t := by
  rcases h with h | ⟨e, -, j, hj, hn, -⟩
  · exact h
  · have := hw j hj
    rw [hn] at this
    cases this

/-- Two parts in sequence, the second from every state the first can leave. -/
theorem BufPart.bind {f g : State → Except Stop State} {s : State} (hf : BufPart f s)
    (hg : ∀ t, WritesBuf s t → BufPart g t) : BufPart (fun s => f s >>= g) s := by
  rcases hf with ⟨t, ht, hw⟩ | ⟨e, he, hm⟩
  · rcases hg t hw with ⟨u, hu, hw'⟩ | ⟨e, he, hm⟩
    · exact .inl ⟨u, by simp [ht, hu], hw.trans hw'⟩
    · exact .inr ⟨e, by simp [ht, he], hw.missing hm⟩
  · exact .inr ⟨e, by simp [he], hm⟩

theorem butterfly_part {stride c k : Nat} {s : State} (hk : k < s.cfg.n) (hk' : k + stride < s.cfg.n) :
    BufPart (butterfly stride c k) s := by
  cases h : butterfly stride c k s with
  | ok t => exact .inl ⟨t, h, (butterfly_ok.1 h).2.2.2.2 ▸ s.pair_writesBuf c hk hk'⟩
  | error e => exact .inr ⟨e, h, butterfly_error hk hk' h⟩

theorem opFftBfly_part {p k : Nat} {s : State} (h : bflyOk s.cfg p k = true) (hf : s.full = true) :
    BufPart (opFftBfly p k) s := by
  obtain ⟨hp, hk, hu⟩ := bflyOk_iff.1 h
  unfold BufPart
  rw [opFftBfly_eq h hf]
  exact butterfly_part hk (s.cfg.lower_lt hp hk hu)

/-- A list of parts, each good from every state that differs in BUF alone. -/
theorem forEach_part {α : Type} {f : α → State → Except Stop State} {l : List α} {s : State}
    (h : ∀ a ∈ l, ∀ t, WritesBuf s t → BufPart (f a) t) : BufPart (forEach f l) s := by
  induction l generalizing s with
  | nil => exact .inl ⟨s, rfl, .refl s⟩
  | cons a l ih =>
    exact BufPart.bind (h a List.mem_cons_self s (.refl s))
      (fun t ht => ih (fun b hb u hu => h b (List.mem_cons_of_mem _ hb) u (ht.trans hu)))

/-- Two lists of parts that agree from every state that differs in BUF alone. -/
theorem forEach_congr {α : Type} {f g : α → State → Except Stop State} {l : List α} {s : State}
    (hf : ∀ a ∈ l, ∀ t, WritesBuf s t → BufPart (f a) t)
    (h : ∀ a ∈ l, ∀ t, WritesBuf s t → f a t = g a t) : forEach f l s = forEach g l s := by
  induction l generalizing s with
  | nil => rfl
  | cons a l ih =>
    rw [forEach_cons, forEach_cons, ← h a List.mem_cons_self s (.refl s)]
    cases hs : f a s with
    | error e => rfl
    | ok t =>
      have ht := (hf a List.mem_cons_self s (.refl s)).writesBuf hs
      simp only [ok_bind]
      exact ih (fun b hb u hu => hf b (List.mem_cons_of_mem _ hb) u (ht.trans hu))
        (fun b hb u hu => h b (List.mem_cons_of_mem _ hb) u (ht.trans hu))

theorem bflyOk_of_mem {c : Config} {p k : Nat} (hp : p < c.log2N) (h : k ∈ passUppers c p) :
    bflyOk c p k = true := by
  obtain ⟨h1, h2⟩ := (mem_passUppers c hp k).1 h
  exact bflyOk_iff.2 ⟨hp, h1, h2⟩

/-- Everything FFT.PASS can do (R167): no butterfly of it raises a fault. -/
theorem opFftPass_cases (p : Nat) (s : State) :
    (s.cfg.log2N ≤ p ∧ opFftPass p s = .error (.raise .index)) ∨
    (p < s.cfg.log2N ∧ s.full = false ∧ opFftPass p s = .error (.raise .notFull)) ∨
    (p < s.cfg.log2N ∧ s.full = true ∧
      opFftPass p s = forEach (fun k => opFftBfly p k) (passUppers s.cfg p) s ∧
      BufPart (opFftPass p) s) := by
  by_cases hp : p < s.cfg.log2N
  · cases hf : s.full
    · exact .inr (.inl ⟨hp, rfl, by simp [opFftPass, passOk, hp, hf]⟩)
    · have he : opFftPass p s = forEach (fun k => opFftBfly p k) (passUppers s.cfg p) s := by
        simp [opFftPass, passOk, hp, hf]
      refine .inr (.inr ⟨hp, rfl, he, ?_⟩)
      unfold BufPart
      rw [he]
      exact forEach_part (fun k hk t ht => opFftBfly_part
        (by rw [ht.cfg]; exact bflyOk_of_mem hp hk) (by rw [ht.full]; exact hf))
  · exact .inl ⟨by omega, by simp [opFftPass, passOk, hp]⟩

/-! ### the three loops of R168 -/

/-- The innermost loop, as a list of butterflies of one cluster. -/
theorem transformCluster_eq (count stride c k : Nat) (s : State) :
    transformCluster count stride c k s = forEach (fun k => butterfly stride c k) (List.range' k count) s := by
  induction count generalizing k s with
  | zero => rfl
  | succ count ih =>
    rw [List.range'_succ, forEach_cons]
    simp only [transformCluster]
    congr 1
    funext t
    exact ih (k + 1) t

/-- The upper elements of `count` clusters of pass p from cluster q on. -/
def clusterUppers (c : Config) (p q count : Nat) : List Nat :=
  (List.range' q count).flatMap (fun q =>
    (List.range (c.stride p)).map (fun t => q * (2 * c.stride p) + t))

theorem passUppers_eq (c : Config) {p : Nat} (hp : p < c.log2N) :
    passUppers c p = clusterUppers c p 0 (2 ^ p) := by
  rw [passUppers, clusterUppers, c.n_div_cluster p hp, List.range_eq_range' (n := 2 ^ p)]

/-- The middle loop from cluster q on is the butterflies of those clusters, as FFT.BFLY operations. -/
theorem transformClusters_eq {p : Nat} (count q : Nat) {s : State} (hp : p < s.cfg.log2N)
    (hf : s.full = true) (hq : q + count ≤ 2 ^ p) :
    transformClusters count (s.cfg.stride p) q (q * (2 * s.cfg.stride p)) s =
      forEach (fun k => opFftBfly p k) (clusterUppers s.cfg p q count) s := by
  induction count generalizing q s with
  | zero => rfl
  | succ count ih =>
    have hs := s.cfg.stride_pos p hp
    have hc := s.cfg.clusters_eq p hp
    have hr : List.range' (q * (2 * s.cfg.stride p)) (s.cfg.stride p) =
        (List.range (s.cfg.stride p)).map (fun t => q * (2 * s.cfg.stride p) + t) := by
      rw [List.range'_eq_map_range]
    -- an element of the first cluster
    have hel : ∀ k ∈ List.range' (q * (2 * s.cfg.stride p)) (s.cfg.stride p),
        bflyOk s.cfg p k = true ∧ clusterOf s.cfg p k = q := by
      intro k hk
      rw [hr] at hk
      obtain ⟨t, ht, rfl⟩ := List.mem_map.1 hk
      rw [List.mem_range] at ht
      have hlt : q * (2 * s.cfg.stride p) + t < s.cfg.n := by
        have : (q + 1) * (2 * s.cfg.stride p) ≤ 2 ^ p * (2 * s.cfg.stride p) :=
          Nat.mul_le_mul_right _ (by omega)
        rw [hc, Nat.add_mul, Nat.one_mul] at this
        omega
      refine ⟨bflyOk_iff.2 ⟨hp, hlt, ?_⟩, ?_⟩
      · rw [Nat.mul_comm, Nat.mul_add_mod, Nat.mod_eq_of_lt (by omega)]
        exact ht
      · unfold clusterOf
        rw [Nat.mul_comm, Nat.mul_add_div (by omega), Nat.div_eq_of_lt (by omega), Nat.add_zero]
    have hfirst : transformCluster (s.cfg.stride p) (s.cfg.stride p) q (q * (2 * s.cfg.stride p)) s =
        forEach (fun k => opFftBfly p k) (List.range' (q * (2 * s.cfg.stride p)) (s.cfg.stride p)) s := by
      rw [transformCluster_eq]
      refine (forEach_congr (fun k hk t ht => ?_) (fun k hk t ht => ?_)).symm
      · exact opFftBfly_part (by rw [ht.cfg]; exact (hel k hk).1) (by rw [ht.full]; exact hf)
      · rw [opFftBfly_eq (by rw [ht.cfg]; exact (hel k hk).1) (by rw [ht.full]; exact hf), ht.cfg,
          (hel k hk).2]
    rw [clusterUppers, List.range'_succ, List.flatMap_cons, forEach_append, ← hr]
    simp only [transformClusters]
    rw [hfirst]
    cases hx : forEach (fun k => opFftBfly p k)
        (List.range' (q * (2 * s.cfg.stride p)) (s.cfg.stride p)) s with
    | error e => rfl
    | ok t =>
      have ht := forEach_writesBuf (fun _ _ _ h => opFftBfly_writesBuf h) hx
      have := ih (q + 1) (s := t) (by rw [ht.cfg]; exact hp) (by rw [ht.full]; exact hf) (by omega)
      rw [ht.cfg] at this
      simp only [ok_bind]
      rw [← clusterUppers, ← this, Nat.add_mul, Nat.one_mul]

/-- The middle loop of the transform is one pass (R167, R168). -/
theorem transformClusters_pass {p : Nat} {s : State} (hp : p < s.cfg.log2N) (hf : s.full = true) :
    transformClusters (s.cfg.n / (2 * s.cfg.stride p)) (s.cfg.stride p) 0 0 s = opFftPass p s := by
  have h := transformClusters_eq (2 ^ p) 0 hp hf (by omega)
  rw [Nat.zero_mul] at h
  rw [s.cfg.n_div_cluster p hp, h, ← passUppers_eq s.cfg hp]
  simp [opFftPass, passOk, hp, hf]

/-- The outer loop writes BUF alone or stops at a missing element. -/
theorem transformPasses_part (count p : Nat) {s : State} (hp : p + count ≤ s.cfg.log2N)
    (hf : s.full = true) : BufPart (transformPasses count (s.cfg.stride p)) s := by
  induction count generalizing p s with
  | zero => exact .inl ⟨s, rfl, .refl s⟩
  | succ count ih =>
    have h := (opFftPass_cases p s).resolve_left (by omega)
    obtain ⟨_, _, _, hpart⟩ := h.resolve_left (by simp [hf])
    have := BufPart.bind (g := transformPasses count (s.cfg.stride (p + 1))) hpart (fun t ht => by
      have := ih (p + 1) (s := t) (by rw [ht.cfg]; omega) (by rw [ht.full]; exact hf)
      rwa [ht.cfg] at this)
    unfold BufPart at this ⊢
    rw [transformPasses, transformClusters_pass (by omega) hf, ← Config.stride_succ]
    exact this

/-- Everything FFT.TRANSFORM can do (R168). -/
theorem opFftTransform_cases (s : State) :
    (s.full = false ∧ opFftTransform s = .error (.raise .notFull)) ∨
    (s.full = true ∧ BufPart opFftTransform s) := by
  cases hf : s.full
  · exact .inl ⟨rfl, by simp [opFftTransform, hf]⟩
  · refine .inr ⟨rfl, ?_⟩
    have h := transformPasses_part s.cfg.log2N 0 (s := s) (by omega) hf
    rw [Config.stride_zero] at h
    unfold BufPart at h ⊢
    simpa [opFftTransform, hf] using h

end Sys2Proof.Machine
end

