-- ==== Sys2Proof/Laws/Match.lean ====
section
/-! SUPPORT. What the matcher's loop can do (42_matcher.md R204): it sums over elements that hold values, or stops
at one that does not. -/

namespace Sys2Proof.Machine

/-- The distance of one position (R204). -/
def distanceAt (s : State) (i : Nat) : Nat := absDiff (logMag (s.elem i)) (keyEntry s.cfg i)

/-- Everything the matcher's loop can do from index i on: it sums the distances, wrapping at 32 bits, or stops
at the first element without a value. -/
theorem matchLoop_cases (count : Nat) (r : MatchRegs) (s : State) (h : r.i + count ≤ s.cfg.n) :
    (matchLoop count r s =
      .ok ⟨r.err + BitVec.ofNat 32 (((List.range' r.i count).map (distanceAt s)).sum), r.i + count⟩ ∧
      ∀ i, r.i ≤ i → i < r.i + count → (s.elem? i).isSome = true) ∨
    ∃ e, matchLoop count r s = .error e ∧ MissingElem s e := by
  induction count generalizing r with
  | zero => exact .inl ⟨by simp [matchLoop], by omega⟩
  | succ count ih =>
    rcases readElem_cases s r.i with ⟨z, hi, hz, hr⟩ | ⟨hi, hn, hr⟩ | ⟨hi, -⟩
    · have hd : absDiff (logMag z) (keyEntry s.cfg r.i) = distanceAt s r.i := by
        rw [distanceAt, State.elem_of_elem? hz]
      rcases ih ⟨r.err + BitVec.ofNat 32 (absDiff (logMag z) (keyEntry s.cfg r.i)), r.i + 1⟩
        (by dsimp only; omega) with ⟨hm, hall⟩ | ⟨e, he, hm⟩
      · refine .inl ⟨?_, fun i h1 h2 => ?_⟩
        · simp only [matchLoop, hr, ok_bind]
          rw [hm, hd]
          simp only [List.range'_succ, List.map_cons, List.sum_cons, BitVec.ofNat_add, BitVec.add_assoc,
            Nat.add_assoc, Nat.add_comm 1]
        · by_cases hir : i = r.i
          · rw [hir, hz]; rfl
          · exact hall i (by dsimp only; omega) (by dsimp only; omega)
      · exact .inr ⟨e, by simp only [matchLoop, hr, ok_bind, he], hm⟩
    · exact .inr ⟨_, by simp only [matchLoop, hr, error_bind], r.i, hi, hn, rfl⟩
    · omega

theorem absDiff_le (x y : BitVec 8) : absDiff x y ≤ 255 := by
  have := x.isLt
  have := y.isLt
  unfold absDiff
  omega

/-- Everything the loop of MATCH.ERROR and MATCH.ISMATCH can do (R204). -/
theorem opMatchError_cases (s : State) :
    (s.full = false ∧ opMatchError s = .error (.raise .notFull)) ∨
    (s.full = true ∧ (∀ i, i < s.cfg.n → (s.elem? i).isSome = true) ∧ opMatchError s =
      .ok ⟨BitVec.ofNat 32 (((List.range s.cfg.n).map (distanceAt s)).sum), s.cfg.n⟩) ∨
    (s.full = true ∧ ∃ e, opMatchError s = .error e ∧ MissingElem s e) := by
  cases hf : s.full
  · exact .inl ⟨rfl, by simp [opMatchError, hf]⟩
  · have he : opMatchError s = matchLoop s.cfg.n ⟨0, 0⟩ s := by simp [opMatchError, hf]
    rw [he]
    rcases matchLoop_cases s.cfg.n ⟨0, 0⟩ s (by simp) with ⟨hm, hall⟩ | hm
    · refine .inr (.inl ⟨rfl, fun i hi => hall i (Nat.zero_le i) (by simpa using hi), ?_⟩)
      rw [hm, List.range_eq_range']
      simp
    · exact .inr (.inr ⟨rfl, hm⟩)

end Sys2Proof.Machine
end

