-- ==== Sys2Proof/Laws/Fsm.lean ====
section
/-! SUPPORT. Everything each tick and each sub-step can do (43_control.md R231 to R236). -/

namespace Sys2Proof.Machine

/-- The Init tick (R231), field by field. -/
theorem tickInit_cases (s : State) :
    (s.full = false ∧ tickInit s = s) ∨
    (s.full = true ∧ tickInit s = { s with
      fsm := if s.draw.1 = 1 then .stateAnalyze else .stateReset
      out := s.out ++ [.proxPoll s.draw.1]
      answers := s.draw.2.answers
      draws := s.draw.2.draws }) := by
  unfold tickInit
  by_cases hf : s.full = true
  · refine .inr ⟨hf, ?_⟩
    rw [if_pos hf, State.poll_frame]
    simp only [State.poll_answer]
    rfl
  · exact .inl ⟨by simpa using hf, if_neg hf⟩

/-- The poll of an Open tick (R233), field by field. -/
theorem openPoll_frame (s : State) :
    openPoll s = { s with
      fsm := if s.draw.1 = 0 then .stateReset else s.fsm
      out := s.out ++ [.proxPoll s.draw.1]
      answers := s.draw.2.answers
      draws := s.draw.2.draws } := by
  unfold openPoll
  rw [State.poll_frame]
  simp only [State.poll_answer]
  rfl

/-- Everything the Analyze tick can do (R232). -/
theorem tickAnalyze_cases (s : State) :
    (s.full = false ∧ tickAnalyze s = .error (.raise .notFull)) ∨
    (s.full = true ∧ ∃ t r, opFftTransform s = .ok t ∧ WritesBuf s t ∧ opMatchError t = .ok r ∧
      tickAnalyze s = .ok { t with fsm := afterMatch (matchResult t.cfg r.err) }) ∨
    (s.full = true ∧ ∃ e, tickAnalyze s = .error e ∧ MissingElem s e) := by
  rcases opFftTransform_cases s with ⟨hf, -⟩ | ⟨hf, ⟨t, ht, hw⟩ | ⟨e, he, hm⟩⟩
  · exact .inl ⟨hf, by simp [tickAnalyze, hf]⟩
  · rcases opMatchError_cases t with ⟨hf', -⟩ | ⟨-, -, h⟩ | ⟨-, e, he, hm⟩
    · rw [hw.full, hf] at hf'; cases hf'
    · exact .inr (.inl ⟨hf, t, _, ht, hw, h, by simp [tickAnalyze, hf, ht, h]⟩)
    · exact .inr (.inr ⟨hf, e, by simp [tickAnalyze, hf, ht, he], hw.missing hm⟩)
  · exact .inr (.inr ⟨hf, e, by simp [tickAnalyze, hf, he], hm⟩)

/-- Everything the Reset tick can do (R234). -/
theorem tickReset_cases (s : State) :
    (s.armed = true ∧ tickReset s = .error (.raise .resetArmed)) ∨
    (s.armed = false ∧ tickReset s = .ok { s with
      out := s.out ++ [.actClose]
      cursor := 0
      full := false
      collecting := decide (s.cfg.acqMode = .freeRunning)
      armed := decide (s.cfg.acqMode = .freeRunning)
      fsm := .stateInit }) := by
  unfold tickReset State.resetHazard
  cases ha : s.armed
  · refine .inr ⟨rfl, ?_⟩
    have hr : opAcqReset (s.emit .actClose) =
        .ok { s.emit .actClose with cursor := 0, full := false, collecting := false } :=
      opAcqReset_ok.2 ⟨ha, rfl⟩
    rw [hr]
    cases hm : s.cfg.acqMode
    · simp [hm, ha, State.emit]
    · simp [hm, opAcqStart, State.startHazard, State.emit]
  · exact .inl ⟨rfl, by simp⟩

/-- Everything the first sub-step of a tick can do (R236). -/
theorem startTick_cases (s : State) :
    (s.fsm = .stateInit ∧ startTick s = .ok (tickInit s)) ∨
    (s.fsm = .stateAnalyze ∧ s.full = false ∧ startTick s = .error (.raise .notFull)) ∨
    (s.fsm = .stateAnalyze ∧ s.full = true ∧
      startTick s = .ok { s with phase := .analyzeFft (Progress.first s.cfg) }) ∨
    (s.fsm = .stateOpen ∧ startTick s = .ok { s.emit .actOpen with phase := .openPoll }) ∨
    (s.fsm = .stateReset ∧ s.armed = true ∧ startTick s = .error (.raise .resetArmed)) ∨
    (s.fsm = .stateReset ∧ s.armed = false ∧
      startTick s = .ok { s.emit .actClose with phase := .resetAcq }) := by
  unfold startTick State.resetHazard
  cases s.fsm <;> cases s.full <;> cases s.armed <;> simp

/-- How a sub-step ends in a next state: it succeeded, or it raised a model fault and ended its tick. -/
theorem execSubstep_next {s t : State} :
    execSubstep s = .next t ↔
      (∃ u, opSubstep s = .ok u ∧ t = u.returns none) ∨
      (∃ c, opSubstep s = .error (.raise c) ∧ t = { s.raise c with phase := .idle }) := by
  unfold execSubstep
  rcases opSubstep s with (⟨c⟩ | ⟨f⟩) | u <;> simp [eq_comm]

theorem execSubstep_fault {s : State} {f : Fault} :
    execSubstep s = .fault f ↔ opSubstep s = .error (.halt f) := by
  unfold execSubstep
  rcases opSubstep s with (⟨c⟩ | ⟨f'⟩) | u <;> simp

end Sys2Proof.Machine
end

