-- ==== Sys2Proof/Laws/Exec.lean ====
section
/-! SUPPORT. `exec` in one equation per operation, and everything an operation that answers a next state can have
done, said once for all of them. -/

namespace Sys2Proof.Machine

variable (s : State)

theorem exec_acqStart : exec .acqStart s = command s (opAcqStart s) := rfl
theorem exec_acqReset : exec .acqReset s = command s (opAcqReset s) := rfl
theorem exec_acqSample (v8 : BitVec 8) : exec (.acqSample v8) s = command s (opAcqSample v8 s) := rfl
theorem exec_acqTrigger : exec .acqTrigger s = command s (opAcqTrigger s) := rfl
theorem exec_acqIsfull : exec .acqIsfull s = query s (.ok (.full (flagBit s.full))) := rfl
theorem exec_acqStatus : exec .acqStatus s = query s (.ok (.status s.acqStatus)) := rfl
theorem exec_acqRead (idx : BitVec 16) :
    exec (.acqRead idx) s = query s ((readFull idx s).map (fun z => .element z.elem)) := rfl
theorem exec_fftTransform : exec .fftTransform s = command s (opFftTransform s) := rfl
theorem exec_fftPass (p4 : BitVec 4) : exec (.fftPass p4) s = command s (opFftPass p4.toNat s) := rfl
theorem exec_fftBfly (p4 : BitVec 4) (k : BitVec 16) :
    exec (.fftBfly p4 k) s = command s (opFftBfly p4.toNat k.toNat s) := rfl
theorem exec_twRead (idx : BitVec 16) :
    exec (.twRead idx) s = query s (if indexOk s.cfg idx.toNat then .ok (.element (tw s.cfg idx.toNat).elem)
      else .error (.raise .index)) := rfl
theorem exec_matchIsmatch : exec .matchIsmatch s =
    query s ((opMatchError s).map (fun r => .isMatch (matchResult s.cfg r.err))) := rfl
theorem exec_matchError : exec .matchError s = query s ((opMatchError s).map (fun r => .error r.err)) := rfl
theorem exec_keyRead (idx : BitVec 16) :
    exec (.keyRead idx) s = query s (if indexOk s.cfg idx.toNat then .ok (.keyEntry (keyEntry s.cfg idx.toNat))
      else .error (.raise .index)) := rfl
theorem exec_matchLogmag (idx : BitVec 16) :
    exec (.matchLogmag idx) s = query s ((readFull idx s).map (fun z => .logMag (logMag z))) := rfl
theorem exec_fsmTick : exec .fsmTick s = command s (opFsmTick s) := rfl
theorem exec_sysReset : exec .sysReset s = .next ((opSysReset s).returns none) := rfl
theorem exec_proxPoll (v1 : BitVec 1) :
    exec (.proxPoll v1) s = .next ((s.emit (.proxPoll v1)).returns (some (.nearby v1))) := rfl
theorem exec_actOpen : exec .actOpen s = .next ((s.emit .actOpen).returns none) := rfl
theorem exec_actClose : exec .actClose s = .next ((s.emit .actClose).returns none) := rfl

/-- The operations that only return a value (20_memory.md R74). -/
def isQuery : Instr → Bool
  | .acqIsfull | .acqStatus | .acqRead _ | .twRead _ | .matchIsmatch | .matchError | .keyRead _
  | .matchLogmag _ => true
  | _ => false

/-- The operations of the transform engine that write BUF (R75). -/
def isFftWrite : Instr → Bool
  | .fftTransform | .fftPass _ | .fftBfly _ _ => true
  | _ => false

/-- The model faults an operation can raise, a tick by its state (60_exceptions.md R284). -/
def canFault (f : FsmState) : Instr → FaultCode → Bool
  | .acqStart, .startCollecting | .acqReset, .resetArmed => true
  | .acqRead _, .index | .matchLogmag _, .index | .fftPass _, .index | .fftBfly _ _, .index
  | .twRead _, .index | .keyRead _, .index => true
  | .acqRead _, .notFull | .matchLogmag _, .notFull | .fftPass _, .notFull | .fftBfly _ _, .notFull
  | .fftTransform, .notFull | .matchError, .notFull | .matchIsmatch, .notFull => true
  | .fsmTick, .notFull => f == .stateAnalyze
  | .fsmTick, .resetArmed => f == .stateReset
  | _, _ => false

/-- What an operation that answers a next state has done. -/
inductive Effect : Instr → State → State → Prop where
  /-- A model fault (60_exceptions.md R283). -/
  | fault {s : State} {i : Instr} {c : FaultCode} (hc : canFault s.fsm i c = true) : Effect i s (s.raise c)
  /-- A value returned, nothing written. -/
  | query {s : State} {i : Instr} (r : Result) (hi : isQuery i = true) : Effect i s (s.returns (some r))
  /-- An allowed no-op: a late sample, an ignored trigger, an Init tick with FULL = 0 (R281). -/
  | late {s : State} (v8 : BitVec 8) (hf : s.full = true) : Effect (.acqSample v8) s (s.returns none)
  | ignored {s : State} (h : s.cfg.acqMode = .freeRunning ∨ s.collecting = true) :
      Effect .acqTrigger s (s.returns none)
  | spin {s : State} (h : s.fsm = .stateInit) (hf : s.full = false) : Effect .fsmTick s (s.returns none)
  /-- A collection started, by ACQ.START or a trigger. -/
  | started {s : State} {i : Instr}
      (hi : i = .acqStart ∨ i = .acqTrigger ∧ s.cfg.acqMode = .triggered ∧ s.collecting = false)
      (hz : s.startHazard = false) :
      Effect i s { s with cursor := 0, full := false, collecting := true, armed := true, result := none }
  | cleared {s : State} (ha : s.armed = false) :
      Effect .acqReset s { s with cursor := 0, full := false, collecting := false, result := none }
  | stored {s : State} (v8 : BitVec 8) (hf : s.full = false) (hc : s.cursor.toNat < s.cfg.n) :
      Effect (.acqSample v8) s ((s.sampled v8).returns none)
  | transformed {s u : State} {i : Instr} (hi : isFftWrite i = true) (hf : s.full = true)
      (hw : WritesBuf s u) : Effect i s (u.returns none)
  /-- The ticks of the four states, where no fault condition holds. -/
  | initTick {s : State} (h : s.fsm = .stateInit) (hf : s.full = true) :
      Effect .fsmTick s { s with
        fsm := if s.draw.1 = 1 then .stateAnalyze else .stateReset
        out := s.out ++ [.proxPoll s.draw.1]
        answers := s.draw.2.answers
        draws := s.draw.2.draws
        result := none }
  | analyzeTick {s u : State} (m : BitVec 1) (h : s.fsm = .stateAnalyze) (hf : s.full = true)
      (hw : WritesBuf s u) :
      Effect .fsmTick s { s with buf := u.buf, fsm := afterMatch m, result := none }
  | openTick {s : State} (h : s.fsm = .stateOpen) :
      Effect .fsmTick s { s with
        fsm := if s.draw.1 = 0 then .stateReset else .stateOpen
        out := s.out ++ [.actOpen, .proxPoll s.draw.1]
        answers := s.draw.2.answers
        draws := s.draw.2.draws
        result := none }
  | resetTick {s : State} (h : s.fsm = .stateReset) (ha : s.armed = false) :
      Effect .fsmTick s { s with
        out := s.out ++ [.actClose]
        cursor := 0
        full := false
        collecting := decide (s.cfg.acqMode = .freeRunning)
        armed := decide (s.cfg.acqMode = .freeRunning)
        fsm := .stateInit
        result := none }
  | reset {s : State} : Effect .sysReset s ((opSysReset s).returns none)
  | polled {s : State} (v1 : BitVec 1) :
      Effect (.proxPoll v1) s ((s.emit (.proxPoll v1)).returns (some (.nearby v1)))
  | opened {s : State} : Effect .actOpen s ((s.emit .actOpen).returns none)
  | closed {s : State} : Effect .actClose s ((s.emit .actClose).returns none)

variable {s}

theorem Effect.of_query {i : Instr} {t : State} {x : Except Stop Result} (hi : isQuery i = true)
    (h : Machine.query s x = .next t) (hx : ∀ c, x = .error (.raise c) → canFault s.fsm i c = true) :
    Effect i s t := by
  rcases query_next.1 h with ⟨r, -, rfl⟩ | ⟨c, hc, rfl⟩
  · exact .query r hi
  · exact .fault (hx c hc)

theorem Effect.of_command {i : Instr} {t : State} {x : Except Stop State}
    (h : command s x = .next t) (hx : ∀ u, x = .ok u → Effect i s (u.returns none))
    (hc : ∀ c, x = .error (.raise c) → canFault s.fsm i c = true) : Effect i s t := by
  rcases command_next.1 h with ⟨u, hu, rfl⟩ | ⟨c, hu, rfl⟩
  · exact hx u hu
  · exact .fault (hc c hu)

theorem draw_emit (e : OutEvent) :
    (s.emit e).draw.1 = s.draw.1 ∧ (s.emit e).draw.2.answers = s.draw.2.answers ∧
    (s.emit e).draw.2.draws = s.draw.2.draws := by
  unfold State.draw
  rw [show (s.emit e).answers = s.answers from rfl]
  cases s.answers <;> exact ⟨rfl, rfl, rfl⟩

/-- A missing element is no model fault. -/
theorem MissingElem.not_raise {c : FaultCode} (h : MissingElem s (.raise c)) : False := by
  obtain ⟨_, _, _, h⟩ := h
  cases h

theorem BufPart.not_raise {f : State → Except Stop State} {c : FaultCode} (h : BufPart f s)
    (hc : f s = .error (.raise c)) : False :=
  (h.missing hc).not_raise

/-- Every next state of a tick, state by state. -/
theorem Effect.of_tick {t : State} (h : exec .fsmTick s = .next t) : Effect .fsmTick s t := by
  rw [exec_fsmTick] at h
  refine Effect.of_command h (fun u hu => ?_) (fun c hc => ?_)
  · unfold opFsmTick at hu
    split at hu
    · rename_i hs
      cases hu
      rcases tickInit_cases s with ⟨hf, h'⟩ | ⟨hf, h'⟩ <;> rw [h']
      · exact .spin hs hf
      · exact .initTick hs hf
    · rename_i hs
      rcases tickAnalyze_cases s with ⟨_, h'⟩ | ⟨hf, v, r, _, hw, _, h'⟩ | ⟨_, e, h', _⟩ <;>
        rw [h'] at hu <;> cases hu
      have h := Effect.analyzeTick (matchResult v.cfg r.err) hs hf hw
      rw [hw.frame] at h ⊢
      exact h
    · rename_i hs
      cases hu
      have := Effect.openTick hs
      obtain ⟨h1, h2, h3⟩ := draw_emit (s := s) .actOpen
      rw [tickOpen, openPoll_frame, h1, h2, h3]
      simpa [State.returns, hs] using this
    · rename_i hs
      rcases tickReset_cases s with ⟨_, h'⟩ | ⟨ha, h'⟩ <;> rw [h'] at hu <;> cases hu
      exact .resetTick hs ha
  · unfold opFsmTick at hc
    split at hc
    · cases hc
    · rename_i hs
      rcases tickAnalyze_cases s with ⟨_, h'⟩ | ⟨_, _, _, _, _, _, h'⟩ | ⟨_, e, h', hm⟩ <;>
        rw [h'] at hc <;> cases hc
      · rw [hs]; rfl
      · exact hm.not_raise.elim
    · cases hc
    · rename_i hs
      rcases tickReset_cases s with ⟨_, h'⟩ | ⟨_, h'⟩ <;> rw [h'] at hc <;> cases hc
      rw [hs]; rfl

theorem readElem_not_raise {i : Nat} {c : FaultCode} : readElem s i ≠ .error (.raise c) := by
  intro h
  rcases readElem_cases s i with ⟨_, _, _, hr⟩ | ⟨_, _, hr⟩ | ⟨_, hr⟩ <;> rw [hr] at h <;> cases h

theorem map_raise {α β : Type} {x : Except Stop α} {f : α → β} {c : FaultCode} :
    x.map f = .error (.raise c) ↔ x = .error (.raise c) := by
  cases x <;> simp [Except.map]

theorem readFull_raise {idx : BitVec 16} {c : FaultCode} (h : readFull idx s = .error (.raise c)) :
    c = .index ∨ c = .notFull := by
  rcases readFull_cases idx s with ⟨_, h'⟩ | ⟨_, _, h'⟩ | ⟨_, _, h'⟩ <;> rw [h'] at h
  · cases h; exact .inl rfl
  · cases h; exact .inr rfl
  · exact (readElem_not_raise h).elim

theorem opMatchError_raise {c : FaultCode} (h : opMatchError s = .error (.raise c)) : c = .notFull := by
  rcases opMatchError_cases s with ⟨_, h'⟩ | ⟨_, _, h'⟩ | ⟨_, e, h', hm⟩ <;> rw [h'] at h <;> cases h
  · rfl
  · exact hm.not_raise.elim

/-- Everything an operation can have done when it answers a next state. -/
theorem Effect.of_exec {i : Instr} {t : State} (h : exec i s = .next t) : Effect i s t := by
  cases i with
  | acqStart =>
    refine Effect.of_command h (fun u hu => ?_) (fun c hc => ?_)
    · obtain ⟨hz, rfl⟩ := opAcqStart_ok.1 hu
      exact .started (.inl rfl) hz
    · rcases opAcqStart_cases s with ⟨_, h'⟩ | ⟨_, h'⟩ <;> rw [h'] at hc <;> cases hc
      rfl
  | acqReset =>
    refine Effect.of_command h (fun u hu => ?_) (fun c hc => ?_)
    · obtain ⟨ha, rfl⟩ := opAcqReset_ok.1 hu
      exact .cleared ha
    · rcases opAcqReset_cases s with ⟨_, h'⟩ | ⟨_, h'⟩ <;> rw [h'] at hc <;> cases hc
      rfl
  | acqSample v8 =>
    refine Effect.of_command h (fun u hu => ?_) (fun c hc => ?_)
    · rcases opAcqSample_cases v8 s with ⟨hf, h'⟩ | ⟨hf, hc, h'⟩ | ⟨_, _, h'⟩ <;> rw [h'] at hu <;> cases hu
      · exact .late v8 hf
      · exact .stored v8 hf hc
    · rcases opAcqSample_cases v8 s with ⟨_, h'⟩ | ⟨_, _, h'⟩ | ⟨_, _, h'⟩ <;> rw [h'] at hc <;> cases hc
  | acqTrigger =>
    refine Effect.of_command h (fun u hu => ?_) (fun c hc => ?_)
    · rcases opAcqTrigger_cases s with ⟨hm, hc, h'⟩ | ⟨hm, h'⟩ <;> rw [h'] at hu <;> cases hu
      · exact .started (.inr ⟨rfl, hm, hc⟩) (by simp [State.startHazard, hc])
      · exact .ignored hm
    · rcases opAcqTrigger_cases s with ⟨_, _, h'⟩ | ⟨_, h'⟩ <;> rw [h'] at hc <;> cases hc
  | fftTransform =>
    refine Effect.of_command h (fun u hu => ?_) (fun c hc => ?_) <;>
      rcases opFftTransform_cases s with ⟨_, h'⟩ | ⟨hf, h'⟩
    · rw [h'] at hu; cases hu
    · exact .transformed rfl hf (h'.writesBuf hu)
    · rw [h'] at hc; cases hc; rfl
    · exact (h'.not_raise hc).elim
  | fftPass p4 =>
    refine Effect.of_command h (fun u hu => ?_) (fun c hc => ?_) <;>
      rcases opFftPass_cases p4.toNat s with ⟨_, h'⟩ | ⟨_, _, h'⟩ | ⟨_, hf, _, h'⟩
    · rw [passNumber, h'] at hu; cases hu
    · rw [passNumber, h'] at hu; cases hu
    · exact .transformed rfl hf (h'.writesBuf hu)
    · rw [passNumber, h'] at hc; cases hc; rfl
    · rw [passNumber, h'] at hc; cases hc; rfl
    · exact (h'.not_raise hc).elim
  | fftBfly p4 k =>
    refine Effect.of_command h (fun u hu => ?_) (fun c hc => ?_) <;>
      rcases opFftBfly_cases p4.toNat k.toNat s with
        ⟨_, h'⟩ | ⟨_, _, h'⟩ | ⟨_, hf, j, _, _, h'⟩ | ⟨_, hf, h'⟩
    · rw [passNumber, elemIndex, h'] at hu; cases hu
    · rw [passNumber, elemIndex, h'] at hu; cases hu
    · rw [passNumber, elemIndex, h'] at hu; cases hu
    · exact .transformed rfl hf (opFftBfly_writesBuf hu)
    · rw [passNumber, elemIndex, h'] at hc; cases hc; rfl
    · rw [passNumber, elemIndex, h'] at hc; cases hc; rfl
    · rw [passNumber, elemIndex, h'] at hc; cases hc
    · rw [passNumber, elemIndex, h'] at hc; cases hc
  | fsmTick => exact Effect.of_tick h
  | sysReset => cases h; exact .reset
  | proxPoll v1 => cases h; exact .polled v1
  | actOpen => cases h; exact .opened
  | actClose => cases h; exact .closed
  | acqIsfull =>
    rw [exec_acqIsfull] at h
    exact Effect.of_query rfl h (fun c hc => by cases hc)
  | acqStatus =>
    rw [exec_acqStatus] at h
    exact Effect.of_query rfl h (fun c hc => by cases hc)
  | acqRead idx =>
    refine Effect.of_query rfl h (fun c hc => ?_)
    rcases readFull_raise (map_raise.1 hc) with rfl | rfl <;> rfl
  | twRead idx =>
    refine Effect.of_query rfl h (fun c hc => ?_)
    split at hc <;> cases hc
    rfl
  | matchIsmatch =>
    refine Effect.of_query rfl h (fun c hc => ?_)
    rw [opMatchError_raise (map_raise.1 hc)]; rfl
  | matchError =>
    refine Effect.of_query rfl h (fun c hc => ?_)
    rw [opMatchError_raise (map_raise.1 hc)]; rfl
  | keyRead idx =>
    refine Effect.of_query rfl h (fun c hc => ?_)
    split at hc <;> cases hc
    rfl
  | matchLogmag idx =>
    refine Effect.of_query rfl h (fun c hc => ?_)
    rcases readFull_raise (map_raise.1 hc) with rfl | rfl <;> rfl

/-- A state whose BUF alone was written, as an update of the state before. -/
theorem WritesBuf.returns {u : State} (hw : WritesBuf s u) :
    u.returns none = { s with buf := u.buf, result := none } := by
  conv_lhs => rw [hw.frame]
  rfl

end Sys2Proof.Machine
end

