-- ==== Sys2Proof/Laws/PerInstr.lean ====
section
/-! SUPPORT. A statement about each operation as text: its encoding has the match bits of its row, and so no
reserved bit set (30_encoding.md R101, R106). -/

namespace Sys2Proof.Laws

/-- Outside the free bits of its format the word of an operation is its row's match word. -/
def MatchBits.Statement (i : Instr) : Prop :=
  encode i &&& ~~~ i.opcode.format.maskFree = i.opcode.matchWord

theorem MatchBits.acqStart : MatchBits.Statement .acqStart := by
  unfold MatchBits.Statement; decide

theorem MatchBits.acqReset : MatchBits.Statement .acqReset := by
  unfold MatchBits.Statement; decide

theorem MatchBits.acqSample (v8 : BitVec 8) : MatchBits.Statement (.acqSample v8) := by
  unfold MatchBits.Statement
  ext b hb
  simp only [encode, Instr.operandBits, Instr.opcode, Opcode.matchWord, Opcode.code, Opcode.format,
    Format.maskFree]
  interval_cases b <;> simp

theorem MatchBits.acqTrigger : MatchBits.Statement .acqTrigger := by
  unfold MatchBits.Statement; decide

theorem MatchBits.acqIsfull : MatchBits.Statement .acqIsfull := by
  unfold MatchBits.Statement; decide

theorem MatchBits.acqStatus : MatchBits.Statement .acqStatus := by
  unfold MatchBits.Statement; decide

theorem MatchBits.acqRead (idx : BitVec 16) : MatchBits.Statement (.acqRead idx) := by
  unfold MatchBits.Statement
  ext b hb
  simp only [encode, Instr.operandBits, Instr.opcode, Opcode.matchWord, Opcode.code, Opcode.format,
    Format.maskFree]
  interval_cases b <;> simp

theorem MatchBits.fftTransform : MatchBits.Statement .fftTransform := by
  unfold MatchBits.Statement; decide

theorem MatchBits.fftPass (p4 : BitVec 4) : MatchBits.Statement (.fftPass p4) := by
  unfold MatchBits.Statement
  ext b hb
  simp only [encode, Instr.operandBits, Instr.opcode, Opcode.matchWord, Opcode.code, Opcode.format,
    Format.maskFree]
  interval_cases b <;> simp

theorem MatchBits.fftBfly (p4 : BitVec 4) (k : BitVec 16) : MatchBits.Statement (.fftBfly p4 k) := by
  unfold MatchBits.Statement
  ext b hb
  simp only [encode, Instr.operandBits, Instr.opcode, Opcode.matchWord, Opcode.code, Opcode.format,
    Format.maskFree]
  interval_cases b <;> simp

theorem MatchBits.twRead (idx : BitVec 16) : MatchBits.Statement (.twRead idx) := by
  unfold MatchBits.Statement
  ext b hb
  simp only [encode, Instr.operandBits, Instr.opcode, Opcode.matchWord, Opcode.code, Opcode.format,
    Format.maskFree]
  interval_cases b <;> simp

theorem MatchBits.matchIsmatch : MatchBits.Statement .matchIsmatch := by
  unfold MatchBits.Statement; decide

theorem MatchBits.matchError : MatchBits.Statement .matchError := by
  unfold MatchBits.Statement; decide

theorem MatchBits.keyRead (idx : BitVec 16) : MatchBits.Statement (.keyRead idx) := by
  unfold MatchBits.Statement
  ext b hb
  simp only [encode, Instr.operandBits, Instr.opcode, Opcode.matchWord, Opcode.code, Opcode.format,
    Format.maskFree]
  interval_cases b <;> simp

theorem MatchBits.matchLogmag (idx : BitVec 16) : MatchBits.Statement (.matchLogmag idx) := by
  unfold MatchBits.Statement
  ext b hb
  simp only [encode, Instr.operandBits, Instr.opcode, Opcode.matchWord, Opcode.code, Opcode.format,
    Format.maskFree]
  interval_cases b <;> simp

theorem MatchBits.fsmTick : MatchBits.Statement .fsmTick := by
  unfold MatchBits.Statement; decide

theorem MatchBits.sysReset : MatchBits.Statement .sysReset := by
  unfold MatchBits.Statement; decide

theorem MatchBits.proxPoll (v1 : BitVec 1) : MatchBits.Statement (.proxPoll v1) := by
  unfold MatchBits.Statement
  ext b hb
  simp only [encode, Instr.operandBits, Instr.opcode, Opcode.matchWord, Opcode.code, Opcode.format,
    Format.maskFree]
  interval_cases b <;> simp

theorem MatchBits.actOpen : MatchBits.Statement .actOpen := by
  unfold MatchBits.Statement; decide

theorem MatchBits.actClose : MatchBits.Statement .actClose := by
  unfold MatchBits.Statement; decide

end Sys2Proof.Laws
end

