-- ==== Sys2Proof/Laws/Progress.lean ====
section
/-! SUPPORT. The position of a transform (10_state.md R43): the first one is a position of the loop of R168, the
next one again, and each is a butterfly that FFT.BFLY accepts. -/

namespace Sys2Proof.Machine

theorem Progress.ok_iff {c : Config} {p stride j cl k : Nat} :
    Progress.ok c ⟨p, stride, j, cl, k⟩ = true ↔
      p < c.log2N ∧ stride = c.stride p ∧ j = cl * (2 * c.stride p) ∧ j + 2 * c.stride p ≤ c.n ∧ j ≤ k ∧
      k < j + c.stride p := by
  simp only [Progress.ok, Bool.and_eq_true, decide_eq_true_eq, and_assoc]
  constructor <;> rintro ⟨h1, h2, h⟩ <;> subst h2 <;> exact ⟨h1, rfl, h⟩

theorem Progress.first_ok (c : Config) : (Progress.first c).ok c = true := by
  have h := c.log2N_range.1
  have := c.two_half
  have := c.n_pos
  refine Progress.ok_iff.2 ?_
  rw [Config.stride_zero]
  omega

/-- The next cluster of a pass lies inside BUF when its first element does. -/
theorem next_cluster_le {c : Config} {p cl : Nat} (hp : p < c.log2N)
    (h : cl * (2 * c.stride p) + 2 * c.stride p < c.n) :
    cl * (2 * c.stride p) + 2 * c.stride p + 2 * c.stride p ≤ c.n := by
  have hc := c.clusters_eq p hp
  generalize 2 * c.stride p = w at *
  rw [← hc] at h ⊢
  have h1 : (cl + 1) * w < 2 ^ p * w := by rw [Nat.add_mul, Nat.one_mul]; exact h
  have h2 : cl + 1 < 2 ^ p := Nat.lt_of_mul_lt_mul_right h1
  calc cl * w + w + w = (cl + 2) * w := by ring
    _ ≤ 2 ^ p * w := Nat.mul_le_mul_right _ h2

theorem Progress.next_ok {c : Config} {g g' : Progress} (h : g.ok c = true)
    (hn : g.next c = some g') : g'.ok c = true := by
  obtain ⟨p, stride, j, cl, k⟩ := g
  obtain ⟨h1, rfl, rfl, h4, h5, h6⟩ := Progress.ok_iff.1 h
  have hs := c.stride_pos p h1
  simp only [Progress.next] at hn
  split at hn
  · cases hn
    exact Progress.ok_iff.2 ⟨h1, rfl, rfl, h4, by omega, by omega⟩
  · split at hn
    · rename_i hlt
      cases hn
      exact Progress.ok_iff.2 ⟨h1, rfl, by rw [Nat.add_mul, Nat.one_mul], next_cluster_le h1 hlt,
        Nat.le_refl _, by omega⟩
    · split at hn
      · rename_i hp
        cases hn
        have hs' := c.stride_pos _ hp
        have hc' := c.clusters_eq _ hp
        have hle : 2 * c.stride (p + 1) ≤ c.n := by
          rw [← hc']
          exact Nat.le_mul_of_pos_left _ (Nat.two_pow_pos _)
        exact Progress.ok_iff.2 ⟨hp, (Config.stride_succ c p).symm, by omega, by omega, by omega, by omega⟩
      · cases hn

theorem Progress.ok_bfly {c : Config} {g : Progress} (h : g.ok c = true) : bflyOk c g.p g.k = true := by
  obtain ⟨p, stride, j, cl, k⟩ := g
  obtain ⟨h1, rfl, rfl, h4, h5, h6⟩ := Progress.ok_iff.1 h
  obtain ⟨d, rfl⟩ := Nat.exists_eq_add_of_le h5
  refine bflyOk_iff.2 ⟨h1, show cl * (2 * c.stride p) + d < c.n by omega, ?_⟩
  show (cl * (2 * c.stride p) + d) % (2 * c.stride p) < c.stride p
  rw [Nat.mul_comm cl, Nat.mul_add_mod, Nat.mod_eq_of_lt (by omega)]
  omega

end Sys2Proof.Machine
end

