-- ==== Sys2Proof/Tests/Slice0.lean ====
section
/-! SUPPORT. Tests. Expected values are those of spec/95_test_vectors.md (named rows), or worked by hand from the
rule a comment names. A theorem `test_witness_<Statement>…` shows values that meet all hypotheses of that
statement, or of one clause of it, at once. -/

namespace Sys2Proof.Tests

open Sys2Proof Sys2Proof.Machine

/-! ## helpers -/

/-- N = 4, TRIGGERED, with the given key and threshold. -/
def cfgT (key : Vector Byte 4) (threshold : BitVec 32) : Config := ⟨2, by decide, .triggered, threshold, key⟩

/-- The configuration of program P4: N = 2, FREE_RUNNING. -/
def cfgF : Config := ⟨1, by decide, .freeRunning, 1, #v[0, 1]⟩

/-- The configuration of program P3. -/
def cfg3 : Config := cfgT #v[1, 0, 0, 0] 1

/-- N = 8, TRIGGERED. -/
def cfg8 : Config := ⟨3, by decide, .triggered, 1, #v[0, 0, 0, 0, 0, 0, 0, 0]⟩

/-- BUF with the elements listed, from element i on. -/
def bufFrom (i : Nat) : List (Int × Int) → Memory
  | [] => []
  | (re, im) :: rest => (2 * i, BitVec.ofInt 8 re) :: (2 * i + 1, BitVec.ofInt 8 im) :: bufFrom (i + 1) rest

/-- A state with the flags F/C/A, CURSOR and BUF given, everything else as after reset. -/
def flags (c : Config) (full collecting armed : Bool) (cursor : Nat) (elems : List (Int × Int)) : State :=
  { State.resetOf c with
    full := full, collecting := collecting, armed := armed, cursor := BitVec.ofNat 11 cursor
    buf := bufFrom 0 elems }

/-- The full buffer 1, 2, 3, 4 of the vectors for N = 4. -/
def full1234 : State := flags cfg3 true true false 4 [(1, 0), (2, 0), (3, 0), (4, 0)]

/-- The same buffer transformed. -/
def transformed : State := flags cfg3 true true false 4 [(7, 0), (-2, 0), (-2, 1), (-2, -2)]

/-- Collecting, two of four samples stored. -/
def collecting2 : State := flags cfg3 false true true 2 [(1, 0), (2, 0)]

/-- Idle. -/
def idle : State := State.resetOf cfg3

/-- Full, FREE_RUNNING, N = 2. -/
def fullF : State := flags cfgF true true false 2 [(5, 0), (-3, 0)]

/-- The next state, where there is one. -/
def after (o : Host.Outcome State Fault Refusal) : Option State :=
  match o with
  | .next t => some t
  | .fault _ => none
  | .refused _ => none

/-- The refusal, where there is one. -/
def refusal (o : Host.Outcome State Fault Refusal) : Option Refusal :=
  match o with
  | .refused r => some r
  | .next _ => none
  | .fault _ => none

/-- The machine stop, where there is one. -/
def stop (o : Host.Outcome State Fault Refusal) : Option Fault :=
  match o with
  | .fault f => some f
  | .next _ => none
  | .refused _ => none

/-- The elements of BUF as signed pairs. -/
def elems (s : State) : List (Option (Int × Int)) :=
  (List.range s.cfg.n).map (fun i => (s.elem? i).map (fun z => (z.re.toInt, z.im.toInt)))

/-- S1, CURSOR, FAULT and the returned value. -/
structure View where
  s1 : BitVec 8
  cursor : Nat
  fault : Option FaultCode
  result : Option Result
  deriving DecidableEq, Repr

def view (s : State) : View := ⟨s.s1, s.cursor.toNat, s.fault, s.result⟩

/-- STATE, OUT, and the flags. -/
structure TickView where
  fsm : FsmState
  out : List OutEvent
  flags : View
  deriving DecidableEq, Repr

def tickView (s : State) : TickView := ⟨s.fsm, s.out, view s⟩

def pair (re im : Int) : Cplx := ⟨BitVec.ofInt 8 re, BitVec.ofInt 8 im⟩

/-! ## well-formedness: each check refuses an ill-formed term -/

/-- R104: an output event is no input, an input operation is no trace word. -/
theorem test_wf_context :
    Instr.wellFormed .input .acqStart = true ∧ Instr.wellFormed .input (.proxPoll 1) = false ∧
    Instr.wellFormed .trace .actOpen = true ∧ Instr.wellFormed .trace .sysReset = false := by decide

/-- R107: operand counts. -/
theorem test_wf_operand_count :
    Format.argsOk .n [] = true ∧ Format.argsOk .n [0] = false ∧ Format.argsOk .v [] = false ∧
    Format.argsOk .i [1, 2] = false ∧ Format.argsOk .p [] = false ∧ Format.argsOk .b [1] = false ∧
    Format.argsOk .o [] = false := by decide

/-- R107: operand ranges, each at its bounds. -/
theorem test_wf_operand_range :
    Format.argsOk .v [-128] = true ∧ Format.argsOk .v [-129] = false ∧ Format.argsOk .v [255] = true ∧
    Format.argsOk .v [256] = false ∧ Format.argsOk .i [65535] = true ∧ Format.argsOk .i [65536] = false ∧
    Format.argsOk .i [-1] = false ∧ Format.argsOk .p [15] = true ∧ Format.argsOk .p [16] = false ∧
    Format.argsOk .b [15, 65535] = true ∧ Format.argsOk .b [16, 0] = false ∧
    Format.argsOk .b [0, 65536] = false ∧ Format.argsOk .o [1] = true ∧ Format.argsOk .o [2] = false := by
  decide

/-- R108: the pseudo-operations' own checks. -/
theorem test_wf_pseudo :
    AsmLine.wellFormed (.acqFill []) = false ∧ AsmLine.wellFormed (.acqFill [1, 256]) = false ∧
    AsmLine.wellFormed (.acqFill [1]) = true ∧ AsmLine.wellFormed (.fsmTicks 0) = false ∧
    AsmLine.wellFormed (.fsmTicks 1) = true := by decide

/-! ## decoding: words written out from the encoding tables (R100 to R103) -/

/-- ACQ: OPC 0x01 to 0x07. -/
theorem test_decode_acq :
    decode .input 0b00000001_00000000_00000000_00000000 = .ok .acqStart ∧
    decode .input 0b00000010_00000000_00000000_00000000 = .ok .acqReset ∧
    decode .input 0b00000011_00000000_00000000_10000001 = .ok (.acqSample 0x81) ∧
    decode .input 0b00000100_00000000_00000000_00000000 = .ok .acqTrigger ∧
    decode .input 0b00000101_00000000_00000000_00000000 = .ok .acqIsfull ∧
    decode .input 0b00000110_00000000_00000000_00000000 = .ok .acqStatus ∧
    decode .input 0b00000111_00000000_10000000_00000010 = .ok (.acqRead 0x8002) := by decide

/-- FFT and TW: OPC 0x10 to 0x13. -/
theorem test_decode_fft :
    decode .input 0b00010000_00000000_00000000_00000000 = .ok .fftTransform ∧
    decode .input 0b00010001_10010000_00000000_00000000 = .ok (.fftPass 9) ∧
    decode .input 0b00010010_00010000_10000000_00000011 = .ok (.fftBfly 1 0x8003) ∧
    decode .input 0b00010011_00000000_00000001_00000000 = .ok (.twRead 0x100) := by decide

/-- MATCH and KEY: OPC 0x20 to 0x23. -/
theorem test_decode_match :
    decode .input 0b00100000_00000000_00000000_00000000 = .ok .matchIsmatch ∧
    decode .input 0b00100001_00000000_00000000_00000000 = .ok .matchError ∧
    decode .input 0b00100010_00000000_00000000_00000101 = .ok (.keyRead 5) ∧
    decode .input 0b00100011_00000000_11111111_11111111 = .ok (.matchLogmag 0xFFFF) := by decide

/-- FSM, SYS and the output events: OPC 0x30, 0x31, 0x40 to 0x42. -/
theorem test_decode_fsm_sys_events :
    decode .input 0b00110000_00000000_00000000_00000000 = .ok .fsmTick ∧
    decode .input 0b00110001_00000000_00000000_00000000 = .ok .sysReset ∧
    decode .trace 0b01000000_00000000_00000000_00000001 = .ok (.proxPoll 1) ∧
    decode .trace 0b01000001_00000000_00000000_00000000 = .ok .actOpen ∧
    decode .trace 0b01000010_00000000_00000000_00000000 = .ok .actClose := by decide

/-- 95 section 2.1: every invalid row. -/
theorem test_decode_invalid :
    decode .input 0x00000000 = .error (.unassignedOpcode 0x00) ∧
    decode .input 0x08000000 = .error (.unassignedOpcode 0x08) ∧
    decode .input 0xFF000000 = .error (.unassignedOpcode 0xFF) ∧
    decode .input 0x01000001 = .error (.reservedBits .acqStart) ∧
    decode .input 0x03000180 = .error (.reservedBits .acqSample) ∧
    decode .input 0x07010000 = .error (.reservedBits .acqRead) ∧
    decode .input 0x11100001 = .error (.reservedBits .fftPass) ∧
    decode .input 0x12110003 = .error (.reservedBits .fftBfly) ∧
    decode .trace 0x40000002 = .error (.reservedBits .proxPoll) ∧
    decode .input 0x40000001 = .error (.wrongContext .proxPoll) ∧
    decode .trace 0x31000000 = .error (.wrongContext .sysReset) := by decide

/-- The encoder gives the words of 95 section 3. -/
theorem test_encode :
    encode (.acqSample 0xFD) = 0x030000FD ∧ encode (.fftBfly 2 6) = 0x12200006 ∧
    encode (.fftPass 1) = 0x11100000 ∧ encode (.matchLogmag 9) = 0x23000009 ∧
    encode (.proxPoll 0) = 0x40000000 := by decide

/-- R107, and the listings of 95 section 3: assembler text. -/
theorem test_assemble_text :
    assembleText "fft.bfly 1, 2 ; a comment".toList = some [0x12100002] ∧
    assembleText "acq.sample -1".toList = some [0x030000FF] ∧
    assembleText "acq.sample 255".toList = some [0x030000FF] ∧
    assembleText "acq.fill 10, -20".toList = some [0x0300000A, 0x030000EC] ∧
    assembleText "; only a comment".toList = some [] ∧
    assembleText "acq.sample 256".toList = none ∧ assembleText "no.such".toList = none ∧
    nearbyComment "fsm.tick ; nearby=1".toList = some 1 := by decide

/-- The host's numbering: words of both contexts, and an invalid one. -/
theorem test_decodeTableWord :
    decodeTableWord 32 0x12100003 = some (.fftBfly 1 3) ∧
    decodeTableWord 32 0x42000000 = some .actClose ∧ decodeTableWord 32 0x01000001 = none := by decide

/-! ## one step per operation -/

/-- 95 A1, A3. -/
theorem test_acq_start :
    (after (exec .acqStart idle)).map view = some ⟨0x06, 0, none, none⟩ ∧
    (after (exec .acqStart full1234)).map view = some ⟨0x06, 0, none, none⟩ := by decide

/-- 95 A2. -/
theorem test_acq_start_fault :
    (after (exec .acqStart collecting2)).map view = some ⟨0x06, 2, some .startCollecting, none⟩ := by decide

/-- 95 A5, A4. -/
theorem test_acq_reset :
    (after (exec .acqReset full1234)).map view = some ⟨0x00, 0, none, none⟩ ∧
    (after (exec .acqReset full1234)).map elems = some (elems full1234) ∧
    (after (exec .acqReset collecting2)).map view = some ⟨0x06, 2, some .resetArmed, none⟩ := by decide

/-- 95 A6, A7: the N-th sample, and a late one. -/
theorem test_acq_sample_last :
    (after (exec (.acqSample 4) (flags cfg3 false true true 3 [(1, 0), (2, 0), (3, 0)]))).map view =
      some ⟨0x03, 4, none, none⟩ ∧
    (after (exec (.acqSample 4) (flags cfg3 false true true 3 [(1, 0), (2, 0), (3, 0)]))).map elems =
      some (elems full1234) ∧
    (after (exec (.acqSample 9) full1234)).map elems = some (elems full1234) := by decide

/-- 95 A8: the most negative sample is stored as it is. -/
theorem test_acq_sample_negative :
    (after (exec (.acqSample 0x80) (flags cfg3 false true true 0 []))).map view = some ⟨0x06, 1, none, none⟩ ∧
    (after (exec (.acqSample 0x80) (flags cfg3 false true true 0 []))).map elems =
      some [some (-128, 0), none, none, none] := by decide

/-- 95 A9, A10, A11, A12. -/
theorem test_acq_trigger :
    (after (exec .acqTrigger idle)).map view = some ⟨0x06, 0, none, none⟩ ∧
    (after (exec .acqTrigger collecting2)).map view = some ⟨0x06, 2, none, none⟩ ∧
    (after (exec .acqTrigger full1234)).map view = some ⟨0x03, 4, none, none⟩ ∧
    (after (exec .acqTrigger (State.resetOf cfgF))).map view = some ⟨0x06, 0, none, none⟩ := by decide

/-- 95 A13, and P1 step 10. -/
theorem test_acq_isfull :
    (after (exec .acqIsfull collecting2)).map view = some ⟨0x06, 2, none, some (.full 0)⟩ ∧
    (after (exec .acqIsfull full1234)).map view = some ⟨0x03, 4, none, some (.full 1)⟩ := by decide

/-- 95 A14, A15, A16. -/
theorem test_acq_status :
    (after (exec .acqStatus full1234)).map view = some ⟨0x03, 4, none, some (.status 2)⟩ ∧
    (after (exec .acqStatus collecting2)).map view = some ⟨0x06, 2, none, some (.status 1)⟩ ∧
    (after (exec .acqStatus idle)).map view = some ⟨0x00, 0, none, some (.status 0)⟩ := by decide

/-- 95 A17, A18. -/
theorem test_acq_read :
    (after (exec (.acqRead 2) full1234)).map view = some ⟨0x03, 4, none, some (.element 0x0003)⟩ ∧
    (after (exec (.acqRead 3) transformed)).map view = some ⟨0x03, 4, none, some (.element 0xFEFE)⟩ := by
  decide

/-- 95 A19, A20, A21: the index is checked first. -/
theorem test_acq_read_fault :
    (after (exec (.acqRead 4) full1234)).map view = some ⟨0x03, 4, some .index, none⟩ ∧
    (after (exec (.acqRead 0) collecting2)).map view = some ⟨0x06, 2, some .notFull, none⟩ ∧
    (after (exec (.acqRead 4) collecting2)).map view = some ⟨0x06, 2, some .index, none⟩ := by decide

/-- 95 section 2.5: N = 4, samples 1, 2, 3, 4; and N = 2, samples 127, 127, which wrap. -/
theorem test_fft_transform :
    (after (exec .fftTransform full1234)).map elems = some (elems transformed) ∧
    (after (exec .fftTransform (flags cfgF true true false 2 [(127, 0), (127, 0)]))).map elems =
      some [some (-3, 0), some (0, 0)] := by decide

/-- 95 P6 step 2. -/
theorem test_fft_transform_not_full :
    (after (exec .fftTransform idle)).map view = some ⟨0x00, 0, some .notFull, none⟩ := by decide

/-- 95 section 2.5: both passes of the N = 4 trace. -/
theorem test_fft_pass :
    (after (exec (.fftPass 0) full1234)).map elems =
      some [some (3, 0), some (5, 0), some (-2, 0), some (-2, 0)] ∧
    (after (exec (.fftPass 1) (flags cfg3 true true false 4 [(3, 0), (5, 0), (-2, 0), (-2, 0)]))).map elems =
      some (elems transformed) := by decide

/-- 95 section 2.5, operand faults: L = 2, so pass 2 is out of range. -/
theorem test_fft_pass_fault :
    (after (exec (.fftPass 2) full1234)).map view = some ⟨0x03, 4, some .index, none⟩ := by decide

/-- 95 section 2.5: butterflies out of order. -/
theorem test_fft_bfly :
    (after (exec (.fftBfly 0 1) full1234)).map elems =
      some [some (1, 0), some (5, 0), some (3, 0), some (-2, 0)] ∧
    (after (exec (.fftBfly 1 2) (flags cfg3 true true false 4 [(1, 0), (5, 0), (3, 0), (-2, 0)]))).map elems =
      some [some (1, 0), some (5, 0), some (3, 1), some (3, -2)] := by decide

/-- 95 section 2.5, operand faults. -/
theorem test_fft_bfly_fault :
    (after (exec (.fftBfly 0 2) full1234)).map view = some ⟨0x03, 4, some .index, none⟩ ∧
    (after (exec (.fftBfly 1 1) full1234)).map view = some ⟨0x03, 4, some .index, none⟩ ∧
    (after (exec (.fftBfly 2 0) full1234)).map view = some ⟨0x03, 4, some .index, none⟩ := by decide

/-- 95 section 2.4: the tables for N = 2, 4 and 8, all rows. -/
theorem test_tw_read :
    ((List.range 2).map (fun i => (tw cfgF i).elem)) = [0x007F, 0x0081] ∧
    ((List.range 4).map (fun i => (tw cfg3 i).elem)) = [0x007F, 0x8100, 0x0081, 0x7F00] ∧
    ((List.range 8).map (fun i => (tw cfg8 i).elem)) =
      [0x007F, 0x8100, 0xA65A, 0xA6A6, 0x0081, 0x7F00, 0x5AA6, 0x5A5A] := by decide

/-- 95 section 2.4: no FULL precondition, and N itself is out of range. -/
theorem test_tw_read_step :
    (after (exec (.twRead 3) idle)).map view = some ⟨0x00, 0, none, some (.element 0x7F00)⟩ ∧
    (after (exec (.twRead 4) idle)).map view = some ⟨0x00, 0, some .index, none⟩ := by decide

/-- 95 E6: the threshold boundary with ERR = 4. -/
theorem test_match_ismatch :
    ([3, 4, 5].map (fun thr => (after (exec .matchIsmatch
      { transformed with cfg := cfgT #v[3, 0, 2, 0] thr })).map State.result)) =
      [some (some (.isMatch 0)), some (some (.isMatch 0)), some (some (.isMatch 1))] := by decide

/-- 95 section 2.6: the four keys. -/
theorem test_match_error :
    ([#v[1, 0, 0, 0], #v[3, 0, 2, 0], #v[0, 0, 0, 0], #v[255, 255, 255, 255]].map (fun key =>
      (after (exec .matchError { transformed with cfg := cfgT key 1 })).map State.result)) =
      [some (some (.error 0)), some (some (.error 4)), some (some (.error 1)), some (some (.error 1019))] := by
  decide

/-- 95 section 2.6: FULL = 0. -/
theorem test_match_not_full :
    (after (exec .matchError idle)).map State.fault = some (some .notFull) ∧
    (after (exec .matchIsmatch idle)).map State.fault = some (some .notFull) := by decide

/-- 95 section 2.6. -/
theorem test_key_read :
    (after (exec (.keyRead 2) { idle with cfg := cfgT #v[3, 0, 2, 0] 1 })).map view =
      some ⟨0x00, 0, none, some (.keyEntry 2)⟩ ∧
    (after (exec (.keyRead 4) { idle with cfg := cfgT #v[3, 0, 2, 0] 1 })).map view =
      some ⟨0x00, 0, some .index, none⟩ := by decide

/-- 95 section 2.6, and its faults. -/
theorem test_match_logmag :
    (after (exec (.matchLogmag 0) transformed)).map State.result = some (some (.logMag 1)) ∧
    (after (exec (.matchLogmag 3) transformed)).map State.result = some (some (.logMag 0)) ∧
    (after (exec (.matchLogmag 0) idle)).map State.fault = some (some .notFull) ∧
    (after (exec (.matchLogmag 9) idle)).map State.fault = some (some .index) := by decide

/-- 95 T1 to T5: Init and Analyze ticks. -/
theorem test_tick_init_analyze :
    (after (exec .fsmTick idle)).map tickView = some ⟨.stateInit, [], 0x00, 0, none, none⟩ ∧
    (after (exec .fsmTick { full1234 with answers := [1] })).map tickView =
      some ⟨.stateAnalyze, [.proxPoll 1], 0x03, 4, none, none⟩ ∧
    (after (exec .fsmTick { full1234 with answers := [0] })).map tickView =
      some ⟨.stateReset, [.proxPoll 0], 0x03, 4, none, none⟩ ∧
    (after (exec .fsmTick { full1234 with fsm := .stateAnalyze })).map tickView =
      some ⟨.stateOpen, [], 0x03, 4, none, none⟩ ∧
    (after (exec .fsmTick { full1234 with fsm := .stateAnalyze })).map elems = some (elems transformed) ∧
    (after (exec .fsmTick { full1234 with fsm := .stateAnalyze, cfg := cfgT #v[0, 0, 0, 0] 1 })).map
      tickView = some ⟨.stateReset, [], 0x03, 4, none, none⟩ := by
  refine ⟨?_, ?_, ?_, ?_, ?_, ?_⟩ <;> decide +kernel

/-- 95 T6 to T11: the faults, Open and Reset ticks. -/
theorem test_tick_open_reset :
    (after (exec .fsmTick { collecting2 with fsm := .stateAnalyze })).map tickView =
      some ⟨.stateAnalyze, [], 0x06, 2, some .notFull, none⟩ ∧
    (after (exec .fsmTick { transformed with fsm := .stateOpen, answers := [1] })).map tickView =
      some ⟨.stateOpen, [.actOpen, .proxPoll 1], 0x03, 4, none, none⟩ ∧
    (after (exec .fsmTick { transformed with fsm := .stateOpen, answers := [0] })).map tickView =
      some ⟨.stateReset, [.actOpen, .proxPoll 0], 0x03, 4, none, none⟩ ∧
    (after (exec .fsmTick { transformed with fsm := .stateReset })).map tickView =
      some ⟨.stateInit, [.actClose], 0x00, 0, none, none⟩ ∧
    (after (exec .fsmTick { collecting2 with fsm := .stateReset })).map tickView =
      some ⟨.stateReset, [], 0x06, 2, some .resetArmed, none⟩ ∧
    (after (exec .fsmTick { fullF with fsm := .stateReset })).map tickView =
      some ⟨.stateInit, [.actClose], 0x06, 0, none, none⟩ := by
  refine ⟨?_, ?_, ?_, ?_, ?_, ?_⟩ <;> decide +kernel

/-- 95 section 2.10, third row; and P6 step 17: FAULT is kept. -/
theorem test_sys_reset :
    (after (exec .sysReset
      { transformed with fsm := .stateOpen, fault := some .notFull, out := [.actOpen] })).map tickView = some ⟨.stateInit, [.actOpen], 0x00, 0, some .notFull, none⟩ ∧
    (after (exec .sysReset fullF)).map view = some ⟨0x06, 0, none, none⟩ := by decide

/-- 95 section 2.8. -/
theorem test_output_events :
    (after (exec (.proxPoll 1) idle)).map (fun t => t.out.map OutEvent.traceWord) = some [0x40000001] ∧
    (after (exec .actOpen idle)).map (fun t => t.out.map OutEvent.traceWord) = some [0x41000000] ∧
    (after (exec .actClose idle)).map (fun t => t.out.map OutEvent.traceWord) = some [0x42000000] := by decide

/-! ## arithmetic -/

/-- 95 section 2.3: CMUL, all rows. -/
theorem test_cmul :
    [cmul (pair 1 0) (pair 127 0), cmul (pair (-1) 0) (pair 127 0), cmul (pair 100 0) (pair 127 0),
      cmul (pair (-128) 0) (pair 127 0), cmul (pair (-128) (-128)) (pair 127 0),
      cmul (pair (-128) (-128)) (pair (-127) 0), cmul (pair 64 64) (pair 90 (-90)),
      cmul (pair (-128) 127) (pair 90 (-90)), cmul (pair 127 127) (pair 0 (-127)),
      cmul (pair (-128) (-128)) (pair 0 (-127)), cmul (pair 3 (-5)) (pair (-90) (-90)),
      cmul (pair 127 127) (pair 90 (-90))] =
    [pair 0 0, pair (-1) 0, pair 99 0, pair (-127) 0, pair (-127) (-127), pair 127 127, pair 90 0,
      pair (-1) (-77), pair 126 (-127), pair (-127) 127, pair (-6) 1, pair (-78) 0] := by decide

/-- 95 section 2.3: CADD, all rows. -/
theorem test_cadd :
    cadd (pair 127 0) (pair 1 0) = pair (-128) 0 ∧ cadd (pair (-128) 0) (pair (-1) 0) = pair 127 0 ∧
    cadd (pair 100 (-100)) (pair 100 (-100)) = pair (-56) 56 ∧
    cadd (pair 5 5) (pair (-5) (-5)) = pair 0 0 := by decide

/-- 95 section 2.6: MAG2 and ILOG10. -/
theorem test_mag2_ilog10 :
    ([pair 0 0, pair 1 0, pair 3 0, pair 3 1, pair (-3) (-1), pair 9 3, pair 10 0, pair 31 3,
      pair (-31) (-4), pair 99 10, pair 100 0, pair 0 (-128), pair 127 (-128),
      pair (-128) (-128)].map (fun z => ((mag2 z).toNat, (ilog10 (mag2 z)).toNat))) =
    [(0, 0), (1, 0), (9, 0), (10, 1), (10, 1), (90, 1), (100, 2), (970, 2), (977, 2), (9901, 3), (10000, 4),
      (16384, 4), (32513, 4), (32768, 4)] := by decide

/-! ## a step, and the ways it refuses -/

/-- A placed word runs in the very next step from reset (log 5). -/
theorem test_withFetchWord :
    (after (step (State.reset.withFetchWord 32 0x04000000))).map view = some ⟨0x06, 0, none, none⟩ := by decide

/-- R104, R106: an output event given as input is refused. -/
theorem test_step_refuses_output_event :
    refusal (step (State.reset.withFetchWord 32 0x41000000)) = some (.invalidWord 0x41000000) := by decide

/-- R285: the sampler at an idle block, and a trigger in FREE_RUNNING mode. -/
theorem test_step_refuses_breaches :
    refusal (step { idle with inbox := [(Port.smpIrq 1).event] }) = some .sampleNotAdmitted ∧
    refusal (step { State.resetOf cfgF with inbox := [Port.trigIrq.event] }) = some .triggerNotAdmitted ∧
    refusal (step { full1234 with fsm := .stateOpen, phase := .openPoll, inbox := [Port.loop.event] }) =
      some (.tickInFlight .loop) ∧
    refusal (step { idle with inbox := [.word .sampler 0x01000000] }) =
      some (.notItsOperation .sampler 0x01000000) := by decide

/-- R80: a read of an element that nothing has written, with FULL = 1, stops the machine. -/
theorem test_stop_unwritten :
    stop (exec (.acqRead 1) (flags cfg3 true true false 4 [(1, 0)])) = some (.bufUnwritten 1) ∧
    stop (exec (.acqSample 1) (flags cfg3 false true true 4 [])) = some (.bufOutside 4) := by decide

/-- R236, R237: an Analyze tick run as its sub-steps, and a Reset tick in FREE_RUNNING mode. -/
theorem test_fine_ticks :
    after (fineTick { full1234 with fsm := .stateAnalyze }) =
      after (exec .fsmTick { full1234 with fsm := .stateAnalyze }) ∧
    after (fineTick { fullF with fsm := .stateReset }) = after (exec .fsmTick { fullF with fsm := .stateReset }) := by
  decide +kernel

/-! ## witnesses: every statement with hypotheses, every clause, at a boundary value -/

/-- A state with one event to deliver. -/
def withEvent (s : State) (e : Event) : State := { s with inbox := [e] }

/-- An Open tick in flight, between its two sub-steps. -/
def inOpen : State := { transformed with fsm := .stateOpen, phase := .openPoll }

/-- A Reset tick in flight: before ACQ.RESET, before ACQ.START (FREE_RUNNING), before the STATE write. -/
def atResetAcq : State := { transformed with fsm := .stateReset, phase := .resetAcq }
def atResetStart : State :=
  { flags cfgF false false false 0 [(5, 0), (-3, 0)] with fsm := .stateReset, phase := .resetStart }
def atResetWrite : State := { idle with fsm := .stateReset, phase := .resetWrite }

theorem test_witness_OpcodeRowsNeverOverlap :
    (0x12F0FFFF : OpWord) &&& ~~~ Opcode.fftBfly.format.maskFree = Opcode.fftBfly.matchWord := by decide

theorem test_witness_UnassignedCodesAreTheListedOnes :
    lookupOpcode ((0x42000000 : OpWord).extractLsb' 24 8) = some .actClose := by decide

theorem test_witness_AssemblerLinesExpandAsListed :
    Opcode.fftBfly.format.argsOk [15, 65535] = true ∧ ((-128 : Int) ≤ -128 ∧ (-128 : Int) ≤ 255) ∧
    ((15 : Nat) ≤ 15 ∧ (65535 : Nat) ≤ 65535) ∧
    (([-128, 255] : List Int) ≠ [] ∧ ∀ v ∈ ([-128, 255] : List Int), -128 ≤ v ∧ v ≤ 255) ∧ (1 : Nat) ≤ 1 := by
  decide

theorem test_witness_StepRunsTheDecodedOperation_word :
    (withEvent full1234 (.word .harness 0x11F00000)).inbox = .word .harness 0x11F00000 :: [] ∧
    decode .input 0x11F00000 = .ok (.fftPass 15) ∧
    refusalOf .harness 0x11F00000 (.fftPass 15) (withEvent full1234 (.word .harness 0x11F00000)) = none := by
  decide

theorem test_witness_StepRunsTheDecodedOperation_others :
    (withEvent inOpen .substep).inbox = .substep :: [] ∧ (idle.inbox = [] ∧ idle.phase = .idle) ∧
    (inOpen.inbox = [] ∧ inOpen.phase ≠ .idle) ∧
    decode .input (BitVec.ofNat 32 (0x0700FFFF % 2 ^ 32)) = .ok (.acqRead 0xFFFF) := by decide

theorem test_witness_DutyBreachesAreRefused :
    ((withEvent idle (.word .loop 0x01000001)).inbox = .word .loop 0x01000001 :: [] ∧
      decode .input 0x01000001 = .error (.reservedBits .acqStart)) ∧
    ((withEvent idle (Port.smpIrq 0xFF).event).inbox = (Port.smpIrq 0xFF).event :: [] ∧
      idle.armed = false ∧ idle.full = false) ∧
    ((withEvent fullF Port.trigIrq.event).inbox = Port.trigIrq.event :: [] ∧
      fullF.cfg.acqMode = .freeRunning) ∧
    ((withEvent inOpen (.word .harness 0x31000000)).inbox = .word .harness 0x31000000 :: [] ∧
      decode .input 0x31000000 = .ok .sysReset ∧ inOpen.phase ≠ .idle) ∧
    ((withEvent inOpen Port.loop.event).inbox = Port.loop.event :: [] ∧ inOpen.phase ≠ .idle) := by decide

theorem test_witness_AdmittedPortEventsRun :
    ((withEvent collecting2 (Port.smpIrq 0x80).event).inbox = (Port.smpIrq 0x80).event :: [] ∧
      (collecting2.armed = true ∨ collecting2.full = true)) ∧
    (inOpen.armed = true ∨ inOpen.full = true) ∧
    ((withEvent inOpen Port.trigIrq.event).inbox = Port.trigIrq.event :: [] ∧
      inOpen.cfg.acqMode = .triggered) ∧
    ((withEvent idle Port.loop.event).inbox = Port.loop.event :: [] ∧ idle.phase = .idle) ∧
    ((withEvent idle Port.rst.event).inbox = Port.rst.event :: [] ∧ idle.phase = .idle) := by decide

theorem test_witness_reset_modes :
    full1234.cfg.acqMode = .triggered ∧ fullF.cfg.acqMode = .freeRunning ∧ cfg3.acqMode = .triggered ∧
    cfgF.acqMode = .freeRunning := by decide

theorem test_witness_AcqStartStartsOrFaults :
    ¬(full1234.collecting = true ∧ full1234.full = false) ∧
    (collecting2.collecting = true ∧ collecting2.full = false) := by decide

theorem test_witness_AcqResetClearsOrFaults : full1234.armed = false ∧ collecting2.armed = true := by decide

/-- The late sample, the first stored one, and the N-th. -/
theorem test_witness_AcqSampleStoresOrDiscards :
    full1234.full = true ∧ (idle.full = false ∧ idle.cursor.toNat < idle.cfg.n) ∧
    ((flags cfg3 false true true 3 []).full = false ∧
      (flags cfg3 false true true 3 []).cursor.toNat + 1 = (flags cfg3 false true true 3 []).cfg.n) := by decide

theorem test_witness_AcqTriggerStartsOnlyWhenNotCollecting :
    (idle.cfg.acqMode = .triggered ∧ idle.collecting = false) ∧
    (full1234.cfg.acqMode = .triggered ∧ full1234.collecting = true) ∧
    fullF.cfg.acqMode = .freeRunning := by decide

/-- ACQ.READ, and with it MATCH.LOGMAG: the index N, the index 0 while not full, and the last element. -/
theorem test_witness_element_reads :
    full1234.cfg.n ≤ (4 : BitVec 16).toNat ∧
    ((0 : BitVec 16).toNat < collecting2.cfg.n ∧ collecting2.full = false) ∧
    ((3 : BitVec 16).toNat < full1234.cfg.n ∧ full1234.full = true ∧
      full1234.elem? (3 : BitVec 16).toNat = some ⟨4, 0⟩) := by decide

theorem test_witness_ExactlyNSamplesFillTheBuffer :
    ¬(idle.collecting = true ∧ idle.full = false) ∧
    ([1, 2, 3] : List (BitVec 8)).length < idle.cfg.n ∧ ([1, 2, 3, 4] : List (BitVec 8)).length = idle.cfg.n ∧
    ([1, 2, 3, 4] : List (BitVec 8))[3]? = some 4 := by decide

/-- A trigger, then two samples. -/
theorem test_witness_SecondTriggerIsIgnored :
    idle.cfg.acqMode = .triggered ∧ ∃ t u : State, exec .acqTrigger idle = .next t ∧ NoResetPath t u ∧
      u.cursor = 2 :=
  ⟨by decide, _, _, rfl, .op (.acqSample 2) (.op (.acqSample 1) (.refl _) (by decide) rfl) (by decide) rfl,
    by decide⟩

theorem test_witness_ExponentsAreBitReversedHalves :
    (7 : Nat) < 2 ^ 3 ∧ (3 : Nat) < cfg8.half ∧ (0 < cfg8.n ∧ exponent cfg8 0 = exponent cfg8 0) ∧
    (7 : Nat) < cfg8.n := by decide

/-- TwIsTheRoundedCircle, NegatedRotationLosesAtMostOne, CmulProductsNeverOverflow: the last entry of each half. -/
theorem test_witness_rotation_entries :
    (3 : Nat) < cfg8.half ∧ (cfg8.half ≤ 7 ∧ 7 < cfg8.n) := by decide

theorem test_witness_FftBflyCombinesOnePair :
    ¬((1 : BitVec 4).toNat < full1234.cfg.log2N ∧ (1 : BitVec 16).toNat < full1234.cfg.n ∧
      (1 : BitVec 16).toNat % (2 * full1234.cfg.stride (1 : BitVec 4).toNat) <
        full1234.cfg.stride (1 : BitVec 4).toNat) ∧
    ((1 : BitVec 4).toNat < full1234.cfg.log2N ∧ (2 : BitVec 16).toNat < full1234.cfg.n ∧
      (2 : BitVec 16).toNat % (2 * full1234.cfg.stride (1 : BitVec 4).toNat) <
        full1234.cfg.stride (1 : BitVec 4).toNat) ∧
    collecting2.full = false ∧ collecting2.cfg = full1234.cfg ∧
    (full1234.full = true ∧ full1234.elem? (2 : BitVec 16).toNat = some ⟨3, 0⟩ ∧
      full1234.elem? ((2 : BitVec 16).toNat + full1234.cfg.stride (1 : BitVec 4).toNat) = some ⟨4, 0⟩) := by
  decide

/-- FFT.PASS: the first pass number out of range, a last pass while not full, and one that completes. -/
theorem test_witness_FftPassCombinesEveryPairOnce :
    full1234.cfg.log2N ≤ (2 : BitVec 4).toNat ∧
    ((1 : BitVec 4).toNat < collecting2.cfg.log2N ∧ collecting2.full = false) ∧
    ((1 : BitVec 4).toNat < full1234.cfg.log2N ∧ full1234.full = true ∧ full1234.AllWritten) := by decide

/-- The butterflies of pass 0 of N = 4 in the other order. -/
theorem test_witness_OrderInsideAPassIsFree :
    full1234.full = true ∧ 0 < full1234.cfg.log2N ∧ Memory.wf full1234.buf = true ∧ full1234.AllWritten ∧
    ([1, 0] : List Nat).Perm (passUppers full1234.cfg 0) := by decide

/-- FFT.TRANSFORM, MATCH.ERROR and MATCH.ISMATCH: not full, and full with every element written. -/
theorem test_witness_full_and_not_full :
    collecting2.full = false ∧ full1234.full = true ∧ full1234.AllWritten := by decide

theorem test_witness_ExactNetworkIsTheDft : 3 < cfg3.n := by decide

theorem test_witness_RomReadsReturnTheEntry :
    (3 : BitVec 16).toNat < idle.cfg.n ∧ idle.cfg.n ≤ (4 : BitVec 16).toNat ∧
    (3 : BitVec 16).toNat < 2 ^ idle.cfg.log2N := by decide

theorem test_witness_Ilog10IsTheFloorOfTheLogarithm : 1 ≤ (1 : BitVec 16).toNat := by decide

/-- 95 E6: the transformed buffer against its own profile, with THRESHOLD = 1. -/
theorem test_witness_SelfMatchHasZeroError :
    transformed.full = true ∧ transformed.AllWritten ∧
    (∀ i : Nat, i < transformed.cfg.n → keyEntry transformed.cfg i = ilog10 (mag2 (transformed.elem i))) ∧
    1 ≤ transformed.cfg.threshold.toNat := by decide

theorem test_witness_EveryPollDrawsOneAnswer :
    ({ idle with answers := [1, 0] } : State).answers = 1 :: [0] ∧ idle.answers = [] := by decide

/-- InitTickPollsOnlyWhenFull, AnalyzeTickTransformsAndMatches, OpenTickOpensThenPolls and
ResetTickClosesAndClears: each state, with each clause's condition. -/
theorem test_witness_ticks :
    (idle.fsm = .stateInit ∧ idle.full = false) ∧ (full1234.fsm = .stateInit ∧ full1234.full = true) ∧
    (({ collecting2 with fsm := .stateAnalyze } : State).fsm = .stateAnalyze ∧ collecting2.full = false) ∧
    (({ full1234 with fsm := .stateAnalyze } : State).fsm = .stateAnalyze ∧ full1234.full = true ∧
      full1234.AllWritten) ∧
    ({ transformed with fsm := .stateOpen } : State).fsm = .stateOpen ∧
    (({ collecting2 with fsm := .stateReset } : State).fsm = .stateReset ∧ collecting2.armed = true) ∧
    (({ transformed with fsm := .stateReset } : State).fsm = .stateReset ∧ transformed.armed = false ∧
      transformed.cfg.acqMode = .triggered) ∧
    (({ fullF with fsm := .stateReset } : State).fsm = .stateReset ∧ fullF.armed = false ∧
      fullF.cfg.acqMode = .freeRunning) := by
  refine ⟨?_, ?_, ?_, ?_, ?_, ?_, ?_, ?_⟩ <;> decide

theorem test_witness_NobodyNearReturnsToInitInTwoTicks :
    full1234.fsm = .stateInit ∧ full1234.full = true ∧ full1234.armed = false ∧
    ({ full1234 with answers := [0] } : State).poll.1 = 0 := by decide

theorem test_witness_SubstepsMakeTheWholeTick :
    full1234.phase = .idle ∧ ({ full1234 with fsm := .stateAnalyze } : State).phase = .idle := by decide

/-- A late sample and an ignored trigger inside an Open tick, and before ACQ.RESET. -/
theorem test_witness_HandlersBeforeAcqResetChangeNothing :
    (inOpen.Inv ∧ inOpen.RunInv ∧ handlerAdmitted (.acqSample 0) inOpen = true ∧
      handlerAdmitted .acqTrigger inOpen = true ∧ inOpen.phase ≠ .idle ∧ inOpen.phase ≠ .resetStart ∧
      inOpen.phase ≠ .resetWrite) ∧
    (atResetAcq.Inv ∧ atResetAcq.RunInv ∧ handlerAdmitted .acqTrigger atResetAcq = true) := by
  refine ⟨⟨?_, ?_, ?_, ?_, ?_, ?_, ?_⟩, ?_, ?_, ?_⟩ <;> decide

theorem test_witness_HandlersAfterAcqResetMoveBehindTheTick_write :
    atResetWrite.phase = .resetWrite ∧ handlerAdmitted .acqTrigger atResetWrite = true ∧
    ∃ t : State, exec .acqTrigger atResetWrite = .next t ∧ t.armed = true :=
  ⟨by decide, by decide, _, rfl, by decide⟩

theorem test_witness_HandlersAfterAcqResetMoveBehindTheTick_start :
    atResetStart.Inv ∧ atResetStart.RunInv ∧ atResetStart.phase = .resetStart := by
  refine ⟨?_, ?_, ?_⟩ <;> decide

/-- R236's sentence read word for word fails here: a trigger before the ACQ.RESET sub-step is ignored, and the
block is idle after the tick; the same trigger right after the tick starts a collection. -/
theorem test_counterexample_EveryHandlerMovesBehindTheTick :
    atResetAcq.Inv ∧ atResetAcq.RunInv ∧ atResetAcq.phase ≠ .idle ∧
    handlerAdmitted .acqTrigger atResetAcq = true ∧
    ∃ t u v w : State, exec .acqTrigger atResetAcq = .next t ∧ fineTick atResetAcq = .next u ∧
      fineTick t = .next v ∧ exec .acqTrigger u = .next w ∧ v.collecting = false ∧ w.collecting = true := by
  refine ⟨?_, ?_, ?_, ?_, _, _, _, _, rfl, rfl, rfl, rfl, ?_, ?_⟩ <;> decide

theorem test_witness_ObservationRegistersShowTheFlags :
    (3 : Nat) ≤ 3 ∧ FsmState.stateReset.code = (3 : BitVec 2) := by decide

theorem test_witness_QueriesWriteNoBlockState :
    (Instr.matchIsmatch ∈ [Instr.acqIsfull, .acqStatus, .matchError, .matchIsmatch] ∧
      ∃ t : State, exec .matchIsmatch full1234 = .next t) ∧
    (Instr.acqRead 4 ∈ [Instr.acqRead 4, .twRead 4, .keyRead 4, .matchLogmag 4] ∧
      ∃ t : State, exec (.acqRead 4) full1234 = .next t) :=
  ⟨⟨by decide, _, rfl⟩, by decide, _, rfl⟩

theorem test_witness_AcqOperationsKeepTheRest :
    (∃ t : State, exec .acqStart full1234 = .next t) ∧ (∃ t : State, exec .acqReset full1234 = .next t) ∧
    (∃ t : State, exec .acqTrigger idle = .next t) ∧ full1234.full = true ∧
    (∃ t : State, exec (.acqSample 9) full1234 = .next t) ∧
    (∃ t : State, exec (.acqSample 9) idle = .next t) ∧ ((2 : Nat) ≠ 2 * idle.cursor.toNat ∧
      (2 : Nat) ≠ 2 * idle.cursor.toNat + 1) :=
  ⟨⟨_, rfl⟩, ⟨_, rfl⟩, ⟨_, rfl⟩, by decide, ⟨_, rfl⟩, ⟨_, rfl⟩, by decide⟩

theorem test_witness_FftOperationsKeepTheRest :
    (∃ t : State, exec .fftTransform full1234 = .next t) ∧ (∃ t : State, exec (.fftPass 1) full1234 = .next t) ∧
    (∃ t : State, exec (.fftBfly 1 0) full1234 = .next t) ∧ 2 * full1234.cfg.n ≤ 8 ∧
    ((4 : Nat) ≠ 2 * (0 : BitVec 16).toNat ∧ (4 : Nat) ≠ 2 * (0 : BitVec 16).toNat + 1 ∧
      (4 : Nat) ≠ 2 * ((0 : BitVec 16).toNat + full1234.cfg.stride (1 : BitVec 4).toNat) ∧
      (4 : Nat) ≠ 2 * ((0 : BitVec 16).toNat + full1234.cfg.stride (1 : BitVec 4).toNat) + 1) :=
  ⟨⟨_, rfl⟩, ⟨_, rfl⟩, ⟨_, rfl⟩, by decide, by decide⟩

theorem test_witness_TicksKeepTheRest :
    (∃ t : State, exec .fsmTick full1234 = .next t) ∧
    (∃ t : State, exec .fsmTick { full1234 with fsm := .stateAnalyze } = .next t) ∧
    (∃ t : State, exec .fsmTick { transformed with fsm := .stateOpen } = .next t) ∧
    (∃ t : State, exec .fsmTick { transformed with fsm := .stateReset } = .next t) ∧
    full1234.fsm = .stateInit ∧ transformed.cfg.acqMode = .triggered :=
  ⟨⟨_, rfl⟩, ⟨_, rfl⟩, ⟨_, rfl⟩, ⟨_, rfl⟩, by decide, by decide⟩

/-- OnlyTheNamedOperationsWrite: each element changed by an operation the clause names. -/
theorem test_witness_OnlyTheNamedOperationsWrite :
    (∃ t : State, exec .fsmTick { transformed with fsm := .stateReset } = .next t ∧ t.fsm ≠ .stateReset ∧
      t.out ≠ transformed.out ∧ t.collecting ≠ transformed.collecting ∧ t.cursor ≠ transformed.cursor) ∧
    (∃ t : State, exec .acqStart idle = .next t ∧ t.armed ≠ idle.armed) ∧
    (∃ t : State, exec (.acqSample 1) idle = .next t ∧ t.buf ≠ idle.buf) ∧
    (∃ t : State, exec .sysReset inOpen = .next t ∧ t.phase ≠ inOpen.phase) :=
  ⟨⟨_, rfl, by decide, by decide, by decide, by decide⟩, ⟨_, rfl, by decide⟩, ⟨_, rfl, by decide⟩,
    ⟨_, rfl, by decide⟩⟩

theorem test_witness_AFaultWritesOnlyItsCode :
    ∃ t : State, exec (.fftPass 15) full1234 = .next t ∧ t.fault ≠ full1234.fault :=
  ⟨_, rfl, by decide⟩

theorem test_witness_StepsKeepFaultOutAndParameters :
    (∃ t : State, step (withEvent { idle with fault := some .index } (.word .harness 0x10000000)) = .next t) ∧
    (withEvent { idle with fault := some .index } (.word .harness 0x10000000)).fault = some .index :=
  ⟨⟨_, rfl⟩, by decide⟩

theorem test_witness_OperationsStopOnlyAtMissingElements :
    exec (.acqRead 1) (flags cfg3 true true false 4 [(1, 0)]) = .fault (.bufUnwritten 1) ∧
    exec (.acqSample 1) (flags cfg3 false true true 4 []) = .fault (.bufOutside 4) :=
  ⟨rfl, rfl⟩

/-- EveryStepKeepsInv and NoStepFromInvStopsTheMachine: collecting, full, and with a tick in flight. -/
theorem test_witness_EveryStepKeepsInv :
    collecting2.Inv ∧ full1234.Inv ∧ (withEvent inOpen .substep).Inv ∧
    (∃ t : State, step (withEvent inOpen .substep) = .next t) ∧
    ({ full1234 with fsm := .stateAnalyze, phase := .analyzeFft ⟨1, 1, 2, 1, 2⟩ } : State).Inv := by
  refine ⟨?_, ?_, ?_, ⟨_, rfl⟩, ?_⟩ <;> decide

/-- AssembledBlockNeverFaults: the loop, a sample, a trigger, a reset, a sub-step. -/
theorem test_witness_AssembledBlockNeverFaults :
    (inOpen.Inv ∧ inOpen.RunInv ∧ (nextEvent (withEvent inOpen .substep)).assembled = true ∧
      inOpen.Unfaulted) ∧
    (atResetStart.Inv ∧ atResetStart.RunInv) ∧ (collecting2.Inv ∧ collecting2.RunInv) ∧
    (nextEvent (withEvent collecting2 (Port.smpIrq 3).event)).assembled = true ∧
    (nextEvent (withEvent collecting2 Port.trigIrq.event)).assembled = true ∧
    (nextEvent (withEvent collecting2 Port.rst.event)).assembled = true ∧
    (nextEvent (withEvent collecting2 Port.loop.event)).assembled = true ∧
    ∃ t : State, step (withEvent collecting2 (Port.smpIrq 3).event) = .next t := by
  refine ⟨⟨?_, ?_, ?_, ?_⟩, ⟨?_, ?_⟩, ⟨?_, ?_⟩, ?_, ?_, ?_, ?_, _, rfl⟩ <;> decide

end Sys2Proof.Tests
end

namespace Sys2Proof.Machine

/-! ### Bit reversal and the exponents of TW (00_scope.md R18, 41_transform.md R161) -/

theorem bitrev_succ (m x : Nat) : bitrev (m + 1) x = x % 2 * 2 ^ m + bitrev m (x / 2) := rfl

theorem bitrev_eq_sum (m x : Nat) :
    bitrev m x = ((List.range m).map (fun t => x / 2 ^ t % 2 * 2 ^ (m - 1 - t))).sum := by
  induction m generalizing x with
  | zero => rfl
  | succ m ih =>
    have hbit (t : Nat) : x / 2 / 2 ^ t % 2 * 2 ^ (m - 1 - t) =
        x / 2 ^ (t + 1) % 2 * 2 ^ (m + 1 - 1 - (t + 1)) := by
      rw [Nat.div_div_eq_div_mul, ← Nat.pow_succ', Nat.add_sub_cancel, Nat.sub_right_comm,
        Nat.sub_sub]
    rw [bitrev_succ, ih, List.range_succ_eq_map]
    simp only [hbit, List.map_cons, List.map_map, List.sum_cons, Function.comp_def,
      Nat.succ_eq_add_one, Nat.pow_zero, Nat.div_one, Nat.add_sub_cancel, Nat.sub_zero]

theorem bitrev_lt (m x : Nat) : bitrev m x < 2 ^ m := by
  induction m generalizing x with
  | zero => exact Nat.one_pos
  | succ m ih =>
    have htop : x % 2 * 2 ^ m ≤ 1 * 2 ^ m := Nat.mul_le_mul_right _ (by omega)
    have hlow := ih (x / 2)
    rw [bitrev_succ, Nat.pow_succ]
    omega

/-- The top bit of the argument is the low bit of the reversal, as its low bit is the top one (`bitrev_succ`). -/
theorem bitrev_succ_top {m b y : Nat} (hb : b < 2) (hy : y < 2 ^ m) :
    bitrev (m + 1) (b * 2 ^ m + y) = 2 * bitrev m y + b := by
  induction m generalizing y with
  | zero =>
    obtain rfl : y = 0 := by omega
    simpa [bitrev] using Nat.mod_eq_of_lt hb
  | succ m ih =>
    have hsplit : b * 2 ^ (m + 1) = 2 * (b * 2 ^ m) := by ring
    have hmod : (b * 2 ^ (m + 1) + y) % 2 = y % 2 := by omega
    have hdiv : (b * 2 ^ (m + 1) + y) / 2 = b * 2 ^ m + y / 2 := by omega
    rw [bitrev_succ (m + 1), hmod, hdiv, ih (by omega), bitrev_succ m]
    ring

theorem bitrev_bitrev {m x : Nat} (hx : x < 2 ^ m) : bitrev m (bitrev m x) = x := by
  induction m generalizing x with
  | zero =>
    rw [Nat.pow_zero] at hx
    exact (Nat.lt_one_iff.1 hx).symm
  | succ m ih =>
    have hhalf : x / 2 < 2 ^ m := by omega
    calc bitrev (m + 1) (bitrev (m + 1) x)
        = 2 * bitrev m (bitrev m (x / 2)) + x % 2 :=
          bitrev_succ_top (Nat.mod_lt x Nat.two_pos) (bitrev_lt m (x / 2))
      _ = x := by rw [ih hhalf, Nat.div_add_mod]

theorem half_eq_two_pow (c : Config) : c.half = 2 ^ (c.log2N - 1) :=
  c.stride_zero.symm.trans (c.stride_eq 0 c.log2N_range.1)

theorem exponent_of_lt {c : Config} {i : Nat} (hi : i < c.half) :
    exponent c i = bitrev (c.log2N - 1) i := if_pos hi

theorem exponent_lt_half {c : Config} {i : Nat} (hi : i < c.half) : exponent c i < c.half := by
  rw [exponent_of_lt hi, half_eq_two_pow]
  exact bitrev_lt _ _

theorem exponent_add_half {c : Config} {i : Nat} (hi : i < c.half) :
    exponent c (i + c.half) = exponent c i + c.half := by
  rw [exponent_of_lt hi, exponent, if_neg (by omega), Nat.add_sub_cancel]

/-- The exponents are their own inverse in the first half, because bit reversal is. -/
theorem exponent_exponent_of_lt {c : Config} {i : Nat} (hi : i < c.half) :
    exponent c (exponent c i) = i := by
  rw [exponent_of_lt (exponent_lt_half hi), exponent_of_lt hi]
  exact bitrev_bitrev (half_eq_two_pow c ▸ hi)

/-- The exponents are their own inverse below N, since the second half repeats the first, N/2 further. -/
theorem exponent_exponent {c : Config} {i : Nat} (hi : i < c.n) : exponent c (exponent c i) = i := by
  by_cases hlow : i < c.half
  · exact exponent_exponent_of_lt hlow
  · obtain ⟨j, rfl⟩ := Nat.exists_eq_add_of_le' (Nat.le_of_not_lt hlow)
    have hj : j < c.half := by have := c.two_half; omega
    rw [exponent_add_half hj, exponent_add_half (exponent_lt_half hj), exponent_exponent_of_lt hj]

/-- Settles O20: the recursion of `bitrev` unrolls to the sum, and the exponents are a permutation because they
are their own inverse. -/
theorem exponentsAreBitReversedHalves : Obligations.ExponentsAreBitReversedHalves := by
  refine ⟨bitrev_eq_sum, fun _ _ => bitrev_bitrev, fun c i hi => ?_, fun c i j hi hj hij => ?_⟩
  · exact ⟨exponent_of_lt hi, exponent_lt_half hi, exponent_add_half hi⟩
  · rw [← exponent_exponent hi, hij, exponent_exponent hj]

/-! ### The entries of TW and the product by one (41_transform.md R162, R165) -/

theorem abs_quarterCosine_le (k : Nat) : |(quarterCosine.getD k 0 : Int)| ≤ 127 := by
  have hall : ∀ v ∈ quarterCosine, v ≤ 127 := by
    simp only [quarterCosine, List.forall_mem_append]
    decide
  rw [Nat.abs_cast, List.getD_eq_getElem?_getD]
  cases h : quarterCosine[k]? with
  | none => decide
  | some v => exact Int.ofNat_le.2 (hall v (List.mem_of_getElem? h))

theorem abs_cos127_le (k : Nat) : |cos127 k| ≤ 127 := by
  unfold cos127
  split
  · exact abs_quarterCosine_le k
  · exact (abs_neg _).trans_le (abs_quarterCosine_le (512 - k))

theorem abs_sin127_le (k : Nat) : |sin127 k| ≤ 127 := by
  unfold sin127
  split
  · exact abs_quarterCosine_le (256 - k)
  · exact abs_quarterCosine_le (k - 256)

theorem toInt_wrap8 (v : Int) : (wrap8 v).toInt = v.bmod 256 := BitVec.toInt_ofInt ..

theorem toInt_wrap8_of_abs_le {v : Int} (h : |v| ≤ 127) : (wrap8 v).toInt = v := by
  rw [abs_le] at h
  rw [toInt_wrap8]
  exact Int.bmod_eq_of_le (by omega) (by omega)

/-- wrap8 keeps a value modulo 256 (00_scope.md R17). -/
theorem toInt_wrap8_sub_emod (v : Int) : ((wrap8 v).toInt - v) % 256 = 0 := by
  rw [toInt_wrap8]
  exact Int.emod_eq_emod_iff_emod_sub_eq_zero.1 Int.bmod_emod

/-- Negation cannot overflow on a component that is not −128. -/
theorem abs_toInt_neg_le {b : Byte} (h : |b.toInt| ≤ 127) : |(-b).toInt| ≤ 127 := by
  have hne : b ≠ BitVec.intMin 8 := by rintro rfl; exact absurd h (by decide)
  rwa [BitVec.toInt_neg_of_ne_intMin hne, abs_neg]

theorem abs_twFirst_le (c : Config) (i : Nat) :
    |(twFirst c i).re.toInt| ≤ 127 ∧ |(twFirst c i).im.toInt| ≤ 127 := by
  have hcos := abs_cos127_le (angleSteps c i)
  have hsin : |-sin127 (angleSteps c i)| ≤ 127 := (abs_neg _).trans_le (abs_sin127_le _)
  unfold twFirst
  rw [toInt_wrap8_of_abs_le hcos, toInt_wrap8_of_abs_le hsin]
  exact ⟨hcos, hsin⟩

/-- −128 never occurs in TW (R162). -/
theorem abs_tw_le (c : Config) (i : Nat) : |(tw c i).re.toInt| ≤ 127 ∧ |(tw c i).im.toInt| ≤ 127 := by
  unfold tw
  split
  · exact abs_twFirst_le c i
  · obtain ⟨hre, him⟩ := abs_twFirst_le c (i - c.half)
    exact ⟨abs_toInt_neg_le hre, abs_toInt_neg_le him⟩

theorem abs_toInt_mul_le (b : Byte) {w : Int} (hw : |w| ≤ 127) : |b.toInt * w| ≤ 16256 := by
  have hb : |b.toInt| ≤ 128 := abs_le.2 ⟨b.le_toInt, b.toInt_lt.le⟩
  calc |b.toInt * w| = |b.toInt| * |w| := abs_mul ..
    _ ≤ 128 * 127 := by gcongr

theorem abs_products_le (b : Cplx) {w : Cplx} (hre : |w.re.toInt| ≤ 127) (him : |w.im.toInt| ≤ 127) :
    |productRe b w| ≤ 32512 ∧ |productIm b w| ≤ 32512 :=
  ⟨(abs_sub ..).trans (add_le_add (abs_toInt_mul_le b.re hre) (abs_toInt_mul_le b.im him)),
    (abs_add_le ..).trans (add_le_add (abs_toInt_mul_le b.re him) (abs_toInt_mul_le b.im hre))⟩

theorem abs_asr_seven_le {v : Int} (h : |v| ≤ 32512) : |asr v 7| ≤ 254 := by
  rw [abs_le] at h ⊢
  unfold asr
  omega

theorem asr_seven_eq_fdiv (v : Int) : asr v 7 = v.fdiv 128 :=
  (Int.fdiv_eq_ediv_of_nonneg v (by decide)).symm

/-- Settles O24: the products are bounded because no entry of TW has a component −128. -/
theorem cmulProductsNeverOverflow : Obligations.CmulProductsNeverOverflow := by
  intro c i b _
  obtain ⟨hre, him⟩ := abs_tw_le c i
  obtain ⟨hpr, hpi⟩ := abs_products_le b hre him
  refine ⟨hpr, hpi, abs_asr_seven_le hpr, abs_asr_seven_le hpi, ?_, ?_⟩ <;>
    rw [← asr_seven_eq_fdiv]
  · exact toInt_wrap8_sub_emod (asr (productRe b (tw c i)) 7)
  · exact toInt_wrap8_sub_emod (asr (productIm b (tw c i)) 7)

/-! ### A model fault (60_exceptions.md R283) -/

/-- An operation changes FAULT by raising a code it can raise, or not at all. -/
theorem Effect.fault_eq_or_raise {i : Instr} {s t : State} (h : Effect i s t) :
    t.fault = s.fault ∨ ∃ c, canFault s.fsm i c = true ∧ t = s.raise c := by
  cases h with
  | fault hc => exact .inr ⟨_, hc, rfl⟩
  | stored v8 hf hc => rw [State.sampled_eq s v8 hf hc]; exact .inl rfl
  | transformed _ _ hw => rw [hw.returns]; exact .inl rfl
  | _ => exact .inl rfl

theorem State.fault_none_of_raise_ne {s : State} {c : FaultCode} (h : (s.raise c).fault ≠ s.fault) :
    s.fault = none := by
  cases hf : s.fault with
  | none => rfl
  | some d => exact absurd ((s.raise_keeps_first c d hf).trans hf.symm) h

/-- Settles O54: an operation that changes FAULT ends in `State.raise`, which keeps a code already recorded. -/
theorem aFaultWritesOnlyItsCode : Obligations.AFaultWritesOnlyItsCode := by
  intro i s t hexec hne
  rcases (Effect.of_exec hexec).fault_eq_or_raise with hsame | ⟨c, -, rfl⟩
  · exact absurd hsame hne
  · exact ⟨State.fault_none_of_raise_ne hne, rfl⟩

end Sys2Proof.Machine

namespace Sys2Proof.Machine

/-! ### What a step delivers (30_encoding.md R104, 60_exceptions.md R295) -/

theorem deliverWord_next {src : Source} {w : OpWord} {s t : State} (h : deliverWord src w s = .next t) :
    ∃ i, decode .input w = .ok i ∧ refusalOf src w i s = none ∧ exec i s = .next t := by
  unfold deliverWord at h
  split at h
  · cases h
  · next i hi =>
    split at h
    · cases h
    · next hr => exact ⟨i, hi, hr, h⟩

/-- Every next state of a step comes from an admitted operation or from a sub-step. -/
theorem step_next {s t : State} (h : step s = .next t) :
    (∃ src w i, nextEvent s = .word src w ∧ decode .input w = .ok i ∧
      refusalOf src w i s.popped = none ∧ exec i s.popped = .next t) ∨
    (nextEvent s = .substep ∧ execSubstep s.popped = .next t) := by
  unfold step deliver at h
  split at h
  · next src w he =>
    obtain ⟨i, hi, hr, hx⟩ := deliverWord_next h
    exact .inl ⟨src, w, i, he, hi, hr, hx⟩
  · next he => exact .inr ⟨he, h⟩

theorem step_fault {s : State} {f : Fault} (h : step s = .fault f) :
    (∃ i, exec i s.popped = .fault f) ∨ execSubstep s.popped = .fault f := by
  unfold step deliver at h
  split at h
  · unfold deliverWord at h
    split at h
    · cases h
    · split at h
      · cases h
      · exact .inl ⟨_, h⟩
  · exact .inr h

/-- FSM.TICK comes from the loop or the harness, SYS.RESET from the harness: both issue between ticks only. -/
theorem phase_idle_of_admitted {src : Source} {w : OpWord} {i : Instr} {s : State}
    (h : refusalOf src w i s = none) (hi : i = .fsmTick ∨ i = .sysReset) : s.phase = .idle := by
  cases src with
  | loop =>
    simp only [refusalOf] at h
    split_ifs at h
    assumption
  | harness =>
    simp only [refusalOf] at h
    split_ifs at h
    assumption
  | sampler => rcases hi with rfl | rfl <;> cases h
  | trigger => rcases hi with rfl | rfl <;> cases h

/-! ### A stored sample, field by field (40_acquisition.md R132) -/

theorem State.sampled_frame (s : State) (v8 : BitVec 8) :
    s.sampled v8 = { s with
      buf := (s.sampled v8).buf, cursor := (s.sampled v8).cursor
      full := (s.sampled v8).full, armed := (s.sampled v8).armed } := by
  unfold State.sampled
  rw [finishSample_frame]
  rfl

@[simp] theorem State.sampled_cfg (s : State) (v8 : BitVec 8) : (s.sampled v8).cfg = s.cfg := by
  rw [State.sampled_frame]
@[simp] theorem State.sampled_fsm (s : State) (v8 : BitVec 8) : (s.sampled v8).fsm = s.fsm := by
  rw [State.sampled_frame]
@[simp] theorem State.sampled_collecting (s : State) (v8 : BitVec 8) :
    (s.sampled v8).collecting = s.collecting := by
  rw [State.sampled_frame]
@[simp] theorem State.sampled_phase (s : State) (v8 : BitVec 8) : (s.sampled v8).phase = s.phase := by
  rw [State.sampled_frame]
@[simp] theorem State.sampled_out (s : State) (v8 : BitVec 8) : (s.sampled v8).out = s.out := by
  rw [State.sampled_frame]
@[simp] theorem State.sampled_inbox (s : State) (v8 : BitVec 8) : (s.sampled v8).inbox = s.inbox := by
  rw [State.sampled_frame]

/-! ### Which operation writes which element (10_state.md R33 to R47) -/

section
variable {i : Instr} {s t : State}

theorem Effect.cfg_eq (h : Effect i s t) : t.cfg = s.cfg := by
  cases h with
  | stored v8 _ _ => exact s.sampled_cfg v8
  | transformed _ _ hw => exact hw.cfg
  | _ => rfl

theorem Effect.inbox_eq (h : Effect i s t) : t.inbox = s.inbox := by
  cases h with
  | stored v8 _ _ => exact s.sampled_inbox v8
  | transformed _ _ hw => rw [hw.returns]
  | _ => rfl

theorem Effect.of_fsm_ne (h : Effect i s t) (hne : t.fsm ≠ s.fsm) : i = .fsmTick ∨ i = .sysReset := by
  cases h with
  | initTick | analyzeTick | openTick | resetTick => exact .inl rfl
  | reset => exact .inr rfl
  | stored v8 _ _ => exact absurd (s.sampled_fsm v8) hne
  | transformed _ _ hw => rw [hw.returns] at hne; exact absurd rfl hne
  | _ => exact absurd rfl hne

theorem Effect.of_armed_ne (h : Effect i s t) (hne : t.armed ≠ s.armed) :
    i = .acqStart ∨ i = .acqTrigger ∨ (∃ v, i = .acqSample v) ∨ i = .sysReset ∨
      (i = .fsmTick ∧ s.fsm = .stateReset ∧ s.cfg.acqMode = .freeRunning) := by
  cases h with
  | started hi _ => exact hi.imp id (fun hi => .inl hi.1)
  | stored v8 _ _ => exact .inr (.inr (.inl ⟨v8, rfl⟩))
  | reset => exact .inr (.inr (.inr (.inl rfl)))
  | resetTick hs ha =>
    have hfree : s.cfg.acqMode = .freeRunning := by simpa [ha] using hne
    exact .inr (.inr (.inr (.inr ⟨rfl, hs, hfree⟩)))
  | transformed _ _ hw => rw [hw.returns] at hne; exact absurd rfl hne
  | _ => exact absurd rfl hne

theorem Effect.of_collecting_ne (h : Effect i s t) (hne : t.collecting ≠ s.collecting) :
    i = .acqStart ∨ i = .acqReset ∨ i = .acqTrigger ∨ i = .sysReset ∨
      (i = .fsmTick ∧ s.fsm = .stateReset) := by
  cases h with
  | started hi _ => exact hi.imp id (fun hi => .inr (.inl hi.1))
  | cleared => exact .inr (.inl rfl)
  | reset => exact .inr (.inr (.inr (.inl rfl)))
  | resetTick hs _ => exact .inr (.inr (.inr (.inr ⟨rfl, hs⟩)))
  | stored v8 _ _ => exact absurd (s.sampled_collecting v8) hne
  | transformed _ _ hw => rw [hw.returns] at hne; exact absurd rfl hne
  | _ => exact absurd rfl hne

theorem Effect.of_full_or_cursor_ne (h : Effect i s t) (hne : t.full ≠ s.full ∨ t.cursor ≠ s.cursor) :
    i = .acqStart ∨ i = .acqReset ∨ i = .acqTrigger ∨ (∃ v, i = .acqSample v) ∨ i = .sysReset ∨
      (i = .fsmTick ∧ s.fsm = .stateReset) := by
  cases h with
  | started hi _ => exact hi.imp id (fun hi => .inr (.inl hi.1))
  | cleared => exact .inr (.inl rfl)
  | stored v8 _ _ => exact .inr (.inr (.inr (.inl ⟨v8, rfl⟩)))
  | reset => exact .inr (.inr (.inr (.inr (.inl rfl))))
  | resetTick hs _ => exact .inr (.inr (.inr (.inr (.inr ⟨rfl, hs⟩))))
  | transformed _ _ hw => rw [hw.returns] at hne; exact absurd hne (by simp)
  | _ => exact absurd hne (by simp)

theorem eq_fft_of_isFftWrite (h : isFftWrite i = true) :
    (∃ p4 k, i = .fftBfly p4 k) ∨ (∃ p4, i = .fftPass p4) ∨ i = .fftTransform := by
  cases i with
  | fftBfly p4 k => exact .inl ⟨p4, k, rfl⟩
  | fftPass p4 => exact .inr (.inl ⟨p4, rfl⟩)
  | fftTransform => exact .inr (.inr rfl)
  | _ => cases h

theorem Effect.of_buf_ne (h : Effect i s t) (hne : t.buf ≠ s.buf) :
    ((∃ v, i = .acqSample v) ∧ s.full = false) ∨ (∃ p4 k, i = .fftBfly p4 k) ∨
      (∃ p4, i = .fftPass p4) ∨ i = .fftTransform ∨ i = .sysReset ∨
      (i = .fsmTick ∧ s.fsm = .stateAnalyze) := by
  cases h with
  | stored v8 hf _ => exact .inl ⟨⟨v8, rfl⟩, hf⟩
  | transformed hi _ _ =>
    exact .inr ((eq_fft_of_isFftWrite hi).imp id (fun hi => hi.imp id .inl))
  | reset => exact .inr (.inr (.inr (.inr (.inl rfl))))
  | analyzeTick _ hs _ _ => exact .inr (.inr (.inr (.inr (.inr ⟨rfl, hs⟩))))
  | _ => exact absurd rfl hne

theorem Effect.of_out_ne (h : Effect i s t) (hne : t.out ≠ s.out) :
    (i = .fsmTick ∧ s.fsm ≠ .stateAnalyze) ∨ (∃ v, i = .proxPoll v) ∨ i = .actOpen ∨ i = .actClose := by
  cases h with
  | initTick hs _ | openTick hs | resetTick hs _ => exact .inl ⟨rfl, by simp [hs]⟩
  | polled v1 => exact .inr (.inl ⟨v1, rfl⟩)
  | opened => exact .inr (.inr (.inl rfl))
  | closed => exact .inr (.inr (.inr rfl))
  | stored v8 _ _ => exact absurd (s.sampled_out v8) hne
  | transformed _ _ hw => rw [hw.returns] at hne; exact absurd rfl hne
  | _ => exact absurd rfl hne

theorem Effect.of_phase_ne (h : Effect i s t) (hne : t.phase ≠ s.phase) : i = .sysReset := by
  cases h with
  | reset => rfl
  | stored v8 _ _ => exact absurd (s.sampled_phase v8) hne
  | transformed _ _ hw => rw [hw.returns] at hne; exact absurd rfl hne
  | _ => exact absurd rfl hne

end

/-- Settles O53: one case analysis of `Effect` for each element of the state. -/
theorem onlyTheNamedOperationsWrite : Obligations.OnlyTheNamedOperationsWrite := by
  intro i s t hexec
  have h := Effect.of_exec hexec
  exact ⟨h.of_fsm_ne, h.of_armed_ne, h.of_collecting_ne, h.of_full_or_cursor_ne, h.of_buf_ne, h.of_out_ne,
    h.of_phase_ne, h.cfg_eq, h.inbox_eq⟩

/-! ### The frame of the acquisition operations (40_acquisition.md R130 to R133) -/

theorem Effect.acqFlags_frame {i : Instr} {s t : State} (h : Effect i s t)
    (hi : i = .acqStart ∨ i = .acqReset ∨ i = .acqTrigger) :
    t = { s with cursor := t.cursor, full := t.full, collecting := t.collecting, armed := t.armed,
                 fault := t.fault, result := none } := by
  cases h with
  | fault | ignored | started | cleared => rfl
  | query _ hq | transformed hq _ _ => rcases hi with rfl | rfl | rfl <;> cases hq
  | _ => simp at hi

theorem Effect.acqReset_armed {s t : State} (h : Effect .acqReset s t) : t.armed = s.armed := by
  cases h with
  | fault | cleared => rfl
  | started hi _ => simp at hi
  | query _ hq | transformed hq _ _ => cases hq

theorem Effect.acqSample_frame {v8 : BitVec 8} {s t : State} (h : Effect (.acqSample v8) s t) :
    t = { s with buf := t.buf, cursor := t.cursor, full := t.full, armed := t.armed, result := none } ∧
    (s.full = true → t.buf = s.buf) ∧
    ∀ a : Nat, a ≠ 2 * s.cursor.toNat → a ≠ 2 * s.cursor.toNat + 1 → t.buf.read a = s.buf.read a := by
  cases h with
  | late => exact ⟨rfl, fun _ => rfl, fun _ _ _ => rfl⟩
  | stored _ hf hc =>
    rw [State.sampled_eq s v8 hf hc]
    exact ⟨rfl, fun hf' => absurd (hf.symm.trans hf') (by decide),
      fun a h0 h1 => s.setElem_read _ h0 h1⟩
  | started hi _ => simp at hi
  | fault hc => cases hc
  | query _ hq | transformed hq _ _ => cases hq

/-- Settles O50: the effects of the four operations, one by one. -/
theorem acqOperationsKeepTheRest : Obligations.AcqOperationsKeepTheRest :=
  ⟨fun _ _ _ hi h => (Effect.of_exec h).acqFlags_frame hi, fun _ _ h => (Effect.of_exec h).acqReset_armed,
    fun _ _ _ h => (Effect.of_exec h).acqSample_frame⟩

/-! ### A second trigger (40_acquisition.md R133, R139) -/

theorem exec_acqTrigger_of_collecting {s : State} (hc : s.collecting = true) :
    exec .acqTrigger s = .next { s with result := none } := by
  rw [exec_acqTrigger]
  rcases opAcqTrigger_cases s with ⟨_, hc', _⟩ | ⟨_, h⟩
  · rw [hc] at hc'; cases hc'
  · rw [h]; rfl

theorem collecting_after_trigger {s t : State} (hm : s.cfg.acqMode = .triggered)
    (h : exec .acqTrigger s = .next t) : t.collecting = true := by
  rw [exec_acqTrigger] at h
  rcases opAcqTrigger_cases s with ⟨_, _, h'⟩ | ⟨hm' | hc, h'⟩
  · rw [h'] at h; cases h; rfl
  · rw [hm] at hm'; cases hm'
  · rw [h'] at h; cases h; exact hc

/-- Only ACQ.RESET, alone or inside a Reset tick, and SYS.RESET clear COLLECTING. -/
theorem Effect.keeps_collecting {i : Instr} {s t : State} (h : Effect i s t)
    (hr : performsReset i s = false) (hc : s.collecting = true) : t.collecting = true := by
  cases h with
  | started => rfl
  | cleared | reset => cases hr
  | resetTick hs _ => simp [performsReset, hs] at hr
  | stored v8 _ _ => exact (s.sampled_collecting v8).trans hc
  | transformed _ _ hw => rw [hw.returns]; exact hc
  | _ => exact hc

theorem NoResetPath.keeps_collecting {s t : State} (h : NoResetPath s t) (hc : s.collecting = true) :
    t.collecting = true := by
  induction h with
  | refl => exact hc
  | op i _ hi he ih => exact (Effect.of_exec he).keeps_collecting hi ih

/-- Settles O19: COLLECTING stays 1 on every path without a reset, and a trigger then writes nothing. -/
theorem secondTriggerIsIgnored : Obligations.SecondTriggerIsIgnored := fun _ _ _ hm ht hp =>
  exec_acqTrigger_of_collecting (hp.keeps_collecting (collecting_after_trigger hm ht))

/-! ### The flags as an observer reads them (10_state.md R33, R38 to R40, R321) -/

theorem flagBit_eq_ite (b : Bool) : flagBit b = if b then 1 else 0 := by cases b <;> rfl

/-- Settles O16: both are queries that cannot fault. -/
theorem acqQueriesReturnTheFlags : Obligations.AcqQueriesReturnTheFlags := by
  intro s
  rw [exec_acqIsfull, exec_acqStatus, flagBit_eq_ite]
  exact ⟨rfl, rfl⟩

theorem State.s1_flags (s : State) :
    s.s1.getLsbD 0 = s.full ∧ s.s1.getLsbD 1 = s.collecting ∧ s.s1.getLsbD 2 = s.armed := by
  unfold State.s1
  cases s.full <;> cases s.collecting <;> cases s.armed <;> decide

theorem State.s1_lt (s : State) : s.s1.toNat < 2 ^ 3 := by
  unfold State.s1
  cases s.full <;> cases s.collecting <;> cases s.armed <;> decide

theorem State.s1_high (s : State) {b : Nat} (hb : 3 ≤ b) : s.s1.getLsbD b = false :=
  Nat.testBit_lt_two_pow (s.s1_lt.trans_le (Nat.pow_le_pow_right Nat.two_pos hb))

theorem State.s3_values (s : State) :
    s.s3 ≠ 3 ∧ (s.s3 = 2 ↔ s.full = true) ∧ (s.s3 = 1 ↔ s.full = false ∧ s.collecting = true) := by
  unfold State.s3 State.acqStatus
  cases s.full <;> cases s.collecting <;> decide

theorem FsmState.code_injective : Function.Injective FsmState.code := by
  intro f f' h
  revert h
  cases f <;> cases f' <;> decide

theorem FsmState.code_surjective (c : BitVec 2) : ∃ f : FsmState, f.code = c := by
  have hall : ∀ c : BitVec 2, c = 0 ∨ c = 1 ∨ c = 2 ∨ c = 3 := by decide
  rcases hall c with rfl | rfl | rfl | rfl
  · exact ⟨.stateInit, rfl⟩
  · exact ⟨.stateAnalyze, rfl⟩
  · exact ⟨.stateOpen, rfl⟩
  · exact ⟨.stateReset, rfl⟩

/-- Settles O48: S1 from its three low bits and its bound, S3 from the precedence of FULL, and the codes of STATE
as a bijection. -/
theorem observationRegistersShowTheFlags : Obligations.ObservationRegistersShowTheFlags := by
  refine ⟨fun s => ?_, fun c => ?_⟩
  · obtain ⟨hfull, hcollecting, harmed⟩ := s.s1_flags
    obtain ⟨hne, htwo, hone⟩ := s.s3_values
    exact ⟨hfull, hcollecting, harmed, fun _ => s.s1_high, hne, htwo, hone, rfl, rfl, rfl⟩
  · obtain ⟨f, rfl⟩ := FsmState.code_surjective c
    exact ⟨f, rfl, fun _ h => FsmState.code_injective h⟩

/-- Settles O10, mode by mode. -/
theorem resetStateIsAsTabulated : Obligations.ResetStateIsAsTabulated := by
  intro c
  have htriggered (hm : c.acqMode = .triggered) :
      (State.resetOf c).s1 = 0x00 ∧ (State.resetOf c).s3 = 0 := by
    simp only [State.s1, State.s3, State.acqStatus, State.resetOf, hm]
    decide
  have hfreeRunning (hm : c.acqMode = .freeRunning) :
      (State.resetOf c).s1 = 0x06 ∧ (State.resetOf c).s3 = 1 := by
    simp only [State.s1, State.s3, State.acqStatus, State.resetOf, hm]
    decide
  exact ⟨rfl, rfl, htriggered, hfreeRunning, rfl, rfl, rfl, fun _ => rfl⟩

/-! ### Sub-steps of a tick (43_control.md R236) -/

/-- The tick of STATE would raise a model fault (60_exceptions.md R284). -/
def State.tickHazard (s : State) : Bool :=
  match s.fsm with
  | .stateAnalyze => !s.full
  | .stateReset => s.armed
  | _ => false

/-- The next sub-step would raise a model fault (R284). -/
def State.substepHazard (s : State) : Bool :=
  match s.phase with
  | .idle => s.tickHazard
  | .analyzeFft g => !bflyOk s.cfg g.p g.k || !s.full
  | .analyzeMatch => !s.full
  | .resetAcq => s.armed
  | .resetStart => s.startHazard
  | _ => false

/-- What a sub-step that raises no fault has done, position by position. -/
inductive SubEffect : State → State → Prop where
  | spin {s : State} (hp : s.phase = .idle) (hs : s.fsm = .stateInit) (hf : s.full = false) :
      SubEffect s (s.returns none)
  | initTick {s : State} (hp : s.phase = .idle) (hs : s.fsm = .stateInit) (hf : s.full = true) :
      SubEffect s { s with
        fsm := if s.draw.1 = 1 then .stateAnalyze else .stateReset
        out := s.out ++ [.proxPoll s.draw.1]
        answers := s.draw.2.answers
        draws := s.draw.2.draws
        result := none }
  | startAnalyze {s : State} (hp : s.phase = .idle) (hs : s.fsm = .stateAnalyze) (hf : s.full = true) :
      SubEffect s { s with phase := .analyzeFft (Progress.first s.cfg), result := none }
  | startOpen {s : State} (hp : s.phase = .idle) (hs : s.fsm = .stateOpen) :
      SubEffect s { s with out := s.out ++ [.actOpen], phase := .openPoll, result := none }
  | startReset {s : State} (hp : s.phase = .idle) (hs : s.fsm = .stateReset) (ha : s.armed = false) :
      SubEffect s { s with out := s.out ++ [.actClose], phase := .resetAcq, result := none }
  | butterfly {s u : State} (g : Progress) (next : TickPhase) (hp : s.phase = .analyzeFft g)
      (hf : s.full = true) (hw : WritesBuf s u)
      (hn : (∃ g', g.next s.cfg = some g' ∧ next = .analyzeFft g') ∨
        g.next s.cfg = none ∧ next = .analyzeMatch) :
      SubEffect s { s with buf := u.buf, phase := next, result := none }
  | matched {s : State} (r : MatchRegs) (hp : s.phase = .analyzeMatch) (hf : s.full = true)
      (hr : opMatchError s = .ok r) :
      SubEffect s { s with phase := .analyzeWrite r (matchResult s.cfg r.err), result := none }
  | wroteMatch {s : State} (r : MatchRegs) (m : BitVec 1) (hp : s.phase = .analyzeWrite r m) :
      SubEffect s { s with fsm := afterMatch m, phase := .idle, result := none }
  | polled {s : State} (hp : s.phase = .openPoll) :
      SubEffect s { s with
        fsm := if s.draw.1 = 0 then .stateReset else s.fsm
        phase := .idle
        out := s.out ++ [.proxPoll s.draw.1]
        answers := s.draw.2.answers
        draws := s.draw.2.draws
        result := none }
  | cleared {s : State} (next : TickPhase) (hp : s.phase = .resetAcq) (ha : s.armed = false)
      (hn : (s.cfg.acqMode = .freeRunning ∧ next = .resetStart) ∨
        s.cfg.acqMode = .triggered ∧ next = .resetWrite) :
      SubEffect s { s with cursor := 0, full := false, collecting := false, phase := next, result := none }
  | started {s : State} (hp : s.phase = .resetStart) (hz : s.startHazard = false) :
      SubEffect s { s with
        cursor := 0, full := false, collecting := true, armed := true, phase := .resetWrite, result := none }
  | wroteInit {s : State} (hp : s.phase = .resetWrite) :
      SubEffect s { s with fsm := .stateInit, phase := .idle, result := none }

/-- Everything the body of a sub-step can do: raise the fault of its hazard, have its effect, or stop the machine
at an element that holds no value. -/
inductive SubstepResult (s : State) : Except Stop State → Prop where
  | raises (c : FaultCode) (hz : s.substepHazard = true) : SubstepResult s (.error (.raise c))
  | ok {u : State} (h : SubEffect s (u.returns none)) : SubstepResult s (.ok u)
  | stops {e : Stop} (hf : s.full = true) (hm : MissingElem s e) : SubstepResult s (.error e)

theorem SubstepResult.of_idle {s : State} (hp : s.phase = .idle) : SubstepResult s (opSubstep s) := by
  have hop : opSubstep s = startTick s := by simp only [opSubstep, hp]
  have hhazard : s.substepHazard = s.tickHazard := by simp only [State.substepHazard, hp]
  rw [hop]
  rcases startTick_cases s with
    ⟨hs, h⟩ | ⟨hs, hf, h⟩ | ⟨hs, hf, h⟩ | ⟨hs, h⟩ | ⟨hs, ha, h⟩ | ⟨hs, ha, h⟩ <;> rw [h]
  · refine .ok ?_
    rcases tickInit_cases s with ⟨hf, ht⟩ | ⟨hf, ht⟩ <;> rw [ht]
    · exact .spin hp hs hf
    · exact .initTick hp hs hf
  · exact .raises _ (by simp [hhazard, State.tickHazard, hs, hf])
  · exact .ok (.startAnalyze hp hs hf)
  · exact .ok (.startOpen hp hs)
  · exact .raises _ (by simp [hhazard, State.tickHazard, hs, ha])
  · exact .ok (.startReset hp hs ha)

theorem SubstepResult.of_analyzeFft {s : State} {g : Progress} (hp : s.phase = .analyzeFft g) :
    SubstepResult s (opSubstep s) := by
  simp only [opSubstep, hp]
  rcases opFftBfly_cases g.p g.k s with ⟨hb, h⟩ | ⟨_, hf, h⟩ | ⟨_, hf, hm⟩ | ⟨_, hf, h⟩
  · rw [h]
    exact .raises _ (by simp [State.substepHazard, hp, hb])
  · rw [h]
    exact .raises _ (by simp [State.substepHazard, hp, hf])
  · obtain ⟨j, hj, hn, h⟩ := hm
    rw [h]
    exact .stops hf ⟨j, hj, hn, rfl⟩
  · have hw := opFftBfly_writesBuf h
    generalize s.pair (s.cfg.stride g.p) (clusterOf s.cfg g.p g.k) g.k = u at h hw
    rw [h, ok_bind, hw.frame]
    refine .ok (.butterfly (u := u) g _ hp hf hw ?_)
    dsimp only
    cases hn : g.next s.cfg with
    | some g' => exact .inl ⟨g', rfl, rfl⟩
    | none => exact .inr ⟨rfl, rfl⟩

theorem SubstepResult.of_analyzeMatch {s : State} (hp : s.phase = .analyzeMatch) :
    SubstepResult s (opSubstep s) := by
  simp only [opSubstep, hp]
  rcases opMatchError_cases s with ⟨hf, h⟩ | ⟨hf, _, h⟩ | ⟨hf, e, h, hm⟩ <;> rw [h]
  · exact .raises _ (by simp [State.substepHazard, hp, hf])
  · exact .ok (.matched _ hp hf h)
  · exact .stops hf hm

theorem SubstepResult.of_resetAcq {s : State} (hp : s.phase = .resetAcq) : SubstepResult s (opSubstep s) := by
  simp only [opSubstep, hp]
  rcases opAcqReset_cases s with ⟨ha, h⟩ | ⟨ha, h⟩ <;> rw [h]
  · exact .raises _ (by simp [State.substepHazard, hp, ha])
  · refine .ok (.cleared _ hp ha ?_)
    dsimp only
    cases s.cfg.acqMode with
    | freeRunning => exact .inl ⟨rfl, rfl⟩
    | triggered => exact .inr ⟨rfl, rfl⟩

theorem SubstepResult.of_resetStart {s : State} (hp : s.phase = .resetStart) :
    SubstepResult s (opSubstep s) := by
  simp only [opSubstep, hp]
  rcases opAcqStart_cases s with ⟨hz, h⟩ | ⟨hz, h⟩ <;> rw [h]
  · exact .raises _ (by simp [State.substepHazard, hp, hz])
  · exact .ok (.started hp hz)

theorem opSubstep_result (s : State) : SubstepResult s (opSubstep s) := by
  cases hp : s.phase with
  | idle => exact .of_idle hp
  | analyzeFft g => exact .of_analyzeFft hp
  | analyzeMatch => exact .of_analyzeMatch hp
  | analyzeWrite r m =>
    simp only [opSubstep, hp]
    exact .ok (.wroteMatch r m hp)
  | openPoll =>
    simp only [opSubstep, hp, openPoll_frame]
    exact .ok (.polled hp)
  | resetAcq => exact .of_resetAcq hp
  | resetStart => exact .of_resetStart hp
  | resetWrite =>
    simp only [opSubstep, hp]
    exact .ok (.wroteInit hp)

/-- Every next state of a sub-step: its effect, or a model fault that ends the tick (43_control.md R239). -/
theorem SubEffect.of_execSubstep {s t : State} (h : execSubstep s = .next t) :
    SubEffect s t ∨ s.substepHazard = true ∧ ∃ c, t = { s.raise c with phase := .idle } := by
  have hresult := opSubstep_result s
  rcases execSubstep_next.1 h with ⟨u, hu, rfl⟩ | ⟨c, hc, rfl⟩
  · rw [hu] at hresult
    cases hresult with | ok heffect => exact .inl heffect
  · rw [hc] at hresult
    cases hresult with
    | raises _ hz => exact .inr ⟨hz, c, rfl⟩
    | stops _ hm => exact hm.not_raise.elim

theorem MissingElem.of_execSubstep {s : State} {f : Fault} (h : execSubstep s = .fault f) :
    s.full = true ∧ MissingElem s (.halt f) := by
  have hresult := opSubstep_result s
  rw [execSubstep_fault.1 h] at hresult
  cases hresult with | stops hf hm => exact ⟨hf, hm⟩

/-! ### FAULT, OUT and the parameters (10_state.md R46, R47, R49) -/

theorem Effect.keeps_fault {i : Instr} {s t : State} (h : Effect i s t) {c : FaultCode}
    (hc : s.fault = some c) : t.fault = some c := by
  rcases h.fault_eq_or_raise with hsame | ⟨d, -, rfl⟩
  · exact hsame.trans hc
  · exact s.raise_keeps_first d c hc

theorem Effect.out_grows {i : Instr} {s t : State} (h : Effect i s t) : ∃ more, t.out = s.out ++ more := by
  cases h with
  | initTick | openTick | resetTick | polled | opened | closed => exact ⟨_, rfl⟩
  | stored v8 _ _ => exact ⟨[], by simp⟩
  | transformed _ _ hw => rw [hw.returns]; exact ⟨[], (List.append_nil _).symm⟩
  | _ => exact ⟨[], (List.append_nil _).symm⟩

theorem SubEffect.fault_eq {s t : State} (h : SubEffect s t) : t.fault = s.fault := by cases h <;> rfl

theorem SubEffect.cfg_eq {s t : State} (h : SubEffect s t) : t.cfg = s.cfg := by cases h <;> rfl

theorem SubEffect.out_grows {s t : State} (h : SubEffect s t) : ∃ more, t.out = s.out ++ more := by
  cases h with
  | initTick | startOpen | startReset | polled => exact ⟨_, rfl⟩
  | _ => exact ⟨[], (List.append_nil _).symm⟩

/-- Settles O55: for an operation by its `Effect`, for a sub-step by its `SubEffect` or the fault it raises. -/
theorem stepsKeepFaultOutAndParameters : Obligations.StepsKeepFaultOutAndParameters := by
  intro s t hstep
  rcases step_next hstep with ⟨_, _, i, _, _, _, hexec⟩ | ⟨_, hsub⟩
  · have h := Effect.of_exec hexec
    exact ⟨fun _ => h.keeps_fault, h.out_grows, h.cfg_eq⟩
  · rcases SubEffect.of_execSubstep hsub with h | ⟨_, d, rfl⟩
    · exact ⟨fun _ => h.fault_eq.trans, h.out_grows, h.cfg_eq⟩
    · exact ⟨fun c => s.popped.raise_keeps_first d c, ⟨[], (List.append_nil _).symm⟩, rfl⟩

/-! ### The invariant of every step (10_state.md R48, 20_memory.md R80) -/

/-- The part of `State.Inv` that speaks of BUF and the flags, without the tick in flight. -/
def State.DataInv (s : State) : Prop :=
  Memory.wf s.buf = true ∧
  (∀ cell ∈ s.buf, cell.1 < 2 * s.cfg.n) ∧
  s.cursor.toNat ≤ s.cfg.n ∧
  (s.full = true ↔ s.cursor.toNat = s.cfg.n) ∧
  (s.armed = true → s.full = false ∧ s.collecting = true) ∧
  (∀ a, a < 2 * s.cursor.toNat → (s.buf.read a).isSome = true)

theorem State.inv_iff (s : State) : s.Inv ↔ s.DataInv ∧ s.phase.ok s.cfg s.fsm = true := by
  simp only [State.Inv, State.DataInv, and_assoc]

/-- An emptied buffer: CURSOR = 0 and FULL = 0, whatever is listed of the old elements. -/
theorem State.DataInv.emptied {s : State} (h : s.DataInv) {collecting armed : Bool}
    (ha : armed = true → collecting = true) :
    State.DataInv { s with cursor := 0, full := false, collecting := collecting, armed := armed } := by
  obtain ⟨hwf, hinside, -⟩ := h
  have hn := s.cfg.n_pos
  refine ⟨hwf, hinside, Nat.zero_le _, ?_, fun h => ⟨rfl, ha h⟩, fun a h => absurd h (Nat.not_lt_zero a)⟩
  exact ⟨fun h => (by cases h), fun h => absurd h hn.ne⟩

theorem State.DataInv.unlisted {s : State} (h : s.DataInv) (hc : s.cursor = 0) :
    State.DataInv { s with buf := [] } := by
  obtain ⟨-, -, hle, hfull, harmed, -⟩ := h
  refine ⟨Memory.wf_nil, by simp, hle, hfull, harmed, fun a ha => ?_⟩
  dsimp only at ha
  rw [hc] at ha
  exact absurd ha (Nat.not_lt_zero a)

theorem State.DataInv.writesBuf {s u : State} (h : s.DataInv) (hw : WritesBuf s u) :
    State.DataInv { s with buf := u.buf } := by
  obtain ⟨hwf, hinside, hle, hfull, harmed, hbelow⟩ := h
  exact ⟨hw.wf hwf, hw.inside hinside, hle, hfull, harmed, fun a ha => hw.keeps a (hbelow a ha)⟩

theorem State.setElem_isSome_read_upto {s : State} {i a : Nat} (z : Cplx)
    (h : ∀ a, a < 2 * i → (s.buf.read a).isSome = true) (ha : a < 2 * (i + 1)) :
    ((s.setElem i z).buf.read a).isSome = true := by
  simp only [State.setElem, Memory.read_write]
  split_ifs
  · rfl
  · rfl
  · exact h a (by omega)

theorem State.DataInv.sampled {s : State} (h : s.DataInv) (v8 : BitVec 8) (hf : s.full = false)
    (hc : s.cursor.toNat < s.cfg.n) : (s.sampled v8).DataInv := by
  obtain ⟨hwf, hinside, -, -, harmed, hbelow⟩ := h
  have hw := WritesBuf.setElem s (sampleElem v8) hc
  have hsucc := cursor_succ hc
  rw [State.sampled_eq s v8 hf hc]
  refine ⟨hw.wf hwf, hw.inside hinside, hsucc.trans_le hc, ?_, fun ha => ?_, fun a ha => ?_⟩
  · exact decide_eq_true_iff.trans (by rw [hsucc])
  · dsimp only at ha
    split at ha
    · cases ha
    · next hne => exact ⟨decide_eq_false hne, (harmed ha).2⟩
  · dsimp only at ha
    rw [hsucc] at ha
    exact State.setElem_isSome_read_upto _ hbelow ha

theorem Effect.dataInv {i : Instr} {s t : State} (h : Effect i s t) (hi : s.DataInv) : t.DataInv := by
  cases h with
  | started => exact hi.emptied (fun _ => rfl)
  | cleared ha => exact hi.emptied (fun h => absurd (ha.symm.trans h) (by decide))
  | stored v8 hf hc => exact hi.sampled v8 hf hc
  | transformed _ _ hw => rw [hw.returns]; exact hi.writesBuf hw
  | analyzeTick _ _ _ hw => exact hi.writesBuf hw
  | resetTick => exact hi.emptied id
  | reset => exact (hi.emptied id).unlisted rfl
  | _ => exact hi

theorem SubEffect.dataInv {s t : State} (h : SubEffect s t) (hi : s.DataInv) : t.DataInv := by
  cases h with
  | butterfly _ _ _ _ hw => exact hi.writesBuf hw
  | cleared _ _ ha => exact hi.emptied (fun h => absurd (ha.symm.trans h) (by decide))
  | started => exact hi.emptied (fun _ => rfl)
  | _ => exact hi

/-- Only FSM.TICK and SYS.RESET can take the tick in flight away from STATE, and neither is admitted inside one. -/
theorem Effect.phase_ok {i : Instr} {s t : State} (h : Effect i s t)
    (hidle : i = .fsmTick ∨ i = .sysReset → s.phase = .idle) (hok : s.phase.ok s.cfg s.fsm = true) :
    t.phase.ok t.cfg t.fsm = true := by
  by_cases hi : i = .sysReset
  · subst hi
    cases h with
    | reset => rfl
    | fault hc => cases hc
    | started hi => simp at hi
    | query _ hq | transformed hq => cases hq
  · have hphase : t.phase = s.phase := by_contra fun hne => hi (h.of_phase_ne hne)
    rw [hphase, h.cfg_eq]
    by_cases hfsm : t.fsm = s.fsm
    · rwa [hfsm]
    · rw [hidle (h.of_fsm_ne hfsm)]
      rfl

theorem SubEffect.phase_ok {s t : State} (h : SubEffect s t) (hok : s.phase.ok s.cfg s.fsm = true) :
    t.phase.ok t.cfg t.fsm = true := by
  cases h with
  | spin hp | initTick hp => show TickPhase.ok _ _ s.phase = true; rw [hp]; rfl
  | startAnalyze _ hs => simp [TickPhase.ok, hs, Progress.first_ok]
  | startOpen _ hs | startReset _ hs => simp [TickPhase.ok, hs]
  | butterfly g next hp hf hw hn =>
    simp only [hp, TickPhase.ok, Bool.and_eq_true] at hok
    obtain ⟨hs, hg⟩ := hok
    rcases hn with ⟨g', hnext, rfl⟩ | ⟨-, rfl⟩
    · simpa [TickPhase.ok, hs] using Progress.next_ok hg hnext
    · exact hs
  | matched _ hp | started hp => rw [hp] at hok; exact hok
  | cleared next hp ha hn =>
    rw [hp] at hok
    rcases hn with ⟨-, rfl⟩ | ⟨-, rfl⟩ <;> exact hok
  | wroteMatch | polled | wroteInit => rfl

/-- Settles O58: `DataInv` is kept by every effect, and only operations issued between ticks change STATE. -/
theorem everyStepKeepsInv : Obligations.EveryStepKeepsInv := by
  intro s t hinv hstep
  obtain ⟨hdata, hok⟩ := s.inv_iff.1 hinv
  refine t.inv_iff.2 ?_
  rcases step_next hstep with ⟨_, _, i, _, _, hadmitted, hexec⟩ | ⟨_, hsub⟩
  · have h := Effect.of_exec hexec
    exact ⟨h.dataInv hdata, h.phase_ok (phase_idle_of_admitted hadmitted) hok⟩
  · rcases SubEffect.of_execSubstep hsub with h | ⟨_, _, rfl⟩
    · exact ⟨h.dataInv hdata, h.phase_ok hok⟩
    · exact ⟨hdata, rfl⟩

/-! ### No stop of the machine (20_memory.md R76, R80) -/

theorem State.DataInv.allWritten {s : State} (h : s.DataInv) (hf : s.full = true) : s.AllWritten := by
  obtain ⟨-, -, -, hfull, -, hbelow⟩ := h
  have hn := hfull.1 hf
  intro i hi
  rw [State.elem?_isSome, hbelow (2 * i) (by omega), hbelow (2 * i + 1) (by omega)]
  rfl

theorem State.DataInv.not_missing {s : State} (h : s.DataInv) (hf : s.full = true) {e : Stop} :
    ¬ MissingElem s e := by
  rintro ⟨j, hj, hnone, -⟩
  have hsome := h.allWritten hf j hj
  rw [hnone] at hsome
  cases hsome

theorem State.DataInv.cursor_lt {s : State} (h : s.DataInv) (hf : s.full = false) :
    s.cursor.toNat < s.cfg.n := by
  obtain ⟨-, -, hle, hfull, -⟩ := h
  refine lt_of_le_of_ne hle fun heq => ?_
  rw [hfull.2 heq] at hf
  cases hf

section
variable {s : State} {f : Fault}

theorem map_halt {α β : Type} {x : Except Stop α} {g : α → β} :
    x.map g = .error (.halt f) ↔ x = .error (.halt f) := by
  cases x <;> simp [Except.map]

theorem readFull_halt {idx : BitVec 16} (h : readFull idx s = .error (.halt f)) :
    s.full = true ∧ MissingElem s (.halt f) := by
  rcases readFull_cases idx s with ⟨_, h'⟩ | ⟨_, _, h'⟩ | ⟨hi, hf, h'⟩ <;> rw [h'] at h
  · cases h
  · cases h
  · rcases readElem_cases s idx.toNat with ⟨_, _, _, hr⟩ | ⟨_, hn, hr⟩ | ⟨hi', _⟩
    · rw [hr] at h; cases h
    · rw [hr] at h; cases h; exact ⟨hf, _, hi, hn, rfl⟩
    · omega

theorem opMatchError_halt (h : opMatchError s = .error (.halt f)) :
    s.full = true ∧ MissingElem s (.halt f) := by
  rcases opMatchError_cases s with ⟨_, h'⟩ | ⟨_, _, h'⟩ | ⟨hf, e, h', hm⟩ <;> rw [h'] at h <;> cases h
  exact ⟨hf, hm⟩

/-- Everything a whole tick can do, as far as faults and stops go: raise the fault of its hazard, leave FAULT
alone, or stop the machine at an element that holds no value. -/
theorem opFsmTick_cases (s : State) :
    (s.tickHazard = true ∧ ∃ c, opFsmTick s = .error (.raise c)) ∨
    (∃ u, opFsmTick s = .ok u ∧ u.fault = s.fault) ∨
    (s.full = true ∧ ∃ e, opFsmTick s = .error e ∧ MissingElem s e) := by
  cases hs : s.fsm with
  | stateInit =>
    refine .inr (.inl ⟨tickInit s, by simp only [opFsmTick, hs], ?_⟩)
    rcases tickInit_cases s with ⟨_, h⟩ | ⟨_, h⟩ <;> rw [h]
  | stateAnalyze =>
    have hop : opFsmTick s = tickAnalyze s := by simp only [opFsmTick, hs]
    rw [hop]
    rcases tickAnalyze_cases s with ⟨hf, h⟩ | ⟨_, t, r, _, hw, _, h⟩ | hstop
    · exact .inl ⟨by simp [State.tickHazard, hs, hf], _, h⟩
    · exact .inr (.inl ⟨_, h, by rw [hw.frame]⟩)
    · exact .inr (.inr hstop)
  | stateOpen =>
    refine .inr (.inl ⟨tickOpen s, by simp only [opFsmTick, hs], ?_⟩)
    rw [tickOpen, openPoll_frame]
    rfl
  | stateReset =>
    have hop : opFsmTick s = tickReset s := by simp only [opFsmTick, hs]
    rw [hop]
    rcases tickReset_cases s with ⟨ha, h⟩ | ⟨_, h⟩
    · exact .inl ⟨by simp [State.tickHazard, hs, ha], _, h⟩
    · exact .inr (.inl ⟨_, h, rfl⟩)

theorem opFsmTick_halt (h : opFsmTick s = .error (.halt f)) : s.full = true ∧ MissingElem s (.halt f) := by
  rcases opFsmTick_cases s with ⟨_, c, h'⟩ | ⟨u, h', _⟩ | ⟨hf, e, h', hm⟩ <;> rw [h'] at h <;> cases h
  exact ⟨hf, hm⟩

/-- An operation stops the machine only at an element that holds no value while FULL = 1, or where a sample
would be stored beyond BUF. -/
theorem exec_fault {i : Instr} (h : exec i s = .fault f) :
    (s.full = true ∧ MissingElem s (.halt f)) ∨
    ((∃ v8, i = .acqSample v8) ∧ s.full = false ∧ s.cfg.n ≤ s.cursor.toNat ∧
      f = .bufOutside s.cursor.toNat) := by
  cases i with
  | acqStart =>
    have hop := command_fault.1 h
    rcases opAcqStart_cases s with ⟨_, h'⟩ | ⟨_, h'⟩ <;> rw [h'] at hop <;> cases hop
  | acqReset =>
    have hop := command_fault.1 h
    rcases opAcqReset_cases s with ⟨_, h'⟩ | ⟨_, h'⟩ <;> rw [h'] at hop <;> cases hop
  | acqSample v8 =>
    have hop := command_fault.1 h
    rcases opAcqSample_cases v8 s with ⟨_, h'⟩ | ⟨_, _, h'⟩ | ⟨hf, hc, h'⟩ <;> rw [h'] at hop <;> cases hop
    exact .inr ⟨⟨v8, rfl⟩, hf, hc, rfl⟩
  | acqTrigger =>
    have hop := command_fault.1 h
    rcases opAcqTrigger_cases s with ⟨_, _, h'⟩ | ⟨_, h'⟩ <;> rw [h'] at hop <;> cases hop
  | acqRead idx | matchLogmag idx => exact .inl (readFull_halt (map_halt.1 (query_fault.1 h)))
  | matchIsmatch | matchError => exact .inl (opMatchError_halt (map_halt.1 (query_fault.1 h)))
  | fftTransform =>
    have hop := command_fault.1 h
    rcases opFftTransform_cases s with ⟨_, h'⟩ | ⟨hf, h'⟩
    · rw [h'] at hop; cases hop
    · exact .inl ⟨hf, h'.missing hop⟩
  | fftPass p4 =>
    have hop := command_fault.1 h
    rcases opFftPass_cases p4.toNat s with ⟨_, h'⟩ | ⟨_, _, h'⟩ | ⟨_, hf, _, h'⟩
    · rw [passNumber, h'] at hop; cases hop
    · rw [passNumber, h'] at hop; cases hop
    · exact .inl ⟨hf, h'.missing hop⟩
  | fftBfly p4 k =>
    have hop := command_fault.1 h
    rw [passNumber, elemIndex] at hop
    rcases opFftBfly_cases p4.toNat k.toNat s with
      ⟨_, h'⟩ | ⟨_, _, h'⟩ | ⟨_, hf, j, hj, hn, h'⟩ | ⟨_, _, h'⟩ <;> rw [h'] at hop <;> cases hop
    exact .inl ⟨hf, j, hj, hn, rfl⟩
  | twRead idx | keyRead idx =>
    have hop := query_fault.1 h
    split at hop <;> cases hop
  | fsmTick => exact .inl (opFsmTick_halt (command_fault.1 h))
  | acqIsfull | acqStatus | sysReset | proxPoll | actOpen | actClose => cases h

end

/-- Settles O59: with the invariant every element is written while FULL = 1, and a sample has its place while
FULL = 0. -/
theorem noStepFromInvStopsTheMachine : Obligations.NoStepFromInvStopsTheMachine := by
  intro s f hinv hstep
  obtain ⟨hdata, -⟩ := s.popped.inv_iff.1 hinv
  rcases step_fault hstep with ⟨i, hexec⟩ | hsub
  · rcases exec_fault hexec with ⟨hf, hm⟩ | ⟨-, hf, hc, -⟩
    · exact hdata.not_missing hf hm
    · exact absurd (hdata.cursor_lt hf) (Nat.not_lt.2 hc)
  · obtain ⟨hf, hm⟩ := MissingElem.of_execSubstep hsub
    exact hdata.not_missing hf hm

/-! ### The assembled block (10_state.md R48 (I4), (I5), 60_exceptions.md R285) -/

theorem decode_sysReset : decode .input (encode .sysReset) = .ok .sysReset := by decide

/-- The steps of the assembled block: a whole tick between ticks, an admitted sample or trigger, a reset, a
sub-step. -/
theorem step_next_of_assembled {s t : State} (ha : (nextEvent s).assembled = true) (h : step s = .next t) :
    (s.phase = .idle ∧ exec .fsmTick s.popped = .next t) ∨
    ((s.armed = true ∨ s.full = true) ∧ ∃ v8, exec (.acqSample v8) s.popped = .next t) ∨
    exec .acqTrigger s.popped = .next t ∨ exec .sysReset s.popped = .next t ∨
    execSubstep s.popped = .next t := by
  rcases step_next h with ⟨src, w, i, he, hd, hr, hexec⟩ | ⟨-, hsub⟩
  · cases src with
    | loop =>
      simp only [refusalOf] at hr
      split_ifs at hr with hi hp
      rw [not_ne_iff.1 hi] at hexec
      exact .inl ⟨hp, hexec⟩
    | sampler =>
      cases i with
      | acqSample v8 =>
        simp only [refusalOf] at hr
        split_ifs at hr with hadmitted
        exact .inr (.inl ⟨by simpa using hadmitted, v8, hexec⟩)
      | _ => cases hr
    | trigger =>
      cases i with
      | acqTrigger => exact .inr (.inr (.inl hexec))
      | _ => cases hr
    | harness =>
      rw [he] at ha
      have hw : w = encode .sysReset := beq_iff_eq.1 ha
      rw [hw, decode_sysReset] at hd
      cases hd
      exact .inr (.inr (.inr (.inl hexec)))
  · exact .inr (.inr (.inr (.inr hsub)))

/-- (I5) at every point of a tick but the two after its ACQ.RESET. -/
theorem State.RunInv.full_of_fsm {s : State} (h : s.RunInv) (hs : s.fsm ≠ .stateInit)
    (hp : s.phase ≠ .resetStart ∧ s.phase ≠ .resetWrite) : s.full = true := by
  obtain ⟨-, hfull, -⟩ := h
  rcases hfull hs with hf | hp' | hp'
  · exact hf
  · exact absurd hp' hp.1
  · exact absurd hp' hp.2

theorem State.DataInv.armed_eq_false {s : State} (h : s.DataInv) (hf : s.full = true) : s.armed = false := by
  obtain ⟨-, -, -, -, harmed, -⟩ := h
  by_contra hne
  have hf' := (harmed (Bool.eq_true_of_not_eq_false hne)).1
  rw [hf] at hf'
  cases hf'

theorem tickHazard_eq_false {s : State} (hd : s.DataInv) (hr : s.RunInv) (hp : s.phase = .idle) :
    s.tickHazard = false := by
  have hfull (hs : s.fsm ≠ .stateInit) : s.full = true := hr.full_of_fsm hs (by simp [hp])
  cases hs : s.fsm with
  | stateInit | stateOpen => simp [State.tickHazard, hs]
  | stateAnalyze => simp [State.tickHazard, hs, hfull (by simp [hs])]
  | stateReset => simp [State.tickHazard, hs, hd.armed_eq_false (hfull (by simp [hs]))]

theorem substepHazard_eq_false {s : State} (hi : s.Inv) (hr : s.RunInv) : s.substepHazard = false := by
  obtain ⟨hd, hok⟩ := s.inv_iff.1 hi
  have ⟨_, _, hstart⟩ := hr
  cases hp : s.phase with
  | idle => simpa [State.substepHazard, hp] using tickHazard_eq_false hd hr hp
  | analyzeFft g =>
    simp only [hp, TickPhase.ok, Bool.and_eq_true, beq_iff_eq] at hok
    have hf := hr.full_of_fsm (by simp [hok.1]) (by simp [hp])
    simp [State.substepHazard, hp, hf, Progress.ok_bfly hok.2]
  | analyzeMatch =>
    simp only [hp, TickPhase.ok, beq_iff_eq] at hok
    have hf := hr.full_of_fsm (by simp [hok]) (by simp [hp])
    simp [State.substepHazard, hp, hf]
  | resetAcq =>
    simp only [hp, TickPhase.ok, beq_iff_eq] at hok
    have hf := hr.full_of_fsm (by simp [hok]) (by simp [hp])
    simp [State.substepHazard, hp, hd.armed_eq_false hf]
  | resetStart => simp [State.substepHazard, hp, State.startHazard, (hstart hp).2]
  | analyzeWrite | openPoll | resetWrite => simp [State.substepHazard, hp]

theorem State.RunInv.of_full {s : State} (hf : s.full = true) (hc : s.collecting = true)
    (hp : s.phase ≠ .resetStart) : s.RunInv :=
  ⟨fun _ => hc, fun _ => .inl hf, fun h => absurd h hp⟩

theorem State.RunInv.of_init {s : State} (hc : s.full = true → s.collecting = true)
    (hs : s.fsm = .stateInit) (hp : s.phase ≠ .resetStart) : s.RunInv :=
  ⟨hc, fun h => absurd hs h, fun h => absurd h hp⟩

theorem Effect.tick_runInv {s t : State} (h : Effect .fsmTick s t) (hr : s.RunInv) (hp : s.phase = .idle) :
    t.RunInv := by
  have hfull (hs : s.fsm ≠ .stateInit) : s.full = true := hr.full_of_fsm hs (by simp [hp])
  have hstart : s.phase ≠ .resetStart := by simp [hp]
  cases h with
  | fault | spin => exact hr
  | initTick _ hf | analyzeTick _ _ hf => exact .of_full hf (hr.1 hf) hstart
  | openTick hs =>
    have hf := hfull (by simp [hs])
    exact .of_full hf (hr.1 hf) hstart
  | resetTick => exact .of_init (fun h => by cases h) rfl hstart
  | started hi _ => simp at hi
  | query _ hq | transformed hq => cases hq

/-- A sample is admitted while ARMED = 1 or FULL = 1, so the one that fills the buffer finds COLLECTING = 1. -/
theorem Effect.sample_runInv {v8 : BitVec 8} {s t : State} (h : Effect (.acqSample v8) s t) (hd : s.DataInv)
    (hr : s.RunInv) (ha : s.armed = true ∨ s.full = true) : t.RunInv := by
  obtain ⟨-, -, -, -, harmed, -⟩ := hd
  obtain ⟨hcollecting, hfull, hstart⟩ := hr
  cases h with
  | fault | late => exact ⟨hcollecting, hfull, hstart⟩
  | stored _ hf hc =>
    rw [State.sampled_eq s v8 hf hc]
    have hnot : s.full ≠ true := by simp [hf]
    exact ⟨fun _ => (harmed (ha.resolve_right hnot)).2, fun hs => .inr ((hfull hs).resolve_left hnot), hstart⟩
  | started hi _ => simp at hi
  | query _ hq | transformed hq => cases hq

/-- A trigger that starts a collection outside Init comes between the last two sub-steps of a Reset tick. -/
theorem Effect.trigger_runInv {s t : State} (h : Effect .acqTrigger s t) (hr : s.RunInv) : t.RunInv := by
  obtain ⟨hcollecting, hfull, hstart⟩ := hr
  cases h with
  | fault | ignored => exact ⟨hcollecting, hfull, hstart⟩
  | started hi _ =>
    obtain ⟨-, hm, hc⟩ := hi.resolve_left (by simp)
    have hnot : s.full ≠ true := fun hf => by simp [hcollecting hf] at hc
    refine ⟨fun h => (by cases h), fun hs => .inr ((hfull hs).resolve_left hnot), fun hp => ?_⟩
    exact absurd (hm.symm.trans (hstart hp).1) (by decide)
  | query _ hq | transformed hq => cases hq

theorem opSysReset_runInv (s : State) : (opSysReset s).RunInv :=
  .of_init (fun h => by cases h) rfl (by simp [opSysReset])

theorem SubEffect.runInv {s t : State} (h : SubEffect s t) (hok : s.phase.ok s.cfg s.fsm = true)
    (hr : s.RunInv) : t.RunInv := by
  cases h with
  | spin => exact hr
  | initTick hp _ hf => exact .of_full hf (hr.1 hf) (by simp [hp])
  | startAnalyze hp hs hf => exact .of_full hf (hr.1 hf) (by simp)
  | startOpen hp hs | startReset hp hs =>
    have hf := hr.full_of_fsm (by simp [hs]) (by simp [hp])
    exact .of_full hf (hr.1 hf) (by simp)
  | butterfly g next hp hf _ hn =>
    refine .of_full hf (hr.1 hf) ?_
    rcases hn with ⟨g', -, rfl⟩ | ⟨-, rfl⟩ <;> simp
  | matched r _ hf => exact .of_full hf (hr.1 hf) (by simp)
  | wroteMatch _ _ hp | polled hp =>
    simp only [hp, TickPhase.ok, beq_iff_eq] at hok
    have hf := hr.full_of_fsm (by simp [hok]) (by simp [hp])
    exact .of_full hf (hr.1 hf) (by simp)
  | cleared next hp ha hn =>
    refine ⟨fun h => (by cases h), fun _ => .inr ?_, fun h => ?_⟩
    · exact hn.imp And.right And.right
    · rcases hn with ⟨hm, -⟩ | ⟨-, rfl⟩
      · exact ⟨hm, rfl⟩
      · cases h
  | started => exact ⟨fun h => (by cases h), fun _ => .inr (.inr rfl), fun h => (by cases h)⟩
  | wroteInit => exact .of_init hr.1 rfl (by simp)

theorem Effect.fault_eq {i : Instr} {s t : State} (h : Effect i s t)
    (hc : ∀ c, canFault s.fsm i c = false) : t.fault = s.fault := by
  rcases h.fault_eq_or_raise with hsame | ⟨c, hc', -⟩
  · exact hsame
  · rw [hc c] at hc'; cases hc'

theorem exec_fsmTick_fault_eq {s t : State} (h : exec .fsmTick s = .next t) (hz : s.tickHazard = false) :
    t.fault = s.fault := by
  rw [exec_fsmTick] at h
  rcases opFsmTick_cases s with ⟨hz', -⟩ | ⟨u, hu, hfault⟩ | ⟨-, e, he, hm⟩
  · rw [hz] at hz'; cases hz'
  · rw [hu] at h; cases h; exact hfault
  · obtain ⟨j, -, -, rfl⟩ := hm
    rw [he] at h; cases h

/-- Settles O60: outside Init FULL = 1 and so ARMED = 0, which excludes every fault of a tick; samples, triggers and
resets raise none. -/
theorem assembledBlockNeverFaults : Obligations.AssembledBlockNeverFaults := by
  intro s t hinv hrun hassembled hstep
  suffices h : t.RunInv ∧ t.fault = s.popped.fault from ⟨h.1, h.2.trans⟩
  have hinv' : s.popped.Inv := hinv
  have hrun' : s.popped.RunInv := hrun
  obtain ⟨hdata, hok⟩ := s.popped.inv_iff.1 hinv'
  rcases step_next_of_assembled hassembled hstep with
    ⟨hp, h⟩ | ⟨ha, v8, h⟩ | h | h | h
  · exact ⟨(Effect.of_exec h).tick_runInv hrun' hp,
      exec_fsmTick_fault_eq h (tickHazard_eq_false hdata hrun' hp)⟩
  · have heffect := Effect.of_exec h
    exact ⟨heffect.sample_runInv hdata hrun' ha, heffect.fault_eq (fun _ => rfl)⟩
  · have heffect := Effect.of_exec h
    exact ⟨heffect.trigger_runInv hrun', heffect.fault_eq (fun _ => rfl)⟩
  · cases h
    exact ⟨opSysReset_runInv s.popped, rfl⟩
  · rcases SubEffect.of_execSubstep h with heffect | ⟨hz, -⟩
    · exact ⟨heffect.runInv hok hrun', heffect.fault_eq⟩
    · rw [substepHazard_eq_false hinv' hrun'] at hz; cases hz

theorem State.resetOf_dataInv (c : Config) : (State.resetOf c).DataInv := by
  have hn := c.n_pos
  refine ⟨Memory.wf_nil, fun _ h => absurd h List.not_mem_nil, Nat.zero_le _, ?_, fun h => ⟨rfl, h⟩,
    fun a h => absurd h (Nat.not_lt_zero a)⟩
  exact ⟨fun h => (by cases h), fun h => absurd h hn.ne⟩

/-- Settles O57: right after reset BUF is empty, FULL = 0 and STATE is Init. -/
theorem invariantsHoldAtReset : Obligations.InvariantsHoldAtReset := fun c =>
  ⟨(State.inv_iff _).2 ⟨State.resetOf_dataInv c, rfl⟩,
    .of_init (fun h => by cases h) rfl (by simp [State.resetOf]), rfl⟩

end Sys2Proof.Machine

namespace Sys2Proof.Machine

/-! ### The frame of the queries (20_memory.md R74) -/

theorem not_isFftWrite_of_isQuery {i : Instr} (hq : isQuery i = true) : isFftWrite i ≠ true := by
  intro hi
  rcases eq_fft_of_isFftWrite hi with ⟨_, _, rfl⟩ | ⟨_, rfl⟩ | rfl <;> cases hq

theorem Effect.query_frame {i : Instr} {s t : State} (h : Effect i s t) (hq : isQuery i = true) :
    t = { s with fault := t.fault, result := t.result } := by
  cases h with
  | fault | query => rfl
  | started hi _ => rcases hi with rfl | ⟨rfl, _⟩ <;> cases hq
  | transformed hi _ _ => exact absurd hi (not_isFftWrite_of_isQuery hq)
  | _ => cases hq

/-- Settles O49: each of the eight operations is a query, and a query returns a value or faults. -/
theorem queriesWriteNoBlockState : Obligations.QueriesWriteNoBlockState := by
  intro i s t hi hexec
  have hq : isQuery i = true := by
    simp only [List.mem_cons, List.not_mem_nil, or_false] at hi
    rcases hi with (rfl | rfl | rfl | rfl) | ⟨idx, rfl | rfl | rfl | rfl⟩ <;> rfl
  exact (Effect.of_exec hexec).query_frame hq

/-! ### The frame of the FFT operations (20_memory.md R72, R75, 41_transform.md R166 to R168) -/

theorem Effect.fft_frame {i : Instr} {s t : State} (h : Effect i s t) (hi : isFftWrite i = true) :
    t = { s with buf := t.buf, fault := t.fault, result := none } ∧
    ∀ a, 2 * s.cfg.n ≤ a → t.buf.read a = s.buf.read a := by
  cases h with
  | fault => exact ⟨rfl, fun _ _ => rfl⟩
  | transformed _ _ hw => rw [hw.returns]; exact ⟨rfl, hw.above⟩
  | query _ hq => exact absurd hi (not_isFftWrite_of_isQuery hq)
  | started hs _ => rcases hs with rfl | ⟨rfl, _⟩ <;> cases hi
  | _ => cases hi

theorem State.pair_read (s : State) {stride k a : Nat} (c : Nat) (h0 : a ≠ 2 * k) (h1 : a ≠ 2 * k + 1)
    (h2 : a ≠ 2 * (k + stride)) (h3 : a ≠ 2 * (k + stride) + 1) :
    (s.pair stride c k).buf.read a = s.buf.read a := by
  rw [State.pair, State.setElem_read _ _ h2 h3, State.setElem_read _ _ h0 h1]

theorem opFftBfly_eq_pair {p k : Nat} {s t : State} (h : opFftBfly p k s = .ok t) :
    t = s.pair (s.cfg.stride p) (clusterOf s.cfg p k) k := by
  rcases opFftBfly_cases p k s with ⟨_, h'⟩ | ⟨_, _, h'⟩ | ⟨_, _, _, _, _, h'⟩ | ⟨_, _, h'⟩ <;>
    rw [h'] at h <;> cases h
  rfl

/-- Settles O51: the three operations share one frame, and a butterfly that completes has set its pair. -/
theorem fftOperationsKeepTheRest : Obligations.FftOperationsKeepTheRest := by
  refine ⟨fun i s t hi hexec => ?_, fun p4 k s t hexec a h0 h1 h2 h3 => ?_⟩
  · have hfft : isFftWrite i = true := by rcases hi with rfl | ⟨_, rfl⟩ | ⟨_, _, rfl⟩ <;> rfl
    exact (Effect.of_exec hexec).fft_frame hfft
  · rw [exec_fftBfly] at hexec
    rcases command_next.1 hexec with ⟨u, hu, rfl⟩ | ⟨c, -, rfl⟩
    · rw [opFftBfly_eq_pair hu]
      exact s.pair_read _ h0 h1 h2 h3
    · rfl

/-! ### Where an operation may stop (20_memory.md R76, R80, 40_acquisition.md R132) -/

theorem exec_not_refused (i : Instr) (s : State) (r : Refusal) : exec i s ≠ .refused r := by
  cases i with
  | acqStart | acqReset | acqSample | acqTrigger | fftTransform | fftPass | fftBfly | fsmTick =>
    exact command_not_refused s _ r
  | acqRead | twRead | matchIsmatch | matchError | keyRead | matchLogmag => exact query_not_refused s _ r
  | acqIsfull | acqStatus | sysReset | proxPoll | actOpen | actClose => exact nofun

/-- Settles O56: the two kinds of stop that `exec_fault` tells apart, by their names. -/
theorem operationsStopOnlyAtMissingElements : Obligations.OperationsStopOnlyAtMissingElements := by
  refine fun i s => ⟨exec_not_refused i s, fun j hexec => ?_, fun j hexec => ?_⟩
  · rcases exec_fault hexec with ⟨hf, _, hj, hnone, ⟨⟩⟩ | ⟨-, -, -, ⟨⟩⟩
    exact ⟨hf, hj, hnone⟩
  · rcases exec_fault hexec with ⟨-, _, -, -, ⟨⟩⟩ | ⟨hi, hf, hc, ⟨⟩⟩
    exact ⟨hi, hf, rfl, hc⟩

/-! ### The event that a step delivers (30_encoding.md R106, 60_exceptions.md R295) -/

theorem refusalOf_popped (src : Source) (w : OpWord) (i : Instr) (s : State) :
    refusalOf src w i s.popped = refusalOf src w i s := rfl

theorem refusalOf_harness_of_idle {w : OpWord} {i : Instr} {s : State} (hp : s.phase = .idle) :
    refusalOf .harness w i s = none := if_pos hp

theorem refusalOf_loop_tick_of_idle {w : OpWord} {s : State} (hp : s.phase = .idle) :
    refusalOf .loop w .fsmTick s = none := by
  simp [refusalOf, hp]

theorem deliverWord_eq_exec {src : Source} {w : OpWord} {i : Instr} {s : State}
    (hd : decode .input w = .ok i) (hr : refusalOf src w i s = none) : deliverWord src w s = exec i s := by
  simp only [deliverWord, hd, hr]

theorem step_eq_exec {src : Source} {w : OpWord} {i : Instr} {s : State}
    (he : nextEvent s = .word src w) (hd : decode .input w = .ok i) (hr : refusalOf src w i s = none) :
    step s = exec i s.popped := by
  rw [step, he]
  exact deliverWord_eq_exec hd ((refusalOf_popped src w i s).trans hr)

theorem step_eq_execSubstep {s : State} (he : nextEvent s = .substep) : step s = execSubstep s.popped := by
  rw [step, he]
  rfl

theorem nextEvent_of_cons {s : State} {e : Event} {rest : List Event} (h : s.inbox = e :: rest) :
    nextEvent s = e := by
  rw [nextEvent, h]

theorem popped_of_cons {s : State} {e : Event} {rest : List Event} (h : s.inbox = e :: rest) :
    s.popped = { s with inbox := rest } := by
  rw [State.popped, h]
  rfl

theorem nextEvent_of_nil {s : State} (h : s.inbox = []) : nextEvent s = idleEvent s := by
  rw [nextEvent, h]

theorem popped_of_nil {s : State} (h : s.inbox = []) : s.popped = s := by
  rw [State.popped, h, List.tail_nil, ← h]

theorem decode_fsmTick : decode .input (encode .fsmTick) = .ok .fsmTick := by decide

theorem step_of_idle {s : State} (hn : s.inbox = []) (hp : s.phase = .idle) : step s = exec .fsmTick s := by
  have he : nextEvent s = .word .loop (encode .fsmTick) := by rw [nextEvent_of_nil hn, idleEvent, if_pos hp]
  rw [step_eq_exec he decode_fsmTick (refusalOf_loop_tick_of_idle hp), popped_of_nil hn]

theorem step_of_tick_in_flight {s : State} (hn : s.inbox = []) (hp : s.phase ≠ .idle) :
    step s = execSubstep s := by
  have he : nextEvent s = .substep := by rw [nextEvent_of_nil hn, idleEvent, if_neg hp]
  rw [step_eq_execSubstep he, popped_of_nil hn]

/-- Settles O6: the head of the inbox is delivered, or with an empty inbox the loop's step; a placed word is a
head that the harness issues between ticks. -/
theorem stepRunsTheDecodedOperation : Obligations.StepRunsTheDecodedOperation := by
  refine ⟨fun s src w rest i hin hd hr => ?_, fun s rest hin => ?_, fun _ => step_of_idle,
    fun _ => step_of_tick_in_flight, fun s nbits w i hd => ?_⟩
  · rw [← popped_of_cons hin]
    exact step_eq_exec (nextEvent_of_cons hin) hd hr
  · rw [← popped_of_cons hin]
    exact step_eq_execSubstep (nextEvent_of_cons hin)
  · exact step_eq_exec rfl hd (refusalOf_harness_of_idle rfl)

/-! ### Reads by index (20_memory.md R71, 60_exceptions.md R284) -/

theorem readFull_of_le {idx : BitVec 16} {s : State} (h : s.cfg.n ≤ idx.toNat) :
    readFull idx s = .error (.raise .index) := by
  rcases readFull_cases idx s with ⟨_, h'⟩ | ⟨hlt, _⟩ | ⟨hlt, _⟩
  · exact h'
  · omega
  · omega

theorem readFull_of_not_full {idx : BitVec 16} {s : State} (h : idx.toNat < s.cfg.n) (hf : s.full = false) :
    readFull idx s = .error (.raise .notFull) := by
  rcases readFull_cases idx s with ⟨hle, _⟩ | ⟨_, _, h'⟩ | ⟨_, hf', _⟩
  · omega
  · exact h'
  · rw [hf] at hf'; cases hf'

theorem readFull_of_some {idx : BitVec 16} {s : State} {z : Cplx} (h : idx.toNat < s.cfg.n)
    (hf : s.full = true) (hz : s.elem? idx.toNat = some z) : readFull idx s = .ok z := by
  rcases readFull_cases idx s with ⟨hle, _⟩ | ⟨_, hf', _⟩ | ⟨_, _, h'⟩
  · omega
  · rw [hf] at hf'; cases hf'
  · exact h'.trans (readElem_of_some h hz)

/-- Settles O17: the three ends of `readFull`. -/
theorem acqReadReturnsTheElement : Obligations.AcqReadReturnsTheElement := by
  intro idx s
  rw [exec_acqRead]
  refine ⟨fun h => ?_, fun h hf => ?_, fun z h hf hz => ?_⟩
  · rw [readFull_of_le h]; rfl
  · rw [readFull_of_not_full h hf]; rfl
  · rw [readFull_of_some h hf hz]; rfl

theorem indexOk_iff {c : Config} {i : Nat} : indexOk c i = true ↔ i < c.n := decide_eq_true_iff

theorem keyEntry_of_lt {c : Config} {i : Nat} (h : i < 2 ^ c.log2N) : keyEntry c i = c.key[i] := by
  rw [keyEntry, Vector.getElem?_eq_getElem h, Option.getD_some]

/-- Settles O31: both reads test the index and nothing else. -/
theorem romReadsReturnTheEntry : Obligations.RomReadsReturnTheEntry := by
  intro idx s
  have hbad (h : s.cfg.n ≤ idx.toNat) : ¬ indexOk s.cfg idx.toNat = true := by rwa [indexOk_iff, Nat.not_lt]
  rw [exec_twRead, exec_keyRead]
  refine ⟨fun h => ?_, fun h => ?_, fun h => ?_, fun h => ?_⟩
  · rw [if_pos (indexOk_iff.2 h)]; rfl
  · rw [if_neg (hbad h)]; rfl
  · rw [if_pos (indexOk_iff.2 h), keyEntry_of_lt h]; rfl
  · rw [if_neg (hbad h)]; rfl

end Sys2Proof.Machine

namespace Sys2Proof

/-! ### The opcode map (30_encoding.md R103, R104) -/

theorem lookupOpcode_code (o : Opcode) : lookupOpcode o.code = some o := by cases o <;> decide

theorem Opcode.code_injective : Function.Injective Opcode.code := fun o o' h =>
  Option.some.inj (by rw [← lookupOpcode_code o, h, lookupOpcode_code o'])

/-- A code is looked up to the row that has it. -/
theorem lookupOpcode_eq_some {opc : BitVec 8} {o : Opcode} : lookupOpcode opc = some o ↔ o.code = opc := by
  constructor
  · intro h
    simpa using List.find?_some h
  · rintro rfl
    exact lookupOpcode_code o

theorem lookupOpcode_eq_none {opc : BitVec 8} : lookupOpcode opc = none ↔ ∀ o ∈ opcodeMap, o.code ≠ opc := by
  simp [lookupOpcode]

/-! ### The fields of a word (30_encoding.md R100 to R102) -/

/-- No format has an operand bit in OPC. -/
theorem Format.maskFree_opc (f : Format) : (~~~ f.maskFree).extractLsb' 24 8 = BitVec.allOnes 8 := by
  cases f <;> decide

theorem Opcode.matchWord_opc (o : Opcode) : o.matchWord.extractLsb' 24 8 = o.code :=
  BitVec.extractLsb'_append_eq_left

/-- A word with the match bits of a row has the row's code in OPC. -/
theorem opc_of_match {w : OpWord} {o : Opcode} (h : w &&& ~~~ o.format.maskFree = o.matchWord) :
    w.extractLsb' 24 8 = o.code := by
  rw [← o.matchWord_opc, ← h, BitVec.extractLsb'_and, Format.maskFree_opc, BitVec.and_allOnes]

/-- Settles O3: both rows have the code that the word holds in OPC. -/
theorem opcodeRowsNeverOverlap : Obligations.OpcodeRowsNeverOverlap := fun _ _ _ h h' =>
  Opcode.code_injective ((opc_of_match h).symm.trans (opc_of_match h'))

/-- Below OPC the word of an operation holds its operand bits. -/
theorem extractLsb'_encode (i : Instr) {start len : Nat} (h : start + len ≤ 24) :
    (encode i).extractLsb' start len = i.operandBits.extractLsb' start len := by
  rw [encode, Opcode.matchWord, BitVec.extractLsb'_or, BitVec.extractLsb'_append_eq_of_add_le h]
  simp

theorem extractLsb'_zeroExtend {len : Nat} (v : BitVec len) (h : len ≤ 32) :
    (v.zeroExtend 32).extractLsb' 0 len = v := by
  rw [BitVec.extractLsb'_setWidth_of_le (by omega)]
  exact BitVec.extractLsb'_eq_self

/-- An operand at bit 0 is read back from the operation's word. -/
theorem extractLsb'_encode_low {i : Instr} {len : Nat} {v : BitVec len} (h : i.operandBits = v.zeroExtend 32)
    (hlen : len ≤ 24) : (encode i).extractLsb' 0 len = v := by
  rw [extractLsb'_encode i (by omega), h, extractLsb'_zeroExtend v (by omega)]

/-- P4, placed at bit 20, is read back. -/
theorem extractLsb'_p4 (p4 : BitVec 4) : (p4.zeroExtend 32 <<< 20).extractLsb' 20 4 = p4 := by
  revert p4
  decide

/-- A field read from a word and placed again is the word's bits in that field. -/
theorem field_extractLsb' (w : OpWord) (start len : Nat) :
    (w.extractLsb' start len).zeroExtend 32 <<< start = w &&& (BitVec.allOnes len).zeroExtend 32 <<< start := by
  ext b hb
  by_cases hlt : b < start
  · simp [hlt]
  · have hb' : start + (b - start) = b := by omega
    simp [hlt, hb', hb, Bool.and_comm]

theorem zeroExtend_extractLsb' (w : OpWord) (len : Nat) :
    (w.extractLsb' 0 len).zeroExtend 32 = w &&& (BitVec.allOnes len).zeroExtend 32 := by
  simpa only [BitVec.shiftLeft_zero] using field_extractLsb' w 0 len

/-! ### Decode and encode (30_encoding.md R106) -/

/-- The word of an operation has the match bits of its row (R101). -/
theorem matchBits_encode (i : Instr) : encode i &&& ~~~ i.opcode.format.maskFree = i.opcode.matchWord := by
  cases i with
  | acqStart => exact Laws.MatchBits.acqStart
  | acqReset => exact Laws.MatchBits.acqReset
  | acqSample v8 => exact Laws.MatchBits.acqSample v8
  | acqTrigger => exact Laws.MatchBits.acqTrigger
  | acqIsfull => exact Laws.MatchBits.acqIsfull
  | acqStatus => exact Laws.MatchBits.acqStatus
  | acqRead idx => exact Laws.MatchBits.acqRead idx
  | fftTransform => exact Laws.MatchBits.fftTransform
  | fftPass p4 => exact Laws.MatchBits.fftPass p4
  | fftBfly p4 k => exact Laws.MatchBits.fftBfly p4 k
  | twRead idx => exact Laws.MatchBits.twRead idx
  | matchIsmatch => exact Laws.MatchBits.matchIsmatch
  | matchError => exact Laws.MatchBits.matchError
  | keyRead idx => exact Laws.MatchBits.keyRead idx
  | matchLogmag idx => exact Laws.MatchBits.matchLogmag idx
  | fsmTick => exact Laws.MatchBits.fsmTick
  | sysReset => exact Laws.MatchBits.sysReset
  | proxPoll v1 => exact Laws.MatchBits.proxPoll v1
  | actOpen => exact Laws.MatchBits.actOpen
  | actClose => exact Laws.MatchBits.actClose

theorem opc_encode (i : Instr) : (encode i).extractLsb' 24 8 = i.opcode.code :=
  opc_of_match (matchBits_encode i)

theorem opcode_operation (o : Opcode) (w : OpWord) : (o.operation w).opcode = o := by cases o <;> rfl

/-- The operands of FFT.BFLY do not meet in the word: each is read back. -/
theorem extractLsb'_bfly (p4 : BitVec 4) (k : BitVec 16) :
    (Instr.fftBfly p4 k).operandBits.extractLsb' 20 4 = p4 ∧
    (Instr.fftBfly p4 k).operandBits.extractLsb' 0 16 = k := by
  have hk : (k.zeroExtend 32).extractLsb' 20 4 = 0 := by
    ext b hb
    simp [BitVec.getLsbD_of_ge k (20 + b) (by omega)]
  have hp : (p4.zeroExtend 32 <<< 20).extractLsb' 0 16 = 0 := by
    ext b hb
    simp [show b < 20 by omega]
  rw [Instr.operandBits, BitVec.extractLsb'_or, BitVec.extractLsb'_or, extractLsb'_p4, hk, hp,
    extractLsb'_zeroExtend k (by decide)]
  exact ⟨BitVec.or_zero, BitVec.zero_or⟩

/-- A row's operands are read back from the operation's word (R102). -/
theorem operation_encode (i : Instr) : i.opcode.operation (encode i) = i := by
  cases i with
  | acqSample => exact congrArg Instr.acqSample (extractLsb'_encode_low rfl (by decide))
  | acqRead => exact congrArg Instr.acqRead (extractLsb'_encode_low rfl (by decide))
  | twRead => exact congrArg Instr.twRead (extractLsb'_encode_low rfl (by decide))
  | keyRead => exact congrArg Instr.keyRead (extractLsb'_encode_low rfl (by decide))
  | matchLogmag => exact congrArg Instr.matchLogmag (extractLsb'_encode_low rfl (by decide))
  | proxPoll => exact congrArg Instr.proxPoll (extractLsb'_encode_low rfl (by decide))
  | fftPass p4 =>
    exact congrArg Instr.fftPass ((extractLsb'_encode _ (by decide)).trans (extractLsb'_p4 p4))
  | fftBfly p4 k =>
    obtain ⟨hp, hk⟩ := extractLsb'_bfly p4 k
    exact congrArg₂ Instr.fftBfly ((extractLsb'_encode _ (by decide)).trans hp)
      ((extractLsb'_encode _ (by decide)).trans hk)
  | _ => rfl

/-- The operand bits of the operation read from a word are the word's bits that the row leaves free. -/
theorem operandBits_operation (o : Opcode) (w : OpWord) :
    (o.operation w).operandBits = w &&& o.format.maskFree := by
  cases o with
  | acqSample => exact zeroExtend_extractLsb' w 8
  | acqRead | twRead | keyRead | matchLogmag => exact zeroExtend_extractLsb' w 16
  | proxPoll => exact zeroExtend_extractLsb' w 1
  | fftPass => exact field_extractLsb' w 20 4
  | fftBfly =>
    calc (w.extractLsb' 20 4).zeroExtend 32 <<< 20 ||| (w.extractLsb' 0 16).zeroExtend 32
      _ = w &&& (BitVec.allOnes 4).zeroExtend 32 <<< 20 ||| w &&& (BitVec.allOnes 16).zeroExtend 32 := by
        rw [field_extractLsb', zeroExtend_extractLsb']
      _ = w &&& 0x00F0FFFF := BitVec.and_or_distrib_left.symm
  | _ => exact BitVec.and_zero.symm

/-- A word with the match bits of a row is the encoding of the operation read from it. -/
theorem encode_operation {o : Opcode} {w : OpWord} (h : w &&& ~~~ o.format.maskFree = o.matchWord) :
    encode (o.operation w) = w := by
  rw [encode, opcode_operation, operandBits_operation, ← h, ← BitVec.and_or_distrib_left, BitVec.or_comm,
    BitVec.or_not_self, BitVec.and_allOnes]

/-- What the decoder accepts, and as what (R106). -/
theorem decode_eq_ok {ctx : Context} {w : OpWord} {i : Instr} :
    decode ctx w = .ok i ↔
      ∃ o : Opcode, o.context = ctx ∧ w &&& ~~~ o.format.maskFree = o.matchWord ∧ o.operation w = i := by
  constructor
  · intro h
    unfold decode at h
    split at h
    · cases h
    · next o _ =>
      split_ifs at h with hctx hbits
      exact ⟨o, not_not.1 hctx, not_not.1 hbits, Except.ok.inj h⟩
  · rintro ⟨o, rfl, hm, rfl⟩
    have hl : lookupOpcode (w.extractLsb' 24 8) = some o := lookupOpcode_eq_some.2 (opc_of_match hm).symm
    simp [decode, hl, hm]

theorem decode_encode {ctx : Context} {i : Instr} (h : i.opcode.context = ctx) :
    decode ctx (encode i) = .ok i :=
  decode_eq_ok.2 ⟨i.opcode, h, matchBits_encode i, operation_encode i⟩

theorem Instr.wellFormed_iff {ctx : Context} {i : Instr} :
    i.wellFormed ctx = true ↔ i.opcode.context = ctx := beq_iff_eq

/-- Settles O2: an accepted word has its row's match bits, so it is the encoding of what is read from it; and an
encoding has its row's match bits and every operand in its field. -/
theorem decodeIffEncode : Obligations.DecodeIffEncode := by
  intro ctx w i
  rw [Instr.wellFormed_iff]
  constructor
  · intro h
    obtain ⟨o, hctx, hm, rfl⟩ := decode_eq_ok.1 h
    exact ⟨(congrArg Opcode.context (opcode_operation o w)).trans hctx, encode_operation hm⟩
  · rintro ⟨hctx, rfl⟩
    exact decode_encode hctx

/-! ### Words that spell no operation (30_encoding.md R104) -/

theorem decode_of_wrong_context {ctx : Context} {w : OpWord} {o : Opcode}
    (h : lookupOpcode (w.extractLsb' 24 8) = some o) (hctx : o.context ≠ ctx) :
    decode ctx w = .error (.wrongContext o) := by
  simp only [decode, h, if_pos hctx]

theorem decode_encode_of_wrong_context {ctx : Context} {i : Instr} (hctx : i.opcode.context ≠ ctx) :
    decode ctx (encode i) = .error (.wrongContext i.opcode) :=
  decode_of_wrong_context (lookupOpcode_eq_some.2 (opc_encode i).symm) hctx

/-- Settles O1: the decoder run on seventeen words. -/
theorem wordsOfTheSpecDecode : Obligations.WordsOfTheSpecDecode := by
  unfold Obligations.WordsOfTheSpecDecode
  decide

/-- Settles O4: the codes of the twenty rows leave exactly the listed ranges, and the three output events are
trace words. -/
theorem unassignedCodesAreTheListedOnes : Obligations.UnassignedCodesAreTheListedOnes := by
  refine ⟨fun opc => ?_, fun o w hl hout => ?_⟩
  · rw [lookupOpcode_eq_none]
    simp only [opcodeMap, List.forall_mem_cons, List.not_mem_nil, Opcode.code, ne_eq, ← BitVec.toNat_inj,
      BitVec.reduceToNat, false_implies, implies_true, and_true]
    omega
  · refine decode_of_wrong_context hl ?_
    rcases hout with rfl | rfl | rfl <;> decide

/-! ### Assembler lines (30_encoding.md R107, R108) -/

theorem isSome_assemble (l : AsmLine) : l.assemble.isSome = true ↔ l.wellFormed = true := by
  unfold AsmLine.assemble
  split_ifs with h
  · cases l <;> simp [h]
  · simp [h]

theorem assemble_op {o : Opcode} {args : List Int} (h : o.format.argsOk args = true) :
    (AsmLine.op o args).assemble = some [o.operation (o.format.operandWord args)] := if_pos h

theorem inRange_iff {lo hi v : Int} : inRange lo hi v = true ↔ lo ≤ v ∧ v ≤ hi := by simp [inRange]

theorem ofInt_eq_ofNat_emod (v : Int) : BitVec.ofInt 8 v = BitVec.ofNat 8 (v % 256).toNat := by
  apply BitVec.eq_of_toNat_eq
  rw [BitVec.toNat_ofInt, BitVec.toNat_ofNat]
  omega

theorem assemble_acqSample {v : Int} (hlo : -128 ≤ v) (hhi : v ≤ 255) :
    (AsmLine.op .acqSample [v]).assemble = some [.acqSample (BitVec.ofNat 8 (v % 256).toNat)] := by
  have hargs : Opcode.acqSample.format.argsOk [v] = true := inRange_iff.2 ⟨hlo, hhi⟩
  rw [assemble_op hargs, ← ofInt_eq_ofNat_emod]
  exact congrArg (fun x => some [Instr.acqSample x]) (extractLsb'_zeroExtend _ (by decide))

theorem assemble_fftBfly {pass k : Nat} (hp : pass ≤ 15) (hk : k ≤ 65535) :
    (AsmLine.op .fftBfly [(pass : Int), (k : Int)]).assemble =
      some [.fftBfly (BitVec.ofNat 4 pass) (BitVec.ofNat 16 k)] := by
  have hargs : Opcode.fftBfly.format.argsOk [(pass : Int), (k : Int)] = true := by
    simp only [Opcode.format, Format.argsOk, Bool.and_eq_true, inRange_iff]
    omega
  obtain ⟨hp4, hidx⟩ := extractLsb'_bfly (BitVec.ofNat 4 pass) (BitVec.ofNat 16 k)
  rw [assemble_op hargs]
  exact congrArg₂ (fun x y => some [Instr.fftBfly x y]) hp4 hidx

theorem assemble_acqFill {vs : List Int} (hne : vs ≠ []) (hvs : ∀ v ∈ vs, -128 ≤ v ∧ v ≤ 255) :
    (AsmLine.acqFill vs).assemble = some (vs.map (fun v => .acqSample (BitVec.ofInt 8 v))) := by
  have hwf : (AsmLine.acqFill vs).wellFormed = true := by
    simpa [AsmLine.wellFormed, inRange_iff, hne] using hvs
  exact if_pos hwf

theorem assemble_fsmTicks {n : Nat} (h : 1 ≤ n) :
    (AsmLine.fsmTicks n).assemble = some (List.replicate n .fsmTick) := by
  have hwf : (AsmLine.fsmTicks n).wellFormed = true := by
    simpa [AsmLine.wellFormed] using h
  exact if_pos hwf

/-- Settles O5: one equation per kind of line. -/
theorem assemblerLinesExpandAsListed : Obligations.AssemblerLinesExpandAsListed :=
  ⟨isSome_assemble, fun o _ h => ⟨_, assemble_op h, opcode_operation o _⟩, fun _ => assemble_acqSample,
    fun _ _ => assemble_fftBfly, fun _ => assemble_acqFill, fun _ => assemble_fsmTicks⟩

end Sys2Proof

namespace Sys2Proof.Machine

/-! ### What a step refuses (30_encoding.md R104, 44_external.md R269, 60_exceptions.md R285) -/

section
variable {src : Source} {w : OpWord} {s : State} {rest : List Event} (hin : s.inbox = .word src w :: rest)
include hin

theorem step_of_invalid {e : DecodeError} (hd : decode .input w = .error e) :
    step s = .refused (.invalidWord w) := by
  rw [step, nextEvent_of_cons hin]
  simp only [deliver, deliverWord, hd]

theorem step_of_refusal {i : Instr} {r : Refusal} (hd : decode .input w = .ok i)
    (hr : refusalOf src w i s = some r) : step s = .refused r := by
  rw [step, nextEvent_of_cons hin]
  simp only [deliver, deliverWord, hd, refusalOf_popped, hr]

end

/-- Settles O7: an invalid word at decoding, the four breaches by `refusalOf`. -/
theorem dutyBreachesAreRefused : Obligations.DutyBreachesAreRefused := by
  refine ⟨fun s src w rest e hin hd => step_of_invalid hin hd, fun s v8 rest hin ha hf => ?_,
    fun s rest hin hm => ?_, fun s w rest i hin hd hp => ?_, fun s rest hin hp => ?_⟩
  · exact step_of_refusal hin (decode_encode rfl) (by simp [refusalOf, ha, hf])
  · exact step_of_refusal hin (decode_encode rfl) (by simp [refusalOf, hm])
  · exact step_of_refusal hin hd (if_neg hp)
  · exact step_of_refusal hin (decode_encode rfl) (by simp [refusalOf, hp])

/-! ### Output events (44_external.md R261 to R263) -/

theorem OutEvent.context_instr (e : OutEvent) : e.instr.opcode.context = .trace := by cases e <;> rfl

/-- Settles O47: an output event is its append; its word is an encoding, which only the trace context accepts. -/
theorem outputEventsAppendToOut : Obligations.OutputEventsAppendToOut := by
  refine ⟨fun v s => exec_proxPoll s v, exec_actOpen, exec_actClose, by decide, by decide, by decide, by decide,
    fun e => ⟨decode_encode e.context_instr, decode_encode_of_wrong_context ?_⟩⟩
  rw [e.context_instr]
  decide

/-! ### The butterfly of FFT.BFLY (41_transform.md R166) -/

theorem opFftBfly_of_out_of_range {p k : Nat} {s : State} (h : ¬ bflyOk s.cfg p k = true) :
    opFftBfly p k s = .error (.raise .index) := by
  simp [opFftBfly, h]

theorem opFftBfly_of_not_full {p k : Nat} {s : State} (h : bflyOk s.cfg p k = true) (hf : s.full = false) :
    opFftBfly p k s = .error (.raise .notFull) := by
  simp [opFftBfly, h, hf]

theorem opFftBfly_of_some {p k : Nat} {s : State} {a b : Cplx} (h : bflyOk s.cfg p k = true)
    (hf : s.full = true) (ha : s.elem? k = some a) (hb : s.elem? (k + s.cfg.stride p) = some b) :
    opFftBfly p k s = .ok (s.pair (s.cfg.stride p) (clusterOf s.cfg p k) k) := by
  obtain ⟨hp, hk, hu⟩ := bflyOk_iff.1 h
  rw [opFftBfly_eq h hf, butterfly_ok]
  exact ⟨hk, s.cfg.lower_lt hp hk hu, by simp [ha], by simp [hb], rfl⟩

section
variable {s : State} {stride k : Nat} {a b : Cplx} (ha : s.elem? k = some a)
  (hb : s.elem? (k + stride) = some b)
include ha hb

theorem State.pair_upper (c : Nat) (hs : 0 < stride) :
    (s.pair stride c k).elem? k = some (cadd a (cmul b (tw s.cfg c))) := by
  rw [State.pair, State.setElem_elem?_other _ _ (by omega), State.setElem_elem?_self,
    State.elem_of_elem? ha, State.elem_of_elem? hb]

theorem State.pair_lower (c : Nat) :
    (s.pair stride c k).elem? (k + stride) = some (cadd a (cmul b (tw s.cfg (c + s.cfg.half)))) := by
  rw [State.pair, State.setElem_elem?_self, State.elem_of_elem? ha, State.elem_of_elem? hb]

end

/-- Settles O25: the three ends of `opFftBfly`; the butterfly sets the pair from the two old values. -/
theorem fftBflyCombinesOnePair : Obligations.FftBflyCombinesOnePair := by
  intro p4 k s
  rw [exec_fftBfly]
  refine ⟨fun h => ?_, fun hp hk hu => ⟨fun hf => ?_, fun a b hf ha hb => ?_⟩⟩
  · rw [opFftBfly_of_out_of_range (by rwa [bflyOk_iff])]; rfl
  · rw [opFftBfly_of_not_full (bflyOk_iff.2 ⟨hp, hk, hu⟩) hf]; rfl
  · rw [opFftBfly_of_some (bflyOk_iff.2 ⟨hp, hk, hu⟩) hf ha hb]
    exact ⟨_, rfl, rfl, State.pair_upper ha hb _ (s.cfg.stride_pos _ hp), State.pair_lower ha hb _,
      fun i h0 h1 h2 h3 => s.pair_read _ h0 h1 h2 h3⟩

end Sys2Proof.Machine

namespace Sys2Proof.Machine

/-! ### ACQ.START, ACQ.RESET and ACQ.TRIGGER (40_acquisition.md R130, R131, R133) -/

/-- Settles O12: the two ends of `opAcqStart`, told apart by its hazard. -/
theorem acqStartStartsOrFaults : Obligations.AcqStartStartsOrFaults := by
  intro s
  rw [exec_acqStart, ← startHazard_iff]
  rcases opAcqStart_cases s with ⟨hz, h⟩ | ⟨hz, h⟩ <;> rw [h]
  · exact ⟨fun hn => absurd hz hn, fun _ => rfl⟩
  · exact ⟨fun _ => rfl, fun hz' => absurd (hz.symm.trans hz') Bool.false_ne_true⟩

/-- Settles O13: the two ends of `opAcqReset`, told apart by ARMED. -/
theorem acqResetClearsOrFaults : Obligations.AcqResetClearsOrFaults := by
  intro s
  rw [exec_acqReset]
  rcases opAcqReset_cases s with ⟨ha, h⟩ | ⟨ha, h⟩ <;> rw [h]
  · exact ⟨fun ha' => absurd (ha'.symm.trans ha) Bool.false_ne_true, fun _ => rfl⟩
  · exact ⟨fun _ => rfl, fun ha' => absurd (ha.symm.trans ha') Bool.false_ne_true⟩

theorem exec_acqTrigger_of_triggered {s : State} (hm : s.cfg.acqMode = .triggered)
    (hc : s.collecting = false) : exec .acqTrigger s = .next { s with
      cursor := 0, full := false, collecting := true, armed := true, result := none } := by
  rw [exec_acqTrigger]
  rcases opAcqTrigger_cases s with ⟨_, _, h⟩ | ⟨hm' | hc', _⟩
  · rw [h]; rfl
  · rw [hm] at hm'; cases hm'
  · rw [hc] at hc'; cases hc'

theorem exec_acqTrigger_of_freeRunning {s : State} (hm : s.cfg.acqMode = .freeRunning) :
    exec .acqTrigger s = .next { s with result := none } := by
  rw [exec_acqTrigger]
  rcases opAcqTrigger_cases s with ⟨hm', _, _⟩ | ⟨_, h⟩
  · rw [hm] at hm'; cases hm'
  · rw [h]; rfl

/-- Settles O15: a trigger starts, or is ignored for one of two reasons. -/
theorem acqTriggerStartsOnlyWhenNotCollecting : Obligations.AcqTriggerStartsOnlyWhenNotCollecting :=
  fun _ => ⟨exec_acqTrigger_of_triggered, fun _ => exec_acqTrigger_of_collecting,
    exec_acqTrigger_of_freeRunning⟩

/-! ### ACQ.SAMPLE (40_acquisition.md R132) -/

theorem State.sampled_buf (s : State) (v8 : BitVec 8) :
    (s.sampled v8).buf = (s.setElem s.cursor.toNat (sampleElem v8)).buf := by
  unfold State.sampled
  rw [finishSample_frame]

theorem State.sampled_cursor (s : State) (v8 : BitVec 8) : (s.sampled v8).cursor = s.cursor + 1 := by
  unfold State.sampled
  rw [finishSample_frame]

theorem State.sampled_elem? (s : State) (v8 : BitVec 8) (j : Nat) :
    (s.sampled v8).elem? j = if j = s.cursor.toNat then some ⟨v8, 0⟩ else s.elem? j := by
  rw [State.elem?_congr (s.sampled_buf v8), State.setElem_elem?, sampleElem]

theorem exec_acqSample_of_full {s : State} (v8 : BitVec 8) (hf : s.full = true) :
    exec (.acqSample v8) s = .next (s.returns none) := by
  rw [exec_acqSample]
  rcases opAcqSample_cases v8 s with ⟨_, h⟩ | ⟨hf', _, _⟩ | ⟨hf', _, _⟩
  · rw [h]; rfl
  · rw [hf] at hf'; cases hf'
  · rw [hf] at hf'; cases hf'

theorem exec_acqSample_of_lt {s : State} (v8 : BitVec 8) (hf : s.full = false)
    (hc : s.cursor.toNat < s.cfg.n) : exec (.acqSample v8) s = .next ((s.sampled v8).returns none) := by
  rw [exec_acqSample]
  rcases opAcqSample_cases v8 s with ⟨hf', _⟩ | ⟨_, _, h⟩ | ⟨_, hc', _⟩
  · rw [hf] at hf'; cases hf'
  · rw [h]; rfl
  · omega

/-- Settles O14: a late sample returns; any other writes `State.sampled`, of which CURSOR cannot wrap. -/
theorem acqSampleStoresOrDiscards : Obligations.AcqSampleStoresOrDiscards := by
  refine fun v8 s => ⟨exec_acqSample_of_full v8, fun hf hc =>
    ⟨_, exec_acqSample_of_lt v8 hf hc, ?frame, ?cursor, ?stored, fun a h0 h1 => ?others⟩⟩
  case frame => rw [State.sampled_eq s v8 hf hc]; rfl
  case cursor => rw [State.returns_cursor, State.sampled_cursor, cursor_succ hc]
  case stored => exact (s.sampled_elem? v8 _).trans (if_pos rfl)
  case others => rw [State.returns_buf, State.sampled_buf, State.setElem_read _ _ h0 h1]

/-! ### A whole collection (40_acquisition.md R138) -/

/-- With the parameters `c`, exactly the samples `vs` were delivered since ACQ.START, at most N of them: the
invariant of a collection. -/
structure State.Collected (c : Config) (vs : List (BitVec 8)) (u : State) : Prop where
  cfg : u.cfg = c
  cursor : u.cursor.toNat = vs.length
  full : u.full = decide (vs.length = c.n)
  armed : u.armed = decide (vs.length ≠ c.n)
  result : u.result = none
  elems : ∀ (i : Nat) (v : BitVec 8), vs[i]? = some v → u.elem? i = some ⟨v, 0⟩

/-- Right after ACQ.START nothing is collected, and N is not 0. -/
theorem State.collected_nil {s : State} : State.Collected s.cfg [] { s with
    cursor := 0, full := false, collecting := true, armed := true, result := none } := by
  have hn : ([] : List (BitVec 8)).length ≠ s.cfg.n := (Nat.two_pow_pos _).ne
  exact ⟨rfl, rfl, (decide_eq_false hn).symm, (decide_eq_true hn).symm, rfl, fun _ _ h => nomatch h⟩

section
variable {c : Config} {vs : List (BitVec 8)} {u : State} (h : State.Collected c vs u)
include h

theorem State.Collected.sampled (v : BitVec 8) (hlt : vs.length < c.n) :
    State.Collected c (vs ++ [v]) ((u.sampled v).returns none) := by
  have hf : u.full = false := h.full.trans (decide_eq_false hlt.ne)
  have ha : u.armed = true := h.armed.trans (decide_eq_true hlt.ne)
  have hc : u.cursor.toNat < u.cfg.n := by rwa [h.cursor, h.cfg]
  refine ⟨(u.sampled_cfg v).trans h.cfg, ?cursor, ?full, ?armed, rfl, fun i w hi => ?elems⟩
  case cursor =>
    rw [State.returns_cursor, State.sampled_cursor, cursor_succ hc, h.cursor, List.length_append]
    rfl
  case full => simp [State.sampled_eq u v hf hc, h.cursor, h.cfg]
  case armed =>
    by_cases hn : vs.length + 1 = c.n <;> simp [State.sampled_eq u v hf hc, h.cursor, h.cfg, ha, hn]
  case elems =>
    refine (u.sampled_elem? v i).trans ?_
    rw [h.cursor]
    split
    next heq => subst heq; simpa using hi
    next hne =>
      have hi' : i < vs.length := by
        have := (List.getElem?_eq_some_iff.1 hi).1
        rw [List.length_append, List.length_singleton] at this
        omega
      exact h.elems i w (by rwa [List.getElem?_append_left hi'] at hi)

/-- Samples up to the N-th are all stored. -/
theorem State.Collected.execAll (ws : List (BitVec 8)) (hle : vs.length + ws.length ≤ c.n) :
    ∃ t, Machine.execAll (ws.map .acqSample) u = .next t ∧ State.Collected c (vs ++ ws) t := by
  induction ws generalizing vs u with
  | nil => exact ⟨u, rfl, by rwa [List.append_nil]⟩
  | cons w ws ih =>
    rw [List.length_cons] at hle
    have hlt : vs.length < c.n := by omega
    have hexec : exec (.acqSample w) u = .next ((u.sampled w).returns none) :=
      exec_acqSample_of_lt w (h.full.trans (decide_eq_false hlt.ne)) (by rwa [h.cursor, h.cfg])
    obtain ⟨t, ht, hcol⟩ := ih (h.sampled w hlt) (by rw [List.length_append, List.length_singleton]; omega)
    refine ⟨t, ?_, by rwa [List.append_assoc] at hcol⟩
    rw [List.map_cons, Machine.execAll, hexec]
    exact ht

/-- A sample after the N-th is discarded, and leaves even the empty `result` as it is. -/
theorem State.Collected.late_sample (hn : vs.length = c.n) (v : BitVec 8) :
    exec (.acqSample v) u = .next u := by
  rw [exec_acqSample_of_full v (h.full.trans (decide_eq_true hn)), State.returns, ← h.result]

end

/-- Settles O18: by induction on the samples, `State.Collected` holds from the ACQ.START on. -/
theorem exactlyNSamplesFillTheBuffer : Obligations.ExactlyNSamplesFillTheBuffer := by
  refine fun s hs => ⟨_, (acqStartStartsOrFaults s).1 hs, fun vs => ⟨fun hlt => ?_, fun hn => ?_⟩⟩
  · obtain ⟨u, hu, h⟩ := State.collected_nil.execAll vs (by simpa using hlt.le)
    exact ⟨u, hu, h.full.trans (decide_eq_false hlt.ne), h.armed.trans (decide_eq_true hlt.ne)⟩
  · obtain ⟨u, hu, h⟩ := State.collected_nil.execAll vs (by simpa using hn.le)
    exact ⟨u, hu, h.full.trans (decide_eq_true hn), h.armed.trans (decide_eq_false (not_not.2 hn)),
      h.cursor.trans hn, h.elems, h.late_sample hn⟩

end Sys2Proof.Machine

namespace Sys2Proof.Machine

/-! ### CADD, and the product by a negated rotation (41_transform.md R163, R164) -/

theorem wrap8_toInt (b : Byte) : wrap8 b.toInt = b := BitVec.ofInt_toInt

theorem wrap8_add (u v : Int) : wrap8 (u + v) = wrap8 u + wrap8 v := BitVec.ofInt_add u v

theorem wrap8_neg (v : Int) : wrap8 (-v) = -wrap8 v := BitVec.ofInt_neg

theorem cadd_eq (a t : Cplx) : cadd a t = ⟨a.re + t.re, a.im + t.im⟩ := by
  simp only [cadd, wrap8_add, wrap8_toInt]

/-- Settles O23: wrapping a sum of signed values is the addition of the patterns. -/
theorem caddWrapsEachComponent : Obligations.CaddWrapsEachComponent := by
  intro a t
  rw [cadd_eq, cadd_eq]
  exact ⟨BitVec.toNat_add .., BitVec.toNat_add .., by rw [BitVec.add_comm a.re, BitVec.add_comm a.im]⟩

theorem toInt_neg_of_abs_le {b : Byte} (h : |b.toInt| ≤ 127) : (-b).toInt = -b.toInt := by
  have hne : b ≠ BitVec.intMin 8 := by rintro rfl; exact absurd h (by decide)
  exact BitVec.toInt_neg_of_ne_intMin hne

theorem tw_add_half {c : Config} {i : Nat} (hi : i < c.half) :
    tw c (i + c.half) = ⟨-(tw c i).re, -(tw c i).im⟩ := by
  unfold tw
  rw [if_pos hi, if_neg (by omega), Nat.add_sub_cancel]

/-- The second half of TW negates as signed values too, because −128 never occurs (R162). -/
theorem toInt_tw_add_half {c : Config} {i : Nat} (hi : i < c.half) :
    (tw c (i + c.half)).re.toInt = -(tw c i).re.toInt ∧
    (tw c (i + c.half)).im.toInt = -(tw c i).im.toInt := by
  obtain ⟨hre, him⟩ := abs_tw_le c i
  rw [tw_add_half hi]
  exact ⟨toInt_neg_of_abs_le hre, toInt_neg_of_abs_le him⟩

/-- The floor of the negated value is the negated floor, or one less when bits are lost. -/
theorem wrap8_asr_neg (v : Int) :
    wrap8 (asr (-v) 7) = -wrap8 (asr v 7) ∨ wrap8 (asr (-v) 7) = -wrap8 (asr v 7) - 1 := by
  have hfloor : asr (-v) 7 = -asr v 7 ∨ asr (-v) 7 = -asr v 7 + -1 := by
    unfold asr
    omega
  rcases hfloor with h | h <;> rw [h]
  · exact .inl (wrap8_neg _)
  · exact .inr (by rw [wrap8_add, wrap8_neg, BitVec.sub_eq_add_neg]; rfl)

/-- Settles O22: both products change their sign exactly, and the floor costs at most one. -/
theorem negatedRotationLosesAtMostOne : Obligations.NegatedRotationLosesAtMostOne := by
  intro c i b hi
  obtain ⟨hre, him⟩ := toInt_tw_add_half hi
  have hpr : productRe b (tw c (i + c.half)) = -productRe b (tw c i) := by
    unfold productRe; rw [hre, him]; ring
  have hpi : productIm b (tw c (i + c.half)) = -productIm b (tw c i) := by
    unfold productIm; rw [hre, him]; ring
  unfold cmul
  rw [hpr, hpi]
  exact ⟨hre, him, wrap8_asr_neg _, wrap8_asr_neg _⟩

/-! ### One pass as a function of positions (41_transform.md R167) -/

theorem State.AllWritten.writesBuf {s t : State} (h : s.AllWritten) (hw : WritesBuf s t) : t.AllWritten :=
  fun i hi => hw.elem?_isSome i (h i (by rwa [hw.cfg] at hi))

theorem State.elem?_eq_some_iff {s : State} {i : Nat} {z : Cplx} :
    s.elem? i = some z ↔ s.buf.read (2 * i) = some z.re ∧ s.buf.read (2 * i + 1) = some z.im := by
  unfold State.elem?
  cases s.buf.read (2 * i) <;> cases s.buf.read (2 * i + 1) <;> obtain ⟨re, im⟩ := z <;> simp

/-- Bytes of BUF are determined by its elements, where these hold values. -/
theorem State.read_eq_of_elem?_eq {s t : State} {a : Nat} (h : t.elem? (a / 2) = s.elem? (a / 2))
    (hs : (s.elem? (a / 2)).isSome = true) : t.buf.read a = s.buf.read a := by
  obtain ⟨z, hz⟩ := Option.isSome_iff_exists.1 hs
  obtain ⟨hre, him⟩ := State.elem?_eq_some_iff.1 hz
  obtain ⟨hre', him'⟩ := State.elem?_eq_some_iff.1 (h.trans hz)
  obtain ha | ha : a = 2 * (a / 2) ∨ a = 2 * (a / 2) + 1 := by omega
  · rw [ha, hre, hre']
  · rw [ha, him, him']

/-- Two results of writing BUF from one state with every element written are equal when their elements are. -/
theorem WritesBuf.ext {s t u : State} (ht : WritesBuf s t) (hu : WritesBuf s u) (hwf : Memory.wf s.buf = true)
    (hall : s.AllWritten) (h : ∀ i, i < s.cfg.n → t.elem? i = u.elem? i) : t = u := by
  have hbuf : t.buf = u.buf := by
    refine Memory.ext_read (ht.wf hwf) (hu.wf hwf) fun a => ?_
    by_cases ha : 2 * s.cfg.n ≤ a
    · rw [ht.above a ha, hu.above a ha]
    · exact State.read_eq_of_elem?_eq (h _ (by omega)) (hu.elem?_isSome _ (hall _ (by omega)))
  rw [ht.frame, hu.frame, hbuf]

theorem opFftPass_of_out_of_range {p : Nat} {s : State} (hp : s.cfg.log2N ≤ p) :
    opFftPass p s = .error (.raise .index) := by
  simp [opFftPass, passOk, hp]

theorem opFftPass_of_not_full {p : Nat} {s : State} (hp : p < s.cfg.log2N) (hf : s.full = false) :
    opFftPass p s = .error (.raise .notFull) := by
  simp [opFftPass, passOk, hp, hf]

theorem opFftPass_of_full {p : Nat} {s : State} (hp : p < s.cfg.log2N) (hf : s.full = true) :
    opFftPass p s = forEach (fun k => opFftBfly p k) (passUppers s.cfg p) s := by
  simp [opFftPass, passOk, hp, hf]

/-- Settles O27: `forEach_bfly` gives every element from the set of butterflies, whatever their order. -/
theorem orderInsideAPassIsFree : Obligations.OrderInsideAPassIsFree := by
  intro s p ks hf hp hwf hall hperm
  have hmem (k : Nat) : k ∈ ks ↔ k ∈ passUppers s.cfg p := hperm.mem_iff
  obtain ⟨t, ht, htw, hte⟩ := forEach_bfly hf (fun k hk => bflyOk_of_mem hp ((hmem k).1 hk))
    (hperm.nodup_iff.2 (nodup_passUppers s.cfg hp)) hall
  obtain ⟨u, hu, huw, hue⟩ := forEach_bfly hf (fun k hk => bflyOk_of_mem hp hk)
    (nodup_passUppers s.cfg hp) hall
  have htu : t = u := htw.ext huw hwf hall fun i _ => by
    rw [hte, hue]
    simp only [passElem, hmem]
  rw [opFftPass_of_full hp hf, ht, hu, htu]

/-- A position in the lower half of its cluster is one stride after a position in the upper half. -/
theorem sub_stride_cluster {i s : Nat} (hs : 0 < s) (h : ¬ i % (2 * s) < s) :
    s ≤ i ∧ (i - s) / (2 * s) = i / (2 * s) ∧ (i - s) % (2 * s) < s := by
  have hle : i % (2 * s) ≤ i := Nat.mod_le ..
  have hlt : i % (2 * s) - s < s := by
    have := Nat.mod_lt i (Nat.mul_pos Nat.two_pos hs)
    omega
  have hsplit : i - s = 2 * s * (i / (2 * s)) + (i % (2 * s) - s) := by
    have := Nat.div_add_mod i (2 * s)
    omega
  refine ⟨by omega, ?_, ?_⟩
  · rw [hsplit, Nat.mul_add_div (by omega), Nat.div_eq_of_lt (hlt.trans (by omega)), Nat.add_zero]
  · rwa [hsplit, Nat.mul_add_mod, Nat.mod_eq_of_lt (hlt.trans (by omega))]

section
variable {α : Type} {add : α → α → α} {rot : Nat → α → α} {c : Config} {p i : Nat} {x y : Nat → α}

theorem netPass_upper (hu : i % (2 * c.stride p) < c.stride p) :
    netPass add rot c.n p x i = add (x i) (rot (clusterOf c p i) (x (i + c.stride p))) := if_pos hu

theorem netPass_lower (hu : ¬ i % (2 * c.stride p) < c.stride p) :
    netPass add rot c.n p x i = add (x (i - c.stride p)) (rot (clusterOf c p i + c.half) (x i)) := if_neg hu

/-- A pass reads no position beyond N, so inputs that agree below N give the same result there. -/
theorem netPass_congr (hp : p < c.log2N) (hxy : ∀ i, i < c.n → x i = y i) (hi : i < c.n) :
    netPass add rot c.n p x i = netPass add rot c.n p y i := by
  by_cases hu : i % (2 * c.stride p) < c.stride p
  · rw [netPass_upper hu, netPass_upper hu, hxy i hi, hxy _ (c.lower_lt hp hi hu)]
  · rw [netPass_lower hu, netPass_lower hu, hxy i hi, hxy _ (by omega)]

end

/-- The butterflies of a pass give every element the pass function of the elements before. -/
theorem passElem_passUppers {s : State} {p i : Nat} (hp : p < s.cfg.log2N) (hi : i < s.cfg.n) :
    passElem s.cfg p (passUppers s.cfg p) s i =
      some (netPass cadd (rotFixed s.cfg) s.cfg.n p s.elem i) := by
  have hs := s.cfg.stride_pos p hp
  unfold passElem
  by_cases hu : i % (2 * s.cfg.stride p) < s.cfg.stride p
  · rw [if_pos ((mem_passUppers s.cfg hp i).2 ⟨hi, hu⟩), netPass_upper hu, rotFixed]
  · obtain ⟨hle, hdiv, hupper⟩ := sub_stride_cluster hs hu
    rw [if_neg (fun h => hu ((mem_passUppers s.cfg hp i).1 h).2),
      if_pos ⟨hle, (mem_passUppers s.cfg hp _).2 ⟨by omega, hupper⟩⟩, netPass_lower hu, rotFixed,
      clusterOf, hdiv, clusterOf]

/-- FFT.PASS with FULL = 1 and every element written: it completes with the pass function in BUF (R167). -/
theorem opFftPass_completes {p : Nat} {s : State} (hp : p < s.cfg.log2N) (hf : s.full = true)
    (hall : s.AllWritten) : ∃ t, opFftPass p s = .ok t ∧ WritesBuf s t ∧
      ∀ i, i < s.cfg.n → t.elem? i = some (netPass cadd (rotFixed s.cfg) s.cfg.n p s.elem i) := by
  obtain ⟨t, ht, hw, he⟩ := forEach_bfly hf (fun k hk => bflyOk_of_mem hp hk)
    (nodup_passUppers s.cfg hp) hall
  exact ⟨t, (opFftPass_of_full hp hf).trans ht, hw,
    fun i hi => (he i).trans (passElem_passUppers hp hi)⟩

/-- Settles O26: the two fault ends of `opFftPass`, and `opFftPass_completes`. -/
theorem fftPassCombinesEveryPairOnce : Obligations.FftPassCombinesEveryPairOnce := by
  intro p4 s
  rw [exec_fftPass]
  refine ⟨fun hp => ?_, fun hp hf => ?_, fun hp hf hall => ?_⟩
  · rw [opFftPass_of_out_of_range hp]; rfl
  · rw [opFftPass_of_not_full hp hf]; rfl
  · obtain ⟨t, ht, hw, he⟩ := opFftPass_completes hp hf hall
    rw [ht]
    exact ⟨_, rfl, congrArg (State.returns · none) hw.frame, he, hw.above⟩

/-! ### The transform as its passes (41_transform.md R168) -/

theorem opFftPass_writesBuf {p : Nat} {s t : State} (h : opFftPass p s = .ok t) : WritesBuf s t := by
  rcases opFftPass_cases p s with ⟨-, he⟩ | ⟨-, -, he⟩ | ⟨-, -, -, hpart⟩
  · rw [he] at h; cases h
  · rw [he] at h; cases h
  · exact hpart.writesBuf h

/-- The outer loop from pass p on is the passes from p on, in order. -/
theorem transformPasses_eq_forEach (count p : Nat) {s : State} (hp : p + count ≤ s.cfg.log2N)
    (hf : s.full = true) :
    transformPasses count (s.cfg.stride p) s = forEach (fun p => opFftPass p) (List.range' p count) s := by
  induction count generalizing p s with
  | zero => rfl
  | succ count ih =>
    rw [transformPasses, transformClusters_pass (by omega) hf, List.range'_succ, forEach_cons,
      ← Config.stride_succ]
    cases hx : opFftPass p s with
    | error e => rfl
    | ok t =>
      have hw := opFftPass_writesBuf hx
      rw [ok_bind, ok_bind, ← hw.cfg]
      exact ih (p + 1) (by rw [hw.cfg]; omega) (hw.full.trans hf)

theorem opFftTransform_of_not_full {s : State} (hf : s.full = false) :
    opFftTransform s = .error (.raise .notFull) := by
  simp [opFftTransform, hf]

theorem opFftTransform_eq_forEach {s : State} (hf : s.full = true) :
    opFftTransform s = forEach (fun p => opFftPass p) (List.range s.cfg.log2N) s := by
  rw [List.range_eq_range', ← transformPasses_eq_forEach s.cfg.log2N 0 (by omega) hf, Config.stride_zero]
  simp [opFftTransform, hf]

/-- Settles O28: the middle loop is one pass and the stride of the outer loop is that of the pass. -/
theorem transformIsThePassesInOrder : Obligations.TransformIsThePassesInOrder := fun s hf => by
  rw [exec_fftTransform, opFftTransform_eq_forEach hf]

/-- The first passes leave the network of as many passes over CADD and CMUL in BUF. -/
theorem forEach_opFftPass_completes {s : State} (hf : s.full = true) (hall : s.AllWritten) {count : Nat}
    (hc : count ≤ s.cfg.log2N) :
    ∃ t, forEach (fun p => opFftPass p) (List.range count) s = .ok t ∧ WritesBuf s t ∧
      ∀ i, i < s.cfg.n → t.elem? i = some (network cadd (rotFixed s.cfg) s.cfg.n count s.elem i) := by
  induction count with
  | zero => exact ⟨s, rfl, .refl s, fun i hi => State.elem?_eq_some_elem (hall i hi)⟩
  | succ count ih =>
    obtain ⟨t, ht, hw, he⟩ := ih (by omega)
    obtain ⟨u, hu, hwu, heu⟩ := opFftPass_completes (p := count) (by rw [hw.cfg]; omega)
      (hw.full.trans hf) (hall.writesBuf hw)
    rw [hw.cfg] at heu
    refine ⟨u, ?_, hw.trans hwu, fun i hi => (heu i hi).trans ?_⟩
    · rw [List.range_succ, forEach_append, ht, ok_bind, forEach_cons, hu]; rfl
    · exact congrArg some (netPass_congr hc (fun j hj => State.elem_of_elem? (he j hj)) hi)

/-- Settles O29: the transform is its passes in order, and these leave the network. -/
theorem fftTransformComputesTheNetwork : Obligations.FftTransformComputesTheNetwork := by
  intro s
  rw [exec_fftTransform]
  refine ⟨fun hf => ?_, fun hf hall => ?_⟩
  · rw [opFftTransform_of_not_full hf]; rfl
  · obtain ⟨t, ht, hw, he⟩ := forEach_opFftPass_completes hf hall le_rfl
    rw [opFftTransform_eq_forEach hf, ht]
    exact ⟨_, rfl, congrArg (State.returns · none) hw.frame, he, hw.above⟩

end Sys2Proof.Machine

namespace Sys2Proof.Machine

/-! ### The network over exact arithmetic (41_transform.md R170) -/

/-- The values of x at t, t + d, t + 2d, … (m of them), weighted with the powers of w: the polynomial with
these coefficients, at w. -/
def strideSum {R : Type} [CommRing R] (x : Nat → R) (d t m : Nat) (w : R) : R :=
  ∑ r ∈ Finset.range m, x (t + r * d) * w ^ r

/-- The even and the odd terms of a sum, each over twice the distance. -/
theorem strideSum_two_mul {R : Type} [CommRing R] (x : Nat → R) (d t m : Nat) (w : R) :
    strideSum x d t (2 * m) w =
      strideSum x (2 * d) t m (w ^ 2) + strideSum x (2 * d) (t + d) m (w ^ 2) * w := by
  unfold strideSum
  induction m with
  | zero => simp
  | succ m ih =>
    have heven : t + m * (2 * d) = t + 2 * m * d := by ring
    have hodd : t + d + m * (2 * d) = t + (2 * m + 1) * d := by ring
    simp only [Nat.mul_succ, Finset.sum_range_succ]
    rw [ih, heven, hodd]
    ring

/-- What the first p passes leave at position i: the input at the positions congruent to i modulo the cluster
size 2^(L−p), weighted with the powers of the root of unity that the bit-reversed cluster number selects. -/
def partialDft {R : Type} [CommRing R] (c : Config) (ω : R) (x : Nat → R) (p i : Nat) : R :=
  strideSum x (2 ^ (c.log2N - p)) (i % 2 ^ (c.log2N - p)) (2 ^ p)
    (ω ^ (2 ^ (c.log2N - p) * bitrev p (i / 2 ^ (c.log2N - p))))

theorem bitrev_two_mul (p q : Nat) : bitrev (p + 1) (2 * q) = bitrev p q := by
  rw [bitrev_succ, Nat.mul_mod_right, Nat.zero_mul, Nat.zero_add, Nat.mul_div_cancel_left q Nat.two_pos]

theorem bitrev_two_mul_add_one (p q : Nat) : bitrev (p + 1) (2 * q + 1) = 2 ^ p + bitrev p q := by
  have hmod : (2 * q + 1) % 2 = 1 := by omega
  have hdiv : (2 * q + 1) / 2 = q := by omega
  rw [bitrev_succ, hmod, hdiv, Nat.one_mul]

/-- A number of k bits reads back over m more bits as its reversal with m zeros below. -/
theorem bitrev_add (k m : Nat) {q : Nat} (hq : q < 2 ^ k) : bitrev (k + m) q = bitrev k q * 2 ^ m := by
  induction k generalizing q with
  | zero =>
    obtain rfl : q = 0 := by omega
    induction m with
    | zero => rfl
    | succ m ih => simpa [bitrev] using ih
  | succ k ih =>
    rw [Nat.succ_add, bitrev_succ, bitrev_succ, ih (by omega)]
    ring

section
variable {R : Type} [CommRing R] {c : Config} {ω : R} {x : Nat → R} {p i : Nat}

theorem partialDft_zero (hi : i < c.n) : partialDft c ω x 0 i = x i := by
  have hmod : i % 2 ^ c.log2N = i := Nat.mod_eq_of_lt hi
  simp [partialDft, strideSum, hmod]

theorem partialDft_log2N (q : Nat) :
    partialDft c ω x c.log2N q = ∑ m ∈ Finset.range c.n, x m * ω ^ (bitrev c.log2N q * m) := by
  simp [partialDft, strideSum, Config.n, Nat.mod_one, pow_mul]

theorem two_pow_eq_two_stride (hp : p < c.log2N) : 2 ^ (c.log2N - p) = 2 * c.stride p := by
  rw [c.stride_eq p hp, ← Nat.pow_succ']
  congr 1
  omega

theorem two_pow_mul_stride (hp : p < c.log2N) : 2 ^ p * c.stride p = c.half := by
  have hn : 2 * (2 ^ p * c.stride p) = 2 * c.half := by
    rw [Nat.mul_left_comm, c.clusters_eq p hp, c.two_half]
  omega

theorem clusterOf_lt (hp : p < c.log2N) (hi : i < c.n) : clusterOf c p i < 2 ^ p := by
  rw [clusterOf, Nat.div_lt_iff_lt_mul (Nat.mul_pos Nat.two_pos (c.stride_pos p hp)), c.clusters_eq p hp]
  exact hi

/-- The rotation of a cluster, in terms of the cluster number's reversal over p bits (R161, R166). -/
theorem exponent_clusterOf (hp : p < c.log2N) (hi : i < c.n) :
    exponent c (clusterOf c p i) = c.stride p * bitrev p (clusterOf c p i) ∧
    exponent c (clusterOf c p i + c.half) = c.stride p * (2 ^ p + bitrev p (clusterOf c p i)) := by
  have hq := clusterOf_lt hp hi
  have hle : 2 ^ p ≤ c.half := by
    rw [← two_pow_mul_stride hp]
    exact Nat.le_mul_of_pos_right _ (c.stride_pos p hp)
  have hsplit : c.log2N - 1 = p + (c.log2N - p - 1) := by omega
  have hupper : exponent c (clusterOf c p i) = c.stride p * bitrev p (clusterOf c p i) := by
    rw [exponent_of_lt (by omega), hsplit, bitrev_add _ _ hq, ← c.stride_eq p hp, Nat.mul_comm]
  refine ⟨hupper, ?_⟩
  rw [exponent_add_half (by omega), hupper, ← two_pow_mul_stride hp]
  ring

/-- `partialDft` before pass p, by the cluster of the pass. -/
theorem partialDft_eq (hp : p < c.log2N) :
    partialDft c ω x p i = strideSum x (2 * c.stride p) (i % (2 * c.stride p)) (2 ^ p)
      (ω ^ (2 * (c.stride p * bitrev p (clusterOf c p i)))) := by
  rw [partialDft, two_pow_eq_two_stride hp, clusterOf, Nat.mul_assoc]

/-- `partialDft` after pass p, from the two sums over the cluster of the pass. -/
theorem partialDft_succ (hp : p < c.log2N) :
    partialDft c ω x (p + 1) i =
      strideSum x (2 * c.stride p) (i % c.stride p) (2 ^ p)
        (ω ^ (2 * (c.stride p * bitrev (p + 1) (i / c.stride p)))) +
      strideSum x (2 * c.stride p) (i % c.stride p + c.stride p) (2 ^ p)
        (ω ^ (2 * (c.stride p * bitrev (p + 1) (i / c.stride p)))) *
          ω ^ (c.stride p * bitrev (p + 1) (i / c.stride p)) := by
  have hs : 2 ^ (c.log2N - (p + 1)) = c.stride p := by rw [c.stride_eq p hp, Nat.sub_sub]
  rw [partialDft, hs, Nat.pow_succ', strideSum_two_mul, ← pow_mul, Nat.mul_comm _ 2]

/-- The half-clusters of a position in an upper half and of its partner one stride on, in the cluster of both. -/
theorem upper_half_cluster {i s : Nat} (hs : 0 < s) (h : i % (2 * s) < s) :
    i / s = 2 * (i / (2 * s)) ∧ i % s = i % (2 * s) ∧
    (i + s) / (2 * s) = i / (2 * s) ∧ (i + s) % (2 * s) = i % (2 * s) + s := by
  have hdiv (k : Nat) : k / (2 * s) = k / s / 2 := by rw [Nat.div_div_eq_div_mul, Nat.mul_comm]
  have hmod (k : Nat) : k % (2 * s) = k % s + s * (k / s % 2) := by rw [Nat.mul_comm, Nat.mod_mul]
  have hdiv' : (i + s) / s = i / s + 1 := Nat.add_div_right i hs
  have heven : i / s % 2 = 0 := by
    by_contra hodd
    have hone : i / s % 2 = 1 := by omega
    rw [hmod, hone] at h
    omega
  have hodd : (i / s + 1) % 2 = 1 := by omega
  refine ⟨?_, ?_, ?_, ?_⟩
  · rw [hdiv]; omega
  · rw [hmod, heven, Nat.mul_zero, Nat.add_zero]
  · rw [hdiv, hdiv, hdiv']; omega
  · rw [hmod, hmod, hdiv', heven, hodd, Nat.add_mod_right, Nat.mul_one, Nat.mul_zero, Nat.add_zero]

/-- One pass takes the partial transform one step further: the two halves of a cluster evaluate the same two
sums, at the two square roots of the cluster's root of unity. -/
theorem netPass_partialDft (hω : ω ^ c.n = 1) (hp : p < c.log2N) (hi : i < c.n) :
    netPass (fun a b => a + b) (fun j b => b * ω ^ exponent c j) c.n p (partialDft c ω x p) i =
      partialDft c ω x (p + 1) i := by
  have hs := c.stride_pos p hp
  obtain ⟨hupper, hlower⟩ := exponent_clusterOf hp hi
  by_cases hu : i % (2 * c.stride p) < c.stride p
  · obtain ⟨hdiv, hmod, hdiv', hmod'⟩ := upper_half_cluster hs hu
    rw [netPass_upper hu, partialDft_succ hp, partialDft_eq hp, partialDft_eq hp, hupper, hdiv, hmod, hmod',
      bitrev_two_mul, clusterOf, clusterOf, hdiv']
  · obtain ⟨j, rfl⟩ := Nat.exists_eq_add_of_le' (sub_stride_cluster hs hu).1
    obtain ⟨-, hdivj, huj⟩ := sub_stride_cluster hs hu
    rw [Nat.add_sub_cancel] at hdivj huj
    obtain ⟨hdiv, hmod, -, hmod'⟩ := upper_half_cluster hs huj
    have hodd : (j + c.stride p) / c.stride p = 2 * clusterOf c p (j + c.stride p) + 1 := by
      rw [Nat.add_div_right _ hs, hdiv, hdivj, clusterOf]
    have hturn : ω ^ (2 * (c.stride p * (2 ^ p + bitrev p (clusterOf c p (j + c.stride p))))) =
        ω ^ (2 * (c.stride p * bitrev p (clusterOf c p (j + c.stride p)))) := by
      rw [Nat.mul_add, Nat.mul_comm (c.stride p) (2 ^ p), two_pow_mul_stride hp, Nat.mul_add, c.two_half,
        pow_add, hω, one_mul]
    rw [netPass_lower hu, partialDft_succ hp, partialDft_eq hp, partialDft_eq hp, hlower, hodd,
      bitrev_two_mul_add_one, hturn, Nat.add_mod_right, hmod, hmod', Nat.add_sub_cancel, clusterOf,
      hdivj, clusterOf]

/-- The first p passes over exact arithmetic leave the partial transform. -/
theorem network_eq_partialDft (hω : ω ^ c.n = 1) (hp : p ≤ c.log2N) (hi : i < c.n) :
    network (fun a b => a + b) (fun j b => b * ω ^ exponent c j) c.n p x i = partialDft c ω x p i := by
  induction p generalizing i with
  | zero => exact (partialDft_zero hi).symm
  | succ p ih => exact (netPass_congr hp (fun j hj => ih (by omega) hj) hi).trans (netPass_partialDft hω hp hi)

end

/-- ω = exp(−2πi/N), as R161 chooses it. -/
noncomputable def unitRoot (c : Config) : ℂ := Complex.exp (-(2 * Real.pi * Complex.I) / c.n)

theorem unitRoot_pow (c : Config) (e : Nat) :
    unitRoot c ^ e = Complex.exp (-(2 * Real.pi * Complex.I) * e / c.n) := by
  rw [unitRoot, ← Complex.exp_nat_mul]
  congr 1
  ring

theorem unitRoot_pow_n (c : Config) : unitRoot c ^ c.n = 1 := by
  have hn : (c.n : ℂ) ≠ 0 := Nat.cast_ne_zero.2 c.n_pos.ne'
  rw [unitRoot_pow, mul_div_cancel_right₀ _ hn, Complex.exp_neg, Complex.exp_two_pi_mul_I, inv_one]

/-- Settles O30: `partialDft` is the input before the first pass and the transform after the last, and every
pass takes it one step further. -/
theorem exactNetworkIsTheDft : Obligations.ExactNetworkIsTheDft := by
  intro c x q hq
  simp only [← unitRoot_pow]
  rw [network_eq_partialDft (unitRoot_pow_n c) le_rfl hq, partialDft_log2N]

end Sys2Proof.Machine

namespace Sys2Proof.Machine

/-! ### The table of cosines (41_transform.md R162)

The table is compared with the powers of one Gaussian integer over a denominator, which lies so near exp(iπ/512)
and so little inside the unit circle that its first 256 powers are near those of exp(iπ/512). The comparison is in
integers and runs once along the table. -/

/-- cos(π/512), in steps of 10⁻¹². -/
def stepRe : Int := 999981175282

/-- sin(π/512), in steps of 10⁻¹². -/
def stepIm : Int := 6135884649

/-- The denominator of a step. -/
def stepDen : Nat := 10 ^ 12

/-- Every entry of a list is within 0.49898 of 127 times the real part of its own power, the powers starting at
(a + bi)/d. -/
def powersFit : List Nat → Int → Int → Nat → Bool
  | [], _, _, _ => true
  | q :: qs, a, b, d =>
    decide ((127 * a - q * d).natAbs * 100000 ≤ 49898 * d) &&
      powersFit qs (a * stepRe - b * stepIm) (a * stepIm + b * stepRe) (d * stepDen)

theorem powersFit_quarterCosine : powersFit quarterCosine 1 0 1 = true := by decide +kernel

/-- The Gaussian integer of one step. -/
noncomputable def stepNum : ℂ := ⟨stepRe, stepIm⟩

/-- One step, a complex number near exp(iπ/512). -/
noncomputable def circleStep : ℂ := stepNum / stepDen

theorem mul_stepNum (a b : Int) :
    (⟨a, b⟩ : ℂ) * stepNum =
      ⟨(a * stepRe - b * stepIm : Int), (a * stepIm + b * stepRe : Int)⟩ := by
  apply Complex.ext <;> simp [stepNum]

theorem powersFit_get {qs : List Nat} {a b : Int} {d : Nat} (h : powersFit qs a b d = true) {k q : Nat}
    (hq : qs[k]? = some q) :
    |127 * ((⟨a, b⟩ : ℂ) * stepNum ^ k).re - q * (d * stepDen ^ k)| * 100000 ≤ 49898 * (d * stepDen ^ k) := by
  induction qs generalizing a b d k with
  | nil => simp at hq
  | cons q' qs ih =>
    simp only [powersFit, Bool.and_eq_true, decide_eq_true_eq] at h
    cases k with
    | zero =>
      obtain rfl : q' = q := by simpa using hq
      have hhead : |127 * (a : ℝ) - q' * d| * 100000 ≤ 49898 * d := by
        have := Nat.cast_le (α := ℝ).2 h.1
        push_cast [Nat.cast_natAbs] at this
        exact this
      simpa using hhead
    | succ k =>
      have htail := ih h.2 (List.getElem?_cons_succ ▸ hq)
      rw [pow_succ', ← mul_assoc, mul_stepNum, pow_succ' (stepDen : ℝ), ← mul_assoc (d : ℝ), ← Nat.cast_mul]
      exact htail

theorem abs_table_sub_circleStep_le {k q : Nat} (hq : quarterCosine[k]? = some q) :
    |127 * (circleStep ^ k).re - q| ≤ 49898 / 100000 := by
  have hd : (0 : ℝ) < stepDen ^ k := by unfold stepDen; positivity
  have hpow : (circleStep ^ k).re = (stepNum ^ k).re / stepDen ^ k := by
    rw [circleStep, div_pow, ← Nat.cast_pow, Complex.div_natCast_re, Nat.cast_pow]
  have h := powersFit_get powersFit_quarterCosine hq
  have hone : (⟨(1 : Int), (0 : Int)⟩ : ℂ) = 1 := by apply Complex.ext <;> simp
  rw [hone, one_mul, Nat.cast_one, one_mul] at h
  have hsub : 127 * (circleStep ^ k).re - q = (127 * (stepNum ^ k).re - q * stepDen ^ k) / stepDen ^ k := by
    rw [hpow]; field_simp
  rw [hsub, abs_div, abs_of_pos hd, div_le_iff₀ hd]
  linarith

/-- Powers of two numbers of the closed unit disc drift apart at most by the distance of one step each time. -/
theorem norm_pow_sub_pow_le {z w : ℂ} (hz : ‖z‖ ≤ 1) (hw : ‖w‖ ≤ 1) (k : Nat) :
    ‖z ^ k - w ^ k‖ ≤ k * ‖z - w‖ := by
  induction k with
  | zero => simp
  | succ k ih =>
    calc ‖z ^ (k + 1) - w ^ (k + 1)‖ = ‖z ^ k * (z - w) + (z ^ k - w ^ k) * w‖ := by congr 1; ring
      _ ≤ ‖z ^ k‖ * ‖z - w‖ + ‖z ^ k - w ^ k‖ * ‖w‖ := by
        rw [← norm_mul, ← norm_mul]; exact norm_add_le ..
      _ ≤ 1 * ‖z - w‖ + k * ‖z - w‖ * 1 := by
        gcongr
        rw [norm_pow]
        exact pow_le_one₀ (norm_nonneg z) hz
      _ = (k + 1 : Nat) * ‖z - w‖ := by push_cast; ring

theorem norm_circleStep_le : ‖circleStep‖ ≤ 1 := by
  refine Real.sqrt_le_one.2 ?_
  rw [Complex.normSq_apply, circleStep, Complex.div_natCast_re, Complex.div_natCast_im]
  norm_num [stepNum, stepRe, stepIm, stepDen]

theorem pi_div_512_pow_bounds (k : Nat) :
    0.00613592315154 ^ k ≤ (Real.pi / 512) ^ k ∧ (Real.pi / 512) ^ k ≤ 0.00613592315155 ^ k := by
  have hlo : 0.00613592315154 ≤ Real.pi / 512 := by linarith [Real.pi_gt_d20]
  have hhi : Real.pi / 512 ≤ 0.00613592315155 := by linarith [Real.pi_lt_d20]
  exact ⟨pow_le_pow_left₀ (by norm_num) hlo k, pow_le_pow_left₀ (by positivity) hhi k⟩

theorem abs_pi_div_512 : |Real.pi / 512| = Real.pi / 512 := abs_of_pos (by positivity)

theorem pi_div_512_le_one : |Real.pi / 512| ≤ 1 := by
  rw [abs_pi_div_512]
  linarith [Real.pi_le_four]

/-- The first terms of the cosine's series place it (with the fourth power as the error). -/
theorem abs_stepRe_sub_cos_le : |stepRe / stepDen - Real.cos (Real.pi / 512)| ≤ 2 / 10 ^ 10 := by
  have hstep : (stepRe / stepDen : ℝ) = 0.999981175282 := by norm_num [stepRe, stepDen]
  have hcos := Real.cos_bound pi_div_512_le_one
  obtain ⟨hlo, hhi⟩ := pi_div_512_pow_bounds 2
  have herr := (pi_div_512_pow_bounds 4).2
  rw [abs_pi_div_512, abs_le] at hcos
  rw [hstep, abs_le]
  constructor <;> linarith

/-- The first terms of the sine's series place it (with the fifth power as the error). -/
theorem abs_stepIm_sub_sin_le : |stepIm / stepDen - Real.sin (Real.pi / 512)| ≤ 1 / 10 ^ 10 := by
  have hstep : (stepIm / stepDen : ℝ) = 0.006135884649 := by norm_num [stepIm, stepDen]
  have hsin := Real.sin_bound pi_div_512_le_one
  obtain ⟨hlo1, hhi1⟩ := pi_div_512_pow_bounds 1
  obtain ⟨hlo3, hhi3⟩ := pi_div_512_pow_bounds 3
  have herr := (pi_div_512_pow_bounds 5).2
  rw [abs_pi_div_512, abs_le] at hsin
  rw [hstep, abs_le]
  constructor <;> linarith

/-- One turn by 2π/1024. -/
noncomputable def circleTurn : ℂ := Complex.exp ((Real.pi / 512 : ℝ) * Complex.I)

theorem circleTurn_pow_re (k : Nat) : (circleTurn ^ k).re = Real.cos (k * (Real.pi / 512)) := by
  rw [circleTurn, ← Complex.exp_nat_mul, ← mul_assoc, ← Complex.ofReal_natCast, ← Complex.ofReal_mul,
    Complex.exp_ofReal_mul_I_re]

theorem norm_circleStep_sub_circleTurn_le : ‖circleStep - circleTurn‖ ≤ 3 / 10 ^ 10 := by
  have hre : (circleStep - circleTurn).re = stepRe / stepDen - Real.cos (Real.pi / 512) := by
    rw [Complex.sub_re, circleStep, Complex.div_natCast_re, circleTurn, Complex.exp_ofReal_mul_I_re]; rfl
  have him : (circleStep - circleTurn).im = stepIm / stepDen - Real.sin (Real.pi / 512) := by
    rw [Complex.sub_im, circleStep, Complex.div_natCast_im, circleTurn, Complex.exp_ofReal_mul_I_im]; rfl
  calc ‖circleStep - circleTurn‖ ≤ |(circleStep - circleTurn).re| + |(circleStep - circleTurn).im| :=
        Complex.norm_le_abs_re_add_abs_im _
    _ ≤ 2 / 10 ^ 10 + 1 / 10 ^ 10 := by
        rw [hre, him]
        exact add_le_add abs_stepRe_sub_cos_le abs_stepIm_sub_sin_le
    _ = 3 / 10 ^ 10 := by norm_num

/-- A real value lies within 0.499 of an integer: its rounding, 0.001 away from every boundary. -/
def Rounds (x : ℝ) (v : Int) : Prop := |x - v| ≤ 499 / 1000

theorem Rounds.neg {x : ℝ} {v : Int} (h : Rounds x v) : Rounds (-x) (-v) := by
  unfold Rounds at h ⊢
  rwa [Int.cast_neg, neg_sub_neg, abs_sub_comm]

theorem Rounds.isRha {x : ℝ} {v : Int} (h : Rounds x v) : IsRha x v := by
  obtain ⟨hlo, hhi⟩ := abs_le.1 h
  exact ⟨fun _ => by constructor <;> linarith, fun _ => by constructor <;> linarith⟩

theorem Rounds.margin {x : ℝ} {v : Int} (h : Rounds x v) (u : Int) : 1 / 1000 ≤ |x - ((u : ℝ) + 1 / 2)| := by
  obtain ⟨hlo, hhi⟩ := abs_le.1 h
  rw [le_abs]
  rcases lt_or_ge u v with huv | huv
  · have : (u : ℝ) + 1 ≤ v := by exact_mod_cast huv
    exact .inl (by linarith)
  · have : (v : ℝ) ≤ u := by exact_mod_cast huv
    exact .inr (by linarith)

theorem length_quarterCosine : quarterCosine.length = 257 := by decide +kernel

/-- The table holds the rounded cosines of the first quarter (R162). -/
theorem rounds_quarterCosine {k : Nat} (hk : k ≤ 256) :
    Rounds (127 * Real.cos (k * (Real.pi / 512))) (quarterCosine.getD k 0 : Nat) := by
  have hlen : k < quarterCosine.length := by rw [length_quarterCosine]; omega
  have htable := abs_table_sub_circleStep_le (List.getElem?_eq_getElem hlen)
  have hdrift : |(circleStep ^ k).re - Real.cos (k * (Real.pi / 512))| ≤ 256 * (3 / 10 ^ 10) := by
    rw [← circleTurn_pow_re, ← Complex.sub_re]
    calc |(circleStep ^ k - circleTurn ^ k).re| ≤ ‖circleStep ^ k - circleTurn ^ k‖ := Complex.abs_re_le_norm _
      _ ≤ k * ‖circleStep - circleTurn‖ :=
        norm_pow_sub_pow_le norm_circleStep_le (Complex.norm_exp_ofReal_mul_I _).le k
      _ ≤ 256 * (3 / 10 ^ 10) := by
        gcongr
        · exact_mod_cast hk
        · exact norm_circleStep_sub_circleTurn_le
  unfold Rounds
  rw [List.getD_eq_getElem _ _ hlen, Int.cast_natCast]
  rw [abs_le] at htable hdrift ⊢
  constructor <;> linarith

theorem rounds_cos127 {k : Nat} (hk : k ≤ 512) :
    Rounds (127 * Real.cos (k * (Real.pi / 512))) (cos127 k) := by
  unfold cos127
  split
  · exact rounds_quarterCosine ‹_›
  · have hangle : (k : ℝ) * (Real.pi / 512) = Real.pi - (512 - k : Nat) * (Real.pi / 512) := by
      rw [Nat.cast_sub hk]; push_cast; ring
    rw [hangle, Real.cos_pi_sub, mul_neg]
    exact (rounds_quarterCosine (by omega)).neg

theorem rounds_sin127 {k : Nat} (hk : k ≤ 512) :
    Rounds (127 * Real.sin (k * (Real.pi / 512))) (sin127 k) := by
  unfold sin127
  split
  · have hangle : (256 - k : Nat) * (Real.pi / 512) = Real.pi / 2 - k * (Real.pi / 512) := by
      rw [Nat.cast_sub ‹_›]; push_cast; ring
    rw [← Real.cos_pi_div_two_sub, ← hangle]
    exact rounds_quarterCosine (by omega)
  · have hangle : (k - 256 : Nat) * (Real.pi / 512) = k * (Real.pi / 512) - Real.pi / 2 := by
      rw [Nat.cast_sub (by omega)]; push_cast; ring
    rw [← Real.cos_sub_pi_div_two, ← hangle]
    exact rounds_quarterCosine (by omega)

/-! ### The entries of TW (41_transform.md R162) -/

/-- N divides 1024, so the angle 2πe/N is a whole number of steps. -/
theorem angle_eq (c : Config) (i : Nat) :
    2 * Real.pi * exponent c i / c.n = angleSteps c i * (Real.pi / 512) := by
  have hdvd : c.n ∣ 1024 := pow_dvd_pow 2 c.log2N_range.2
  have hn : (c.n : ℝ) ≠ 0 := Nat.cast_ne_zero.2 c.n_pos.ne'
  rw [angleSteps, Nat.cast_mul, Nat.cast_div hdvd hn]
  push_cast
  field_simp
  ring

section
variable {c : Config} {i : Nat} (hi : i < c.half)
include hi

theorem toInt_tw_of_lt :
    (tw c i).re.toInt = cos127 (angleSteps c i) ∧ (tw c i).im.toInt = -sin127 (angleSteps c i) := by
  rw [tw, if_pos hi, twFirst]
  exact ⟨toInt_wrap8_of_abs_le (abs_cos127_le _),
    toInt_wrap8_of_abs_le ((abs_neg _).trans_le (abs_sin127_le _))⟩

theorem angleSteps_le : angleSteps c i ≤ 512 := by
  have hturn : 2 * (c.half * (1024 / c.n)) ≤ 1024 := by
    rw [← Nat.mul_assoc, c.two_half]
    exact Nat.mul_div_le ..
  calc angleSteps c i ≤ c.half * (1024 / c.n) := Nat.mul_le_mul_right _ (exponent_lt_half hi).le
    _ ≤ 512 := by omega

theorem rounds_tw :
    Rounds (127 * Real.cos (2 * Real.pi * exponent c i / c.n)) (tw c i).re.toInt ∧
    Rounds (127 * Real.sin (2 * Real.pi * exponent c i / c.n)) (-(tw c i).im.toInt) := by
  obtain ⟨hre, him⟩ := toInt_tw_of_lt hi
  rw [angle_eq, hre, him, neg_neg]
  exact ⟨rounds_cos127 (angleSteps_le hi), rounds_sin127 (angleSteps_le hi)⟩

end

/-- Settles O21: the table entries are the roundings of a circle walked in 1/1024 turns, and the second half of
TW negates the first without −128. -/
theorem twIsTheRoundedCircle : Obligations.TwIsTheRoundedCircle := by
  intro c i
  refine ⟨fun hi => ?_, fun hle hi => ?_, fun _ => ?_⟩
  · obtain ⟨hcos, hsin⟩ := rounds_tw hi
    refine ⟨hcos.isRha, ?_, hcos.margin, hsin.margin⟩
    have hneg := hsin.neg
    rw [neg_neg, ← neg_mul] at hneg
    exact hneg.isRha
  · obtain ⟨j, rfl⟩ := Nat.exists_eq_add_of_le' hle
    rw [Nat.add_sub_cancel]
    exact toInt_tw_add_half (by have := c.two_half; omega)
  · obtain ⟨hre, him⟩ := abs_tw_le c i
    exact ⟨(abs_le.1 hre).1, (abs_le.1 hre).2, abs_le.1 him⟩

end Sys2Proof.Machine

namespace Sys2Proof.Machine

/-! ### Magnitude and logarithm of an element (42_matcher.md R200 to R202) -/

theorem toInt_mul_self_le (b : Byte) : b.toInt * b.toInt ≤ 16384 := by
  have hb : |b.toInt| ≤ 128 := abs_le.2 ⟨b.le_toInt, b.toInt_lt.le⟩
  calc b.toInt * b.toInt = |b.toInt| * |b.toInt| := (abs_mul_abs_self _).symm
    _ ≤ 128 * 128 := by gcongr

/-- Settles O32: each square is at most 128², so their sum fits in 16 unsigned bits and narrowing it keeps it. -/
theorem mag2IsExact : Obligations.Mag2IsExact := by
  intro z
  have hle := add_le_add (toInt_mul_self_le z.re) (toInt_mul_self_le z.im)
  have hnonneg := add_nonneg (mul_self_nonneg z.re.toInt) (mul_self_nonneg z.im.toInt)
  have hexact : ((mag2 z).toNat : Int) = z.re.toInt * z.re.toInt + z.im.toInt * z.im.toInt := by
    rw [mag2, BitVec.toNat_ofInt]
    omega
  exact ⟨hexact, by omega⟩

/-- The boundaries of R201 are the powers of 10 up to the largest below 2^16; the sentinel is that of
`Nat.log` too. -/
theorem toNat_ilog10 (m : BitVec 16) : (ilog10 m).toNat = Nat.log 10 m.toNat := by
  have hm := m.isLt
  unfold ilog10
  symm
  split_ifs with h1 h2 h3 h4
  · exact Nat.log_of_lt h1
  · exact Nat.log_eq_of_pow_le_of_lt_pow (m := 1) (by omega) (by omega)
  · exact Nat.log_eq_of_pow_le_of_lt_pow (m := 2) (by omega) (by omega)
  · exact Nat.log_eq_of_pow_le_of_lt_pow (m := 3) (by omega) (by omega)
  · exact Nat.log_eq_of_pow_le_of_lt_pow (m := 4) (by omega) (by omega)

/-- Settles O33: ILOG10 is the library's floor of the logarithm, and a 16-bit number is below 10^5. -/
theorem ilog10IsTheFloorOfTheLogarithm : Obligations.Ilog10IsTheFloorOfTheLogarithm := by
  refine ⟨rfl, fun m hm => ?_⟩
  rw [toNat_ilog10]
  have hlt : m.toNat < 10 ^ 5 := m.isLt.trans (by decide)
  exact ⟨Nat.pow_log_le_self 10 (by omega), fun t ht => Nat.le_log_of_pow_le (by decide) ht,
    Nat.le_of_lt_succ (Nat.log_lt_of_lt_pow (by omega) hlt)⟩

/-- Settles O34: the three ends of `readFull`. -/
theorem logmagReturnsTheLogarithm : Obligations.LogmagReturnsTheLogarithm := by
  intro idx s
  rw [exec_matchLogmag]
  refine ⟨fun h => ?_, fun h hf => ?_, fun z h hf hz => ?_⟩
  · rw [readFull_of_le h]; rfl
  · rw [readFull_of_not_full h hf]; rfl
  · rw [readFull_of_some h hf hz]; rfl

/-! ### The accumulated error (42_matcher.md R204, R205, R208) -/

theorem opMatchError_of_not_full {s : State} (hf : s.full = false) :
    opMatchError s = .error (.raise .notFull) := by
  simp [opMatchError, hf]

theorem opMatchError_of_allWritten {s : State} (hf : s.full = true) (hall : s.AllWritten) :
    opMatchError s = .ok ⟨BitVec.ofNat 32 (errorSum s), s.cfg.n⟩ := by
  rcases opMatchError_cases s with ⟨hf', _⟩ | ⟨_, _, h⟩ | ⟨_, _, _, i, hi, hnone, _⟩
  · rw [hf] at hf'; cases hf'
  · exact h
  · have hsome := hall i hi
    rw [hnone] at hsome
    cases hsome

theorem errorSum_le (s : State) : errorSum s ≤ 255 * s.cfg.n := by
  have hle : ∀ d ∈ (List.range s.cfg.n).map (distanceAt s), d ≤ 255 := by
    intro d hd
    obtain ⟨i, -, rfl⟩ := List.mem_map.1 hd
    exact absDiff_le ..
  calc errorSum s ≤ ((List.range s.cfg.n).map (distanceAt s)).length • 255 := List.sum_le_card_nsmul _ _ hle
    _ = 255 * s.cfg.n := by rw [List.length_map, List.length_range, smul_eq_mul, Nat.mul_comm]

/-- The accumulator of R44 does not wrap. -/
theorem toNat_ofNat_errorSum (s : State) : (BitVec.ofNat 32 (errorSum s)).toNat = errorSum s := by
  have hle := errorSum_le s
  have hn := s.cfg.n_le
  rw [BitVec.toNat_ofNat, Nat.mod_eq_of_lt (by omega)]

theorem exec_matchError_of_allWritten {s : State} (hf : s.full = true) (hall : s.AllWritten) :
    exec .matchError s = .next { s with result := some (.error (BitVec.ofNat 32 (errorSum s))) } := by
  rw [exec_matchError, opMatchError_of_allWritten hf hall]
  rfl

theorem matchResult_errorSum (s : State) :
    matchResult s.cfg (BitVec.ofNat 32 (errorSum s)) = if errorSum s < s.cfg.threshold.toNat then 1 else 0 := by
  rw [matchResult, flagBit_eq_ite, toNat_ofNat_errorSum]
  simp only [decide_eq_true_eq]

theorem exec_matchIsmatch_of_allWritten {s : State} (hf : s.full = true) (hall : s.AllWritten) :
    exec .matchIsmatch s = .next { s with
      result := some (.isMatch (if errorSum s < s.cfg.threshold.toNat then 1 else 0)) } := by
  rw [exec_matchIsmatch, opMatchError_of_allWritten hf hall, ← matchResult_errorSum]
  rfl

/-- Settles O35: N distances of at most 255 do not wrap the accumulator. -/
theorem matchSumsAndCompares : Obligations.MatchSumsAndCompares := by
  intro s
  refine ⟨fun hf => ?_, fun hf hall => ?_⟩
  · rw [exec_matchError, exec_matchIsmatch, opMatchError_of_not_full hf]
    exact ⟨rfl, rfl⟩
  · exact ⟨errorSum_le s, ⟨_, exec_matchError_of_allWritten hf hall, toNat_ofNat_errorSum s⟩,
      exec_matchIsmatch_of_allWritten hf hall⟩

theorem absDiff_self (x : BitVec 8) : absDiff x x = 0 := by
  rw [absDiff, Int.sub_self, Int.natAbs_zero]

theorem errorSum_eq_zero {s : State} (hkey : ∀ i, i < s.cfg.n → keyEntry s.cfg i = logMag (s.elem i)) :
    errorSum s = 0 := by
  refine List.sum_eq_zero fun d hd => ?_
  obtain ⟨i, hi, rfl⟩ := List.mem_map.1 hd
  rw [hkey i (List.mem_range.1 hi), absDiff_self]

/-- Settles O36: every distance is that of a logarithm to itself. -/
theorem selfMatchHasZeroError : Obligations.SelfMatchHasZeroError := by
  intro s hf hall hkey
  have hzero : errorSum s = 0 := errorSum_eq_zero hkey
  rw [exec_matchError_of_allWritten hf hall, exec_matchIsmatch_of_allWritten hf hall, hzero]
  exact ⟨rfl, fun hth => by rw [if_pos (Nat.succ_le_iff.1 hth)]⟩

end Sys2Proof.Machine

namespace Sys2Proof.Machine

/-! ### FSM.TICK, state by state (43_control.md R231 to R234, R239) -/

section
variable {s : State}

theorem opFsmTick_of_init (hs : s.fsm = .stateInit) : opFsmTick s = .ok (tickInit s) := by
  simp only [opFsmTick, hs]

theorem opFsmTick_of_analyze (hs : s.fsm = .stateAnalyze) : opFsmTick s = tickAnalyze s := by
  simp only [opFsmTick, hs]

theorem opFsmTick_of_open (hs : s.fsm = .stateOpen) : opFsmTick s = .ok (tickOpen s) := by
  simp only [opFsmTick, hs]

theorem opFsmTick_of_reset (hs : s.fsm = .stateReset) : opFsmTick s = tickReset s := by
  simp only [opFsmTick, hs]

theorem exec_fsmTick_of_init_full (hs : s.fsm = .stateInit) (hf : s.full = true) :
    exec .fsmTick s = .next { s with
      fsm := if s.poll.1 = 1 then .stateAnalyze else .stateReset
      out := s.out ++ [.proxPoll s.poll.1]
      answers := s.poll.2.answers
      draws := s.poll.2.draws
      result := none } := by
  rw [exec_fsmTick, opFsmTick_of_init hs]
  rcases tickInit_cases s with ⟨hf', _⟩ | ⟨_, h⟩
  · rw [hf] at hf'; cases hf'
  · rw [h]; rfl

theorem exec_fsmTick_of_init_not_full (hs : s.fsm = .stateInit) (hf : s.full = false) :
    exec .fsmTick s = .next { s with result := none } := by
  rw [exec_fsmTick, opFsmTick_of_init hs]
  rcases tickInit_cases s with ⟨_, h⟩ | ⟨hf', _⟩
  · rw [h]; rfl
  · rw [hf] at hf'; cases hf'

/-- The Reset tick in either mode: it starts again exactly in FREE_RUNNING mode. -/
theorem exec_fsmTick_of_reset (hs : s.fsm = .stateReset) (ha : s.armed = false) :
    exec .fsmTick s = .next { s with
      out := s.out ++ [.actClose]
      cursor := 0
      full := false
      collecting := decide (s.cfg.acqMode = .freeRunning)
      armed := decide (s.cfg.acqMode = .freeRunning)
      fsm := .stateInit
      result := none } := by
  rw [exec_fsmTick, opFsmTick_of_reset hs]
  rcases tickReset_cases s with ⟨ha', _⟩ | ⟨_, h⟩
  · rw [ha] at ha'; cases ha'
  · rw [h]; rfl

theorem exec_fsmTick_of_reset_armed (hs : s.fsm = .stateReset) (ha : s.armed = true) :
    exec .fsmTick s = .next (s.raise .resetArmed) := by
  rw [exec_fsmTick, opFsmTick_of_reset hs]
  rcases tickReset_cases s with ⟨_, h⟩ | ⟨ha', _⟩
  · rw [h]; rfl
  · rw [ha] at ha'; cases ha'

end

/-- Settles O38: the two ends of the Init tick. -/
theorem initTickPollsOnlyWhenFull : Obligations.InitTickPollsOnlyWhenFull :=
  fun _ hs => ⟨exec_fsmTick_of_init_not_full hs, exec_fsmTick_of_init_full hs⟩

/-- Settles O40: the poll of an Open tick draws what it would have drawn before ACT.OPEN. -/
theorem openTickOpensThenPolls : Obligations.OpenTickOpensThenPolls := by
  intro s hs
  obtain ⟨hanswer, hanswers, hdraws⟩ := draw_emit (s := s) .actOpen
  rw [exec_fsmTick, opFsmTick_of_open hs, tickOpen, openPoll_frame, hanswer, hanswers, hdraws]
  simp only [State.emit_fsm, State.emit_out, List.append_assoc, hs]
  rfl

/-- Settles O41: the Reset tick, its mode decided. -/
theorem resetTickClosesAndClears : Obligations.ResetTickClosesAndClears := by
  refine fun s hs => ⟨exec_fsmTick_of_reset_armed hs, fun ha hm => ?_, fun ha hm => ?_⟩
  · simp [exec_fsmTick_of_reset hs ha, hm, ha]
  · simp [exec_fsmTick_of_reset hs ha, hm]

/-- Settles O42: the answer 0 sends the Init tick to Reset, and ARMED is still 0 there. -/
theorem nobodyNearReturnsToInitInTwoTicks : Obligations.NobodyNearReturnsToInitInTwoTicks := by
  intro s hs hf ha hnb
  rw [execAll, exec_fsmTick_of_init_full hs hf, hnb]
  dsimp only
  rw [execAll, exec_fsmTick_of_reset]
  · exact ⟨_, rfl, rfl, rfl, rfl, rfl, List.append_assoc ..⟩
  · rfl
  · exact ha

/-! ### The Analyze tick (R232) -/

/-- The Analyze tick after its transform: match, then write STATE. -/
def analyzeEnd (t : State) : Except Stop State :=
  opMatchError t >>= fun r => .ok { t with fsm := afterMatch (matchResult t.cfg r.err) }

theorem tickAnalyze_of_full {s : State} (hf : s.full = true) :
    tickAnalyze s = opFftTransform s >>= analyzeEnd := by
  simp only [tickAnalyze, hf]
  rfl

theorem tickAnalyze_of_not_full {s : State} (hf : s.full = false) :
    tickAnalyze s = .error (.raise .notFull) := by
  simp [tickAnalyze, hf]

theorem analyzeEnd_of_allWritten {t : State} (hf : t.full = true) (hall : t.AllWritten) :
    analyzeEnd t = .ok { t with
      fsm := if errorSum t < t.cfg.threshold.toNat then .stateOpen else .stateReset } := by
  rw [analyzeEnd, opMatchError_of_allWritten hf hall, ok_bind, matchResult_errorSum]
  split <;> rfl

/-- Settles O39: the transform leaves the network, and its elements hold values for the match. -/
theorem analyzeTickTransformsAndMatches : Obligations.AnalyzeTickTransformsAndMatches := by
  intro s hs
  rw [exec_fsmTick, opFsmTick_of_analyze hs]
  refine ⟨fun hf => ?_, fun hf hall => ?_⟩
  · rw [tickAnalyze_of_not_full hf]; rfl
  · obtain ⟨t, ht, hw, he⟩ := forEach_opFftPass_completes hf hall le_rfl
    rw [tickAnalyze_of_full hf, opFftTransform_eq_forEach hf, ht, ok_bind,
      analyzeEnd_of_allWritten (hw.full.trans hf) (hall.writesBuf hw), hw.cfg]
    refine ⟨_, rfl, ?_, he, hw.above⟩
    conv_lhs => rw [hw.frame]
    rfl

/-! ### The frame of a tick (R231 to R234, R239) -/

/-- The ticks that poll the sensor, of Init and Open, raise no fault (60_exceptions.md R284). -/
theorem canFault_tick_of_polling {f : FsmState} (hf : f = .stateInit ∨ f = .stateOpen) (c : FaultCode) :
    canFault f .fsmTick c = false := by
  rcases hf with rfl | rfl <;> cases c <;> rfl

section
variable {s t : State}

theorem Effect.polling_tick_frame (h : Effect .fsmTick s t) (hs : s.fsm = .stateInit ∨ s.fsm = .stateOpen) :
    t = { s with fsm := t.fsm, out := t.out, answers := t.answers, draws := t.draws, result := none } := by
  cases h with
  | spin | initTick | openTick => rfl
  | fault hc => cases (canFault_tick_of_polling hs _).symm.trans hc
  | analyzeTick _ hs' | resetTick hs' => simp [hs'] at hs
  | started hi => simp at hi
  | query _ hq | transformed hq => cases hq

theorem Effect.analyzeTick_frame (h : Effect .fsmTick s t) (hs : s.fsm = .stateAnalyze) :
    t = { s with fsm := t.fsm, buf := t.buf, fault := t.fault, result := none } ∧
    ∀ a : Nat, 2 * s.cfg.n ≤ a → t.buf.read a = s.buf.read a := by
  cases h with
  | fault => exact ⟨rfl, fun _ _ => rfl⟩
  | analyzeTick _ _ _ hw => exact ⟨rfl, hw.above⟩
  | spin hs' | initTick hs' | openTick hs' | resetTick hs' => simp [hs'] at hs
  | started hi => simp at hi
  | query _ hq | transformed hq => cases hq

theorem Effect.resetTick_frame (h : Effect .fsmTick s t) (hs : s.fsm = .stateReset) :
    t = { s with fsm := t.fsm, out := t.out, cursor := t.cursor, full := t.full,
                 collecting := t.collecting, armed := t.armed, fault := t.fault, result := none } ∧
    (s.cfg.acqMode = .triggered → t.armed = s.armed) := by
  cases h with
  | fault => exact ⟨rfl, fun _ => rfl⟩
  | resetTick _ ha => exact ⟨rfl, fun hm => by simp [hm, ha]⟩
  | spin hs' | initTick hs' | analyzeTick _ hs' | openTick hs' => simp [hs'] at hs
  | started hi => simp at hi
  | query _ hq | transformed hq => cases hq

end

/-- Settles O52: what `Effect` lists for a tick, state by state. -/
theorem ticksKeepTheRest : Obligations.TicksKeepTheRest := by
  intro s t h
  have heffect := Effect.of_tick h
  exact ⟨heffect.polling_tick_frame, heffect.analyzeTick_frame, heffect.resetTick_frame⟩

/-! ### Handlers between the sub-steps of a tick (R236) -/

/-- Outside its idle position a tick is one of a state other than Init. -/
theorem TickPhase.fsm_ne_init {c : Config} {f : FsmState} {ph : TickPhase} (hok : ph.ok c f = true)
    (hp : ph ≠ .idle) : f ≠ .stateInit := by
  rintro rfl
  cases ph with
  | idle => exact hp rfl
  | _ => cases hok

theorem full_of_tick_in_flight {s : State} (hi : s.Inv) (hr : s.RunInv) (hp : s.phase ≠ .idle)
    (hp' : s.phase ≠ .resetStart ∧ s.phase ≠ .resetWrite) : s.full = true :=
  hr.full_of_fsm (TickPhase.fsm_ne_init (s.inv_iff.1 hi).2 hp) hp'

/-- Settles O44: FULL and COLLECTING are set, so a sample is late and a trigger ignored. -/
theorem handlersBeforeAcqResetChangeNothing : Obligations.HandlersBeforeAcqResetChangeNothing := by
  intro s i hi hr ha hp hstart hwrite
  have hf := full_of_tick_in_flight hi hr hp ⟨hstart, hwrite⟩
  cases i with
  | acqSample v8 => exact exec_acqSample_of_full v8 hf
  | acqTrigger => exact exec_acqTrigger_of_collecting (hr.1 hf)
  | _ => cases ha

/-- The state with another STATE and tick position, and no value returned: what a sub-step that writes nothing
else leaves. -/
def State.atPosition (s : State) (f : FsmState) (ph : TickPhase) : State :=
  { s with fsm := f, phase := ph, result := none }

theorem State.sampled_atPosition (s : State) (v8 : BitVec 8) (f : FsmState) (ph : TickPhase) :
    (s.atPosition f ph).sampled v8 = (s.sampled v8).atPosition f ph := by
  unfold State.sampled
  rw [finishSample_frame, finishSample_frame]
  rfl

/-- A handler reads and writes neither STATE nor the tick's position, and returns nothing. -/
theorem exec_handler_atPosition {i : Instr} {s t : State} (ha : handlerAdmitted i s = true)
    (h : exec i s = .next t) (f : FsmState) (ph : TickPhase) :
    exec i (s.atPosition f ph) = .next (t.atPosition f ph) := by
  cases i with
  | acqSample v8 =>
    rcases opAcqSample_cases v8 s with ⟨hf, hop⟩ | ⟨hf, hc, hop⟩ | ⟨_, _, hop⟩ <;>
      rw [exec_acqSample, hop] at h <;> cases h
    · exact exec_acqSample_of_full v8 hf
    · rw [exec_acqSample_of_lt v8 (s := s.atPosition f ph) hf hc, State.sampled_atPosition]
      rfl
  | acqTrigger =>
    rcases opAcqTrigger_cases s with ⟨hm, hc, hop⟩ | ⟨hm | hc, hop⟩ <;>
      rw [exec_acqTrigger, hop] at h <;> cases h
    · exact exec_acqTrigger_of_triggered hm hc
    · exact exec_acqTrigger_of_freeRunning hm
    · exact exec_acqTrigger_of_collecting hc
  | _ => cases ha

theorem handler_keeps_phase {i : Instr} {s t : State} (ha : handlerAdmitted i s = true)
    (h : exec i s = .next t) : t.phase = s.phase := by
  by_contra hne
  cases (Effect.of_exec h).of_phase_ne hne
  cases ha

theorem execSubstep_of_resetWrite {s : State} (hp : s.phase = .resetWrite) :
    execSubstep s = .next (s.atPosition .stateInit .idle) := by
  simp only [execSubstep, opSubstep, hp]
  rfl

/-- Before ACQ.START of a Reset tick ARMED and FULL are 0, and FREE_RUNNING mode has no trigger. -/
theorem handlerAdmitted_of_resetStart {s : State} (hi : s.Inv) (hr : s.RunInv) (hp : s.phase = .resetStart)
    (i : Instr) : handlerAdmitted i s = false := by
  obtain ⟨hfull, -, hstart⟩ := hr
  obtain ⟨-, -, -, -, harmed, -⟩ := hi
  obtain ⟨hm, hc⟩ := hstart hp
  cases i with
  | acqSample v8 =>
    have hf : s.full = false := by simpa [hc] using hfull
    have ha : s.armed = false := by simpa [hc] using harmed
    simp only [handlerAdmitted, hf, ha, Bool.or_self]
  | acqTrigger => simp [handlerAdmitted, hm]
  | _ => rfl

/-- Settles O45: the STATE write moves the state to its position after the tick, where the handler does the
same. -/
theorem handlersAfterAcqResetMoveBehindTheTick : Obligations.HandlersAfterAcqResetMoveBehindTheTick :=
  ⟨fun _ _ _ hp ha h => ⟨_, _, execSubstep_of_resetWrite hp, rfl,
    execSubstep_of_resetWrite ((handler_keeps_phase ha h).trans hp), exec_handler_atPosition ha h _ _⟩,
   fun _ i hi hr hp => handlerAdmitted_of_resetStart hi hr hp i⟩

/-- A Reset tick of the smallest TRIGGERED configuration, after N samples of 0 and a poll with nobody near: ACT.CLOSE is
emitted and ACQ.RESET is next. -/
def closedBeforeAcqReset : State :=
  { State.resetOf ⟨1, by decide, .triggered, 0, #v[0, 0]⟩ with
    fsm := .stateReset
    full := true
    collecting := true
    cursor := 2
    buf := [(0, 0), (1, 0), (2, 0), (3, 0)]
    phase := .resetAcq
    out := [.proxPoll 0, .actClose] }

theorem closedBeforeAcqReset_inv : closedBeforeAcqReset.Inv ∧ closedBeforeAcqReset.RunInv := by decide

/-- The state after the tick that `closedBeforeAcqReset` stands in. -/
def idleAfterTick : State :=
  { closedBeforeAcqReset with
    fsm := .stateInit, full := false, collecting := false, cursor := 0, phase := .idle }

/-- Refutes O46: before ACQ.RESET a trigger is ignored, and the tick ends with COLLECTING = 0; right after the
tick the same trigger sets COLLECTING. -/
theorem not_everyHandlerMovesBehindTheTick : ¬ Obligations.EveryHandlerMovesBehindTheTick := by
  intro h
  obtain ⟨hi, hr⟩ := closedBeforeAcqReset_inv
  have htrigger : exec .acqTrigger closedBeforeAcqReset = .next closedBeforeAcqReset := rfl
  have htick : fineTick closedBeforeAcqReset = .next idleAfterTick := rfl
  have hmoved : exec .acqTrigger idleAfterTick = .next idleAfterTick :=
    h _ _ _ _ .acqTrigger hi hr (by decide) rfl htrigger htick htick
  have hcollecting := collecting_after_trigger rfl hmoved
  cases hcollecting

end Sys2Proof.Machine

namespace Sys2Proof.Machine

/-! ### The positions of a transform in their order (10_state.md R43, 43_control.md R237)

Two facts about the list `transformPositions` carry O43: the `next` of each position is the one listed after it,
and the butterflies at the listed positions, in order, are FFT.TRANSFORM. -/

/-- Element t of the upper half of cluster q in pass p, as a position. -/
def positionAt (c : Config) (p q t : Nat) : Progress :=
  ⟨p, c.stride p, q * (2 * c.stride p), q, q * (2 * c.stride p) + t⟩

/-- The positions of cluster q in pass p. -/
def clusterPositions (c : Config) (p q : Nat) : List Progress :=
  (List.range (c.stride p)).map (positionAt c p q)

/-- The positions of pass p, cluster after cluster (41_transform.md R167). -/
def passPositions (c : Config) (p : Nat) : List Progress :=
  (List.range (2 ^ p)).flatMap (clusterPositions c p)

/-- The positions of a transform, pass after pass (R168). -/
def transformPositions (c : Config) : List Progress := (List.range c.log2N).flatMap (passPositions c)

/-- The positions stand in the order of the loop of R168, and the last one is the last of the loop. -/
def InLoopOrder (c : Config) (gs : List Progress) : Prop :=
  gs.IsChain (fun g g' => g.next c = some g') ∧ ∀ g ∈ gs.getLast?, g.next c = none

theorem InLoopOrder.of_cons {c : Config} {g : Progress} {gs : List Progress} (h : InLoopOrder c (g :: gs)) :
    g.next c = gs.head? ∧ InLoopOrder c gs := by
  obtain ⟨hchain, hlast⟩ := h
  cases gs with
  | nil => exact ⟨hlast g rfl, .nil, by simp⟩
  | cons g' gs =>
    obtain ⟨hnext, hchain⟩ := List.isChain_cons_cons.1 hchain
    exact ⟨hnext, hchain, fun l hl => hlast l (by rwa [List.getLast?_cons_cons])⟩

section
variable {c : Config} {p q t : Nat}

theorem next_in_cluster (h : t + 1 < c.stride p) :
    (positionAt c p q t).next c = some (positionAt c p q (t + 1)) := by
  have hin : (positionAt c p q t).k + 1 < (positionAt c p q t).j + (positionAt c p q t).stride := by
    simp only [positionAt]
    omega
  rw [Progress.next, if_pos hin]
  rfl

theorem last_of_cluster (hp : p < c.log2N) : ¬ (positionAt c p q (c.stride p - 1)).k + 1 <
    (positionAt c p q (c.stride p - 1)).j + (positionAt c p q (c.stride p - 1)).stride := by
  have hs := c.stride_pos p hp
  simp only [positionAt]
  omega

theorem positionAt_next_offset : (positionAt c p q t).j + 2 * (positionAt c p q t).stride =
    (q + 1) * (2 * c.stride p) := (Nat.succ_mul ..).symm

/-- After the last element of a cluster comes the next cluster of the pass. -/
theorem next_cluster (hp : p < c.log2N) (h : q + 1 < 2 ^ p) :
    (positionAt c p q (c.stride p - 1)).next c = some (positionAt c p (q + 1) 0) := by
  have hs := c.stride_pos p hp
  have hin : (q + 1) * (2 * c.stride p) < c.n := by
    rw [← c.clusters_eq p hp]
    exact Nat.mul_lt_mul_of_pos_right h (by omega)
  rw [Progress.next, if_neg (last_of_cluster hp), positionAt_next_offset, if_pos hin]
  rfl

/-- After the last element of a pass comes the first of the next pass, if there is one. -/
theorem next_pass (hp : p < c.log2N) : (positionAt c p (2 ^ p - 1) (c.stride p - 1)).next c =
    if p + 1 < c.log2N then some (positionAt c (p + 1) 0 0) else none := by
  have hout : ¬ (2 ^ p - 1 + 1) * (2 * c.stride p) < c.n := by
    rw [Nat.sub_add_cancel Nat.one_le_two_pow, c.clusters_eq p hp]
    exact Nat.lt_irrefl _
  rw [Progress.next, if_neg (last_of_cluster hp), positionAt_next_offset, if_neg hout]
  simp only [positionAt, c.stride_succ, Nat.zero_mul, Nat.add_zero]
  rfl

theorem clusterPositions_head? (hp : p < c.log2N) :
    (clusterPositions c p q).head? = some (positionAt c p q 0) := by
  have hs := c.stride_pos p hp
  rw [clusterPositions, List.head?_map, List.head?_range, if_neg hs.ne']
  rfl

theorem clusterPositions_getLast? (hp : p < c.log2N) :
    (clusterPositions c p q).getLast? = some (positionAt c p q (c.stride p - 1)) := by
  have hs := c.stride_pos p hp
  rw [clusterPositions, List.getLast?_map, List.getLast?_range, if_neg hs.ne']
  rfl

theorem passPositions_head? (hp : p < c.log2N) : (passPositions c p).head? = some (positionAt c p 0 0) := by
  obtain ⟨m, hm⟩ := Nat.exists_eq_succ_of_ne_zero (Nat.two_pow_pos p).ne'
  rw [passPositions, hm, List.range_succ_eq_map, List.flatMap_cons, List.head?_append,
    clusterPositions_head? hp]
  rfl

theorem passPositions_getLast? (hp : p < c.log2N) :
    (passPositions c p).getLast? = some (positionAt c p (2 ^ p - 1) (c.stride p - 1)) := by
  obtain ⟨m, hm⟩ := Nat.exists_eq_succ_of_ne_zero (Nat.two_pow_pos p).ne'
  simp [passPositions, hm, List.range_succ, clusterPositions_getLast? hp]

theorem transformPositions_head? (c : Config) : (transformPositions c).head? = some (Progress.first c) := by
  have hL := c.log2N_range.1
  obtain ⟨m, hm⟩ := Nat.exists_eq_succ_of_ne_zero (Nat.one_le_iff_ne_zero.1 hL)
  rw [transformPositions, hm, List.range_succ_eq_map, List.flatMap_cons, List.head?_append,
    passPositions_head? hL, positionAt, c.stride_zero, Nat.zero_mul]
  rfl

theorem isChain_passPositions (hp : p < c.log2N) :
    (passPositions c p).IsChain (fun g g' => g.next c = some g') := by
  rw [passPositions, List.flatMap_def, List.isChain_flatten, List.isChain_map, List.isChain_range]
  · refine ⟨fun l hl => ?_, fun q hq => ?_⟩
    · obtain ⟨q, -, rfl⟩ := List.mem_map.1 hl
      rw [clusterPositions, List.isChain_map, List.isChain_range]
      exact fun t ht => next_in_cluster (by omega)
    · rw [clusterPositions_getLast? hp, clusterPositions_head? hp]
      rintro _ ⟨⟩ _ ⟨⟩
      exact next_cluster hp (by omega)
  · intro h
    obtain ⟨q, -, hq⟩ := List.mem_map.1 h
    cases hq ▸ clusterPositions_head? (q := q) hp

theorem inLoopOrder_transformPositions (c : Config) : InLoopOrder c (transformPositions c) := by
  have hL := c.log2N_range.1
  constructor
  · rw [transformPositions, List.flatMap_def, List.isChain_flatten, List.isChain_map, List.isChain_range]
    · refine ⟨fun l hl => ?_, fun p hp => ?_⟩
      · obtain ⟨p, hp, rfl⟩ := List.mem_map.1 hl
        exact isChain_passPositions (List.mem_range.1 hp)
      · rw [passPositions_getLast? (by omega), passPositions_head? (by omega)]
        rintro _ ⟨⟩ _ ⟨⟩
        exact (next_pass (by omega)).trans (if_pos (by omega))
    · intro h
      obtain ⟨p, hp, hnil⟩ := List.mem_map.1 h
      cases hnil ▸ passPositions_head? (List.mem_range.1 hp)
  · obtain ⟨m, hm⟩ := Nat.exists_eq_succ_of_ne_zero (Nat.one_le_iff_ne_zero.1 hL)
    have hlast : (transformPositions c).getLast? = some (positionAt c m (2 ^ m - 1) (c.stride m - 1)) := by
      simp [transformPositions, hm, List.range_succ, passPositions_getLast? (show m < c.log2N by omega)]
    rw [hlast]
    rintro _ ⟨⟩
    exact (next_pass (by omega)).trans (if_neg (by omega))

/-- A transform has H·L butterflies (R236). -/
theorem length_transformPositions (c : Config) : (transformPositions c).length = c.half * c.log2N := by
  have hpass : ∀ p ∈ List.range c.log2N, (passPositions c p).length = c.half := by
    intro p hp
    have hn := c.clusters_eq p (List.mem_range.1 hp)
    have hh := c.two_half
    simp only [passPositions, clusterPositions, List.length_flatMap, List.length_map, List.length_range,
      List.map_const', List.sum_replicate, smul_eq_mul]
    rw [Nat.mul_left_comm] at hn
    omega
  rw [transformPositions, List.length_flatMap, List.map_congr_left hpass, List.map_const', List.length_range,
    List.sum_replicate, smul_eq_mul, Nat.mul_comm]

theorem map_k_passPositions (hp : p < c.log2N) : (passPositions c p).map (·.k) = passUppers c p := by
  simp only [passPositions, clusterPositions, List.map_flatMap, List.map_map, passUppers, c.n_div_cluster p hp]
  rfl

theorem bfly_of_mem_passPositions (hp : p < c.log2N) {g : Progress} (hg : g ∈ passPositions c p) :
    g.p = p ∧ bflyOk c g.p g.k = true := by
  have hgp : g.p = p := by
    obtain ⟨q, -, hq⟩ := List.mem_flatMap.1 hg
    obtain ⟨t, -, rfl⟩ := List.mem_map.1 hq
    rfl
  refine ⟨hgp, hgp ▸ bflyOk_of_mem hp ?_⟩
  rw [← map_k_passPositions hp]
  exact List.mem_map_of_mem hg

theorem bflyOk_of_mem_transformPositions {g : Progress} (hg : g ∈ transformPositions c) :
    bflyOk c g.p g.k = true := by
  obtain ⟨p, hp, hg⟩ := List.mem_flatMap.1 hg
  exact (bfly_of_mem_passPositions (List.mem_range.1 hp) hg).2

end

/-! ### FFT.TRANSFORM as its butterflies (41_transform.md R168, 43_control.md R237) -/

theorem forEach_flatMap {α β : Type} (f : β → State → Except Stop State) (g : α → List β) (l : List α)
    (s : State) : forEach f (l.flatMap g) s = forEach (fun a => forEach f (g a)) l s := by
  induction l generalizing s with
  | nil => rfl
  | cons a l ih =>
    rw [List.flatMap_cons, forEach_append, forEach_cons]
    exact congrArg (forEach f (g a) s >>= ·) (funext ih)

theorem forEach_map {α β : Type} (f : β → State → Except Stop State) (g : α → β) (l : List α)
    (s : State) : forEach f (l.map g) s = forEach (fun a => f (g a)) l s := by
  induction l generalizing s with
  | nil => rfl
  | cons a l ih => exact congrArg (f (g a) s >>= ·) (funext ih)

/-- FFT.BFLY at a position of the transform. -/
def bflyAt (g : Progress) : State → Except Stop State := opFftBfly g.p g.k

theorem bflyAt_part {s : State} {gs : List Progress} (hgs : ∀ g ∈ gs, bflyOk s.cfg g.p g.k = true)
    (hf : s.full = true) : ∀ g ∈ gs, ∀ t, WritesBuf s t → BufPart (bflyAt g) t :=
  fun g hg t ht => opFftBfly_part (by rw [ht.cfg]; exact hgs g hg) (ht.full.trans hf)

theorem forEach_passPositions {p : Nat} {s : State} (hp : p < s.cfg.log2N) (hf : s.full = true) :
    forEach bflyAt (passPositions s.cfg p) s = opFftPass p s := by
  rw [opFftPass_of_full hp hf, ← map_k_passPositions hp, forEach_map]
  have hmem {g : Progress} (hg : g ∈ passPositions s.cfg p) := bfly_of_mem_passPositions hp hg
  refine forEach_congr (bflyAt_part (fun g hg => (hmem hg).2) hf) (fun g hg t _ => ?_)
  rw [bflyAt, (hmem hg).1]

theorem forEach_transformPositions {s : State} (hf : s.full = true) :
    forEach bflyAt (transformPositions s.cfg) s = opFftTransform s := by
  have hpass (p : Nat) (hp : p ∈ List.range s.cfg.log2N) (t : State) (ht : WritesBuf s t) :
      forEach bflyAt (passPositions s.cfg p) t = opFftPass p t := by
    rw [← ht.cfg]
    exact forEach_passPositions (by rw [ht.cfg]; exact List.mem_range.1 hp) (ht.full.trans hf)
  rw [opFftTransform_eq_forEach hf, transformPositions, forEach_flatMap]
  refine forEach_congr (fun p hp t ht => ?_) hpass
  exact forEach_part fun g hg u hu => bflyAt_part
    (fun g hg => (bfly_of_mem_passPositions (List.mem_range.1 hp) hg).2) hf g hg u (ht.trans hu)

end Sys2Proof.Machine

namespace Sys2Proof.Machine

/-! ### A tick run as its sub-steps (43_control.md R236, R237) -/

section
variable {s u : State} {n : Nat}

theorem runSubsteps_of_ok (h : opSubstep s = .ok u) (hp : u.phase ≠ .idle) :
    runSubsteps (n + 1) s = runSubsteps n (u.returns none) := by
  simp only [runSubsteps, execSubstep, h]
  exact if_neg hp

theorem runSubsteps_of_end (h : opSubstep s = .ok u) (hp : u.phase = .idle) :
    runSubsteps (n + 1) s = .next (u.returns none) := by
  simp only [runSubsteps, execSubstep, h]
  exact if_pos hp

/-- A model fault ends the tick. -/
theorem runSubsteps_of_raise {c : FaultCode} (h : opSubstep s = .error (.raise c)) :
    runSubsteps (n + 1) s = .next { s.raise c with phase := .idle } := by
  simp only [runSubsteps, execSubstep, h, if_true]

theorem runSubsteps_of_halt {f : Fault} (h : opSubstep s = .error (.halt f)) :
    runSubsteps (n + 1) s = .fault f := by
  simp only [runSubsteps, execSubstep, h]

end

/-! The butterflies and the match do not read STATE or the tick's position; a butterfly keeps both. -/

section
variable (s : State) (f : FsmState) (ph : TickPhase)

@[simp] theorem State.atPosition_cfg : (s.atPosition f ph).cfg = s.cfg := rfl

theorem readElem_atPosition (i : Nat) : readElem (s.atPosition f ph) i = readElem s i := rfl

theorem writeElem_atPosition (i : Nat) (z : Cplx) :
    writeElem (s.atPosition f ph) i z = (writeElem s i z).map (·.atPosition f ph) := by
  unfold writeElem
  split_ifs with h h' h'
  · rfl
  · exact absurd h h'
  · exact absurd h' h
  · rfl

theorem butterfly_atPosition (stride c k : Nat) :
    butterfly stride c k (s.atPosition f ph) = (butterfly stride c k s).map (·.atPosition f ph) := by
  simp only [butterfly, readElem_atPosition]
  cases readElem s k with
  | error e => rfl
  | ok a =>
    cases readElem s (k + stride) with
    | error e => rfl
    | ok b =>
      simp only [ok_bind, writeElem_atPosition, State.atPosition_cfg]
      cases writeElem s k (cadd a (cmul b (tw s.cfg c))) with
      | error e => rfl
      | ok t => exact writeElem_atPosition t f ph _ _

theorem bflyAt_atPosition {g : Progress} (h : bflyOk s.cfg g.p g.k = true) (hf : s.full = true) :
    bflyAt g (s.atPosition f ph) = (bflyAt g s).map (·.atPosition f ph) := by
  rw [bflyAt, opFftBfly_eq h hf, ← butterfly_atPosition]
  exact opFftBfly_eq (s := s.atPosition f ph) h hf

theorem matchLoop_atPosition (count : Nat) (r : MatchRegs) :
    matchLoop count r (s.atPosition f ph) = matchLoop count r s := by
  induction count generalizing r with
  | zero => rfl
  | succ count ih => exact congrArg (readElem s r.i >>= ·) (funext fun _ => ih _)

theorem opMatchError_atPosition : opMatchError (s.atPosition f ph) = opMatchError s := by
  unfold opMatchError
  rw [matchLoop_atPosition]
  rfl

end

/-- The position of an Analyze tick before the butterflies listed. -/
def phaseBefore : List Progress → TickPhase
  | [] => .analyzeMatch
  | g :: _ => .analyzeFft g

theorem phaseBefore_ne_idle (gs : List Progress) : phaseBefore gs ≠ .idle := by
  cases gs <;> simp [phaseBefore]

section
variable {s u : State} {g : Progress}

theorem opSubstep_of_bfly_ok {gs : List Progress} (hp : s.phase = .analyzeFft g) (h : bflyAt g s = .ok u)
    (hn : g.next u.cfg = gs.head?) : opSubstep s = .ok { u with phase := phaseBefore gs } := by
  simp only [bflyAt] at h
  simp only [opSubstep, hp, h, ok_bind, hn]
  cases gs <;> rfl

theorem opSubstep_of_bfly_error {e : Stop} (hp : s.phase = .analyzeFft g) (h : bflyAt g s = .error e) :
    opSubstep s = .error e := by
  simp only [bflyAt] at h
  simp only [opSubstep, hp, h, error_bind]

end

section
variable {s : State} {f : FsmState}

/-- The end of an Analyze tick: MATCH.ISMATCH, then the STATE write. -/
theorem runSubsteps_match (s₀ : State) (hf : s.full = true) (hp : s.phase = .idle) :
    runSubsteps 2 (s.atPosition f .analyzeMatch) = command s₀ (analyzeEnd s) := by
  have hop : opSubstep (s.atPosition f .analyzeMatch) = opMatchError s >>= fun r =>
      .ok (s.atPosition f (.analyzeWrite r (matchResult s.cfg r.err))) := by
    rw [← opMatchError_atPosition s f .analyzeMatch]
    rfl
  rw [analyzeEnd]
  rcases opMatchError_cases s with ⟨hf', _⟩ | ⟨_, _, h⟩ | ⟨_, e, h, _, _, _, rfl⟩
  · rw [hf] at hf'; cases hf'
  · rw [h] at hop ⊢
    rw [runSubsteps_of_ok hop (by simp [State.atPosition])]
    refine (runSubsteps_of_end rfl rfl).trans ?_
    simp [command, State.atPosition, State.returns, hp]
  · rw [h] at hop ⊢
    exact runSubsteps_of_halt hop

/-- The butterflies that are left, then the end of the tick. None of them raises a fault, so the state in which
a fault would be recorded does not matter. -/
theorem runSubsteps_butterflies (s₀ : State) {gs : List Progress} (hgs : InLoopOrder s.cfg gs)
    (hok : ∀ g ∈ gs, bflyOk s.cfg g.p g.k = true) (hf : s.full = true) (hp : s.phase = .idle) :
    runSubsteps (gs.length + 2) (s.atPosition f (phaseBefore gs)) =
      command s₀ (forEach bflyAt gs s >>= analyzeEnd) := by
  induction gs generalizing s with
  | nil => exact runSubsteps_match s₀ hf hp
  | cons g gs ih =>
    obtain ⟨hn, hgs⟩ := hgs.of_cons
    have hbfly := bflyAt_atPosition s f (.analyzeFft g) (hok g List.mem_cons_self) hf
    rw [forEach_cons]
    rcases bflyAt_part hok hf g List.mem_cons_self s (.refl s) with ⟨t, ht, hw⟩ | ⟨e, he, _, _, _, rfl⟩
    · rw [ht] at hbfly
      rw [ht, ok_bind, ← ih (hw.cfg.symm ▸ hgs)
        (hw.cfg.symm ▸ fun g hg => hok g (List.mem_cons_of_mem _ hg)) (hw.full.trans hf)
        (by rw [hw.frame]; exact hp)]
      exact runSubsteps_of_ok (opSubstep_of_bfly_ok rfl hbfly ((congrArg g.next hw.cfg).trans hn))
        (phaseBefore_ne_idle gs)
    · rw [he] at hbfly
      rw [he]
      exact runSubsteps_of_halt (opSubstep_of_bfly_error rfl hbfly)

theorem fineTick_of_analyze_full (hs : s.fsm = .stateAnalyze) (hp : s.phase = .idle) (hf : s.full = true) :
    fineTick s = exec .fsmTick s := by
  have hstart : opSubstep s = .ok { s with phase := .analyzeFft (Progress.first s.cfg) } := by
    simp [opSubstep, startTick, hp, hs, hf]
  obtain ⟨gs, hgs⟩ := List.head?_eq_some_iff.1 (transformPositions_head? s.cfg)
  have hrest := runSubsteps_butterflies (f := s.fsm) s (inLoopOrder_transformPositions s.cfg)
    (fun g hg => bflyOk_of_mem_transformPositions hg) hf hp
  rw [exec_fsmTick, opFsmTick_of_analyze hs, tickAnalyze_of_full hf, ← forEach_transformPositions hf,
    ← hrest, length_transformPositions, hgs]
  exact runSubsteps_of_ok hstart (by simp)

end

/-! ### The ticks of the other states -/

/-- A draw looks at the environment's answers alone. -/
theorem draw_congr {s t : State} (ha : t.answers = s.answers) (hd : t.draws = s.draws) :
    t.draw.1 = s.draw.1 ∧ t.draw.2.answers = s.draw.2.answers ∧ t.draw.2.draws = s.draw.2.draws := by
  unfold State.draw
  rw [ha, hd]
  cases s.answers <;> exact ⟨rfl, by simp, by simp⟩

section
variable {s : State}

theorem fineTick_of_init (hs : s.fsm = .stateInit) (hp : s.phase = .idle) : fineTick s = exec .fsmTick s := by
  have hstart : opSubstep s = .ok (tickInit s) := by simp only [opSubstep, hp, startTick, hs]
  have hend : (tickInit s).phase = .idle := by
    rcases tickInit_cases s with ⟨_, h⟩ | ⟨_, h⟩ <;> rw [h] <;> exact hp
  rw [exec_fsmTick, opFsmTick_of_init hs]
  exact runSubsteps_of_end hstart hend

theorem fineTick_of_open (hs : s.fsm = .stateOpen) (hp : s.phase = .idle) : fineTick s = exec .fsmTick s := by
  have hstart : opSubstep s = .ok { s.emit .actOpen with phase := .openPoll } := by
    simp only [opSubstep, hp, startTick, hs]
  rw [exec_fsmTick, opFsmTick_of_open hs, tickOpen]
  refine (runSubsteps_of_ok hstart (by simp)).trans ((runSubsteps_of_end rfl rfl).trans ?_)
  obtain ⟨hanswer, hanswers, hdraws⟩ := draw_congr (s := s.emit .actOpen)
    (t := ({ s.emit .actOpen with phase := .openPoll } : State).returns none) rfl rfl
  rw [openPoll_frame, openPoll_frame, hanswer, hanswers, hdraws]
  simp [command, State.returns, hp]

theorem fineTick_of_analyze_not_full (hs : s.fsm = .stateAnalyze) (hp : s.phase = .idle) (hf : s.full = false) :
    fineTick s = exec .fsmTick s := by
  rw [exec_fsmTick, opFsmTick_of_analyze hs, tickAnalyze_of_not_full hf]
  refine (runSubsteps_of_raise (c := .notFull) (by simp [opSubstep, startTick, hp, hs, hf])).trans ?_
  rw [← hp]
  rfl

theorem half_mul_log2N_pos (c : Config) : 0 < c.half * c.log2N := by
  have hn := c.two_half
  have hpos := c.n_pos
  exact Nat.mul_pos (by omega) c.log2N_range.1

theorem opSubstep_of_resetAcq (hp : s.phase = .resetAcq) (ha : s.armed = false) :
    opSubstep s = .ok { s with
      cursor := 0, full := false, collecting := false
      phase := if s.cfg.acqMode = .freeRunning then .resetStart else .resetWrite } := by
  rw [opSubstep, hp]
  dsimp only
  rw [opAcqReset_ok.2 ⟨ha, rfl⟩, ok_bind]
  dsimp only
  cases s.cfg.acqMode <;> rfl

theorem opSubstep_of_resetStart (hp : s.phase = .resetStart) (hz : s.startHazard = false) :
    opSubstep s = .ok { s with
      cursor := 0, full := false, collecting := true, armed := true, phase := .resetWrite } := by
  simp [opSubstep, hp, opAcqStart, hz]

theorem fineTick_of_reset (hs : s.fsm = .stateReset) (hp : s.phase = .idle) : fineTick s = exec .fsmTick s := by
  cases ha : s.armed with
  | true =>
    rw [exec_fsmTick_of_reset_armed hs ha]
    refine (runSubsteps_of_raise (c := .resetArmed) ?_).trans ?_
    · simp [opSubstep, startTick, hp, hs, State.resetHazard, ha]
    · rw [← hp]
      rfl
  | false =>
    have hstart : opSubstep s = .ok { s.emit .actClose with phase := .resetAcq } := by
      simp [opSubstep, startTick, hp, hs, State.resetHazard, ha]
    have hclear := opSubstep_of_resetAcq
      (s := ({ s.emit .actClose with phase := .resetAcq } : State).returns none) rfl ha
    rw [exec_fsmTick_of_reset hs ha]
    cases hm : s.cfg.acqMode with
    | triggered =>
      simp only [State.returns_cfg, State.emit_cfg, hm] at hclear
      refine (runSubsteps_of_ok hstart (by simp)).trans ((runSubsteps_of_ok hclear (by simp)).trans
        ((runSubsteps_of_end rfl rfl).trans ?_))
      simp [State.returns, State.emit, hp, ha]
    | freeRunning =>
      simp only [State.returns_cfg, State.emit_cfg, hm] at hclear
      obtain ⟨m, hcount⟩ := Nat.exists_eq_succ_of_ne_zero (half_mul_log2N_pos s.cfg).ne'
      rw [fineTick, hcount]
      refine (runSubsteps_of_ok hstart (by simp)).trans ((runSubsteps_of_ok hclear (by simp)).trans
        ((runSubsteps_of_ok (opSubstep_of_resetStart rfl rfl) (by simp)).trans
        ((runSubsteps_of_end rfl rfl).trans ?_)))
      simp [State.returns, State.emit, hp]

end

/-- Settles O43: state by state; an Analyze tick with FULL = 1 is an induction over the positions that are left. -/
theorem substepsMakeTheWholeTick : Obligations.SubstepsMakeTheWholeTick := by
  intro s hp
  cases hs : s.fsm with
  | stateInit => exact fineTick_of_init hs hp
  | stateOpen => exact fineTick_of_open hs hp
  | stateReset => exact fineTick_of_reset hs hp
  | stateAnalyze =>
    cases hf : s.full with
    | false => exact fineTick_of_analyze_not_full hs hp hf
    | true => exact fineTick_of_analyze_full hs hp hf

end Sys2Proof.Machine

namespace Sys2Proof.Machine

/-! ### The events that the environment may deliver (44_external.md R260, R269, 60_exceptions.md R285) -/

section
variable {s : State} {w : OpWord}

theorem refusalOf_sample_of_armed_or_full {v8 : BitVec 8} (h : s.armed = true ∨ s.full = true) :
    refusalOf .sampler w (.acqSample v8) s = none :=
  if_pos (Bool.or_eq_true_iff.2 h)

theorem refusalOf_trigger_of_triggered (h : s.cfg.acqMode = .triggered) :
    refusalOf .trigger w .acqTrigger s = none :=
  if_pos h

/-- An agent's admitted operation, delivered by its encoding, runs without the event in the inbox. -/
theorem step_of_admitted {src : Source} {i : Instr} {rest : List Event}
    (hin : s.inbox = .word src (encode i) :: rest) (hctx : i.opcode.context = .input)
    (hr : refusalOf src (encode i) i s = none) : step s = exec i { s with inbox := rest } := by
  rw [← popped_of_cons hin]
  exact step_eq_exec (nextEvent_of_cons hin) (decode_encode hctx) hr

end

/-- Settles O8: each port delivers the encoding of its operation, and `refusalOf` admits it. -/
theorem admittedPortEventsRun : Obligations.AdmittedPortEventsRun :=
  ⟨fun _ _ _ hin h => step_of_admitted hin rfl (refusalOf_sample_of_armed_or_full h),
    fun _ _ hin hm => step_of_admitted hin rfl (refusalOf_trigger_of_triggered hm),
    fun _ _ hin hp => step_of_admitted hin rfl (refusalOf_loop_tick_of_idle hp),
    fun _ _ hin hp => step_of_admitted hin rfl (refusalOf_harness_of_idle hp)⟩

/-! ### The proximity answer (44_external.md R261) -/

section
variable {s : State}

theorem State.draw_of_cons {v : BitVec 1} {rest : List (BitVec 1)} (h : s.answers = v :: rest) :
    s.draw = (v, { s with answers := rest }) := by
  rw [State.draw, h]

theorem State.draw_of_nil (h : s.answers = []) :
    s.draw = (Config.freeNearby s.draws, { s with draws := s.draws + 1 }) := by
  rw [State.draw, h]

end

/-- Settles O37: a poll emits the answer drawn, which the list of answers or else the counter of draws gives. -/
theorem everyPollDrawsOneAnswer : Obligations.EveryPollDrawsOneAnswer := by
  refine fun s => ⟨fun v rest h => ?_, fun h => ?_⟩
  · rw [State.poll, State.draw_of_cons h]; rfl
  · rw [State.poll, State.draw_of_nil h]; rfl

end Sys2Proof.Machine

namespace Sys2Proof.Machine

/-! ### SYS.RESET and the start of a run (70_reset_and_hazards.md R320, R324) -/

section
variable {s : State}

theorem opSysReset_of_triggered (hm : s.cfg.acqMode = .triggered) :
    opSysReset s = { s with
      fsm := .stateInit, cursor := 0, full := false, collecting := false, armed := false,
      buf := [], phase := .idle } := by
  simp [opSysReset, hm]

theorem opSysReset_of_freeRunning (hm : s.cfg.acqMode = .freeRunning) :
    opSysReset s = { s with
      fsm := .stateInit, cursor := 0, full := false, collecting := true, armed := true,
      buf := [], phase := .idle } := by
  simp [opSysReset, hm]

end

/-- Settles O9: SYS.RESET tests nothing, and the mode alone decides COLLECTING and ARMED. -/
theorem sysResetWritesTheResetValues : Obligations.SysResetWritesTheResetValues := by
  refine fun s => ⟨fun hm => ?_, fun hm => ?_⟩
  · rw [exec_sysReset, opSysReset_of_triggered hm]; rfl
  · rw [exec_sysReset, opSysReset_of_freeRunning hm]; rfl

/-- Settles O11: in TRIGGERED mode nothing collects after reset, so ACQ.START does not fault, and of the four
elements it writes only COLLECTING and ARMED change. -/
theorem freeRunningResetIsTriggeredResetThenStart : Obligations.FreeRunningResetIsTriggeredResetThenStart := by
  intro c hm
  have hidle : ¬((State.resetOf { c with acqMode := .triggered }).collecting = true ∧
      (State.resetOf { c with acqMode := .triggered }).full = false) := by
    simp [State.resetOf]
  rw [(acqStartStartsOrFaults _).1 hidle]
  simp [State.resetOf, hm]

end Sys2Proof.Machine
